-- ==== Sys2Proof/Word.lean ====
section
/-!
DEFINITION. The word types of the engine and their plainest arithmetic (00_scope.md rules R7, R10).
-/

namespace Sys2Proof

/-- A byte: every datum on the wire, in the FIFO and on the host port (R7, R56). -/
abbrev Byte := BitVec 8

/-- A time or a span in milliseconds: the clock is a u32 (R7, R232). -/
abbrev Millis := BitVec 32

/-- A device register address as the rules compute it. A register address proper has 7 bits (R51, R71);
the eighth bit lets a `REGMAP` parameter name an address beyond the valid range, which R102 then refuses. -/
abbrev RegAddr := BitVec 8

/-- The elapsed time between two clock answers, modulo 2^32 (R233). -/
def elapsed (t0 t : Millis) : Millis := t - t0

/-- A boolean as the byte the engine writes: 0x01 for true, 0x00 for false (R76, R83). -/
def byteOfBool (b : Bool) : Byte := if b then 1 else 0

/-- A byte read as a boolean: any non-zero byte is true (R76, R84). -/
def boolOfByte (b : Byte) : Bool := b != 0

end Sys2Proof
end

