-- ==== Sys2Proof/Syntax.lean ====
section
/-!
DEFINITION. The syntax of the engine: the data a frame is made of, the four encoded forms, the events on the
engine's ports, and `Instr`, one constructor per row of spec/opcode_table.json (30_encoding.md).
-/

namespace Sys2Proof

/-- The link-layer header (R26). `rssi` is an i8 in two's complement. -/
structure Header where
  totalSize : Byte
  target : Byte
  source : Byte
  ackRequested : Bool
  rssi : Byte
deriving DecidableEq, Repr, Inhabited

/-- A content (R27): six opaque timestamp bytes, the packet type, the size and the data.
In the packet slot and in a decoded frame `data` has `CONTENT_DATA_MAX` bytes; in an operand it has `size` bytes. -/
structure Content where
  timestamp : List Byte
  type : Byte
  size : Byte
  data : List Byte
deriving DecidableEq, Repr, Inhabited

/-- A packet frame, the shape of the packet slot (R25). -/
structure Packet where
  header : Header
  content : Content
  callback : Option Byte
deriving DecidableEq, Repr, Inhabited

/-- The four encoded forms of R70. -/
inductive Format where
  | spi
  | host
  | op
  | state
deriving DecidableEq, Repr

/-- An encoded command: its form and its bytes, in the order they travel. -/
structure CommandFrame where
  format : Format
  bytes : List Byte
deriving DecidableEq, Repr

/-- A mode of the serial bus, `BUS_MODE` (R105). -/
structure BusMode where
  /-- The clock is high between transactions. -/
  clockIdleHigh : Bool
  /-- Data is sampled on the falling edge of the clock. -/
  sampleOnFalling : Bool
  /-- The most significant bit of a byte is sent first. -/
  msbFirst : Bool
  /-- The chip select is asserted by a low level. -/
  selectActiveLow : Bool
deriving DecidableEq, Repr, Inhabited

/-- What the engine does at the serial bus within one transaction (R100, R101, R103). -/
inductive BusStep where
  /-- The chip select is asserted. -/
  | select
  /-- The serial controller is set to a mode, which holds for the bytes after it (R105). -/
  | setBusMode (m : BusMode)
  /-- A byte is sent; what the device returns meanwhile is ignored (R72). -/
  | shiftOut (b : Byte)
  /-- A byte is sent and the device's answer taken (R72, R101). -/
  | shiftIn (sent answer : Byte)
  /-- The chip select is deasserted. -/
  | deselect
deriving DecidableEq, Repr

/-- What can happen at the engine's ports (R9, R11, R36, R55, R84), one micro-step each but for state writes. -/
inductive Event where
  /-- One transaction with all that belongs to it, in order (R103); nothing of the engine happens within it. -/
  | spi (steps : List BusStep)
  /-- A clock read and its answer (R232). -/
  | clock (t : Millis)
  /-- `ThisNodeAddress()` and its answer (R36). -/
  | nodeAddress (a : Byte)
  /-- `NetworkId()` and its answer (R36). -/
  | networkId (w : List Byte)
  /-- `BroadcastAddress()` and its answer (R36). -/
  | broadcastAddress (a : Byte)
  /-- The upcall of a completion callback with its argument (R175, R204). -/
  | callback (id : Byte) (ok : Bool)
  /-- The upcall of a packet handler with the decoded frame (R175, R211). -/
  | handlerCall (id : Byte) (h : Header) (c : Content)
  /-- The bool the handler answered (R175). -/
  | handlerReturn (r : Bool)
  /-- The result byte of a SEND on the host port (R83). -/
  | sendResult (r : Byte)
deriving DecidableEq, Repr

/-- What the host does at one upcall (R175, R186): the command frames it issues, one after another, and then the bool it
returns (which a callback's caller does not read), or none where it never returns. -/
structure HostAnswer where
  nested : List (List Byte)
  result : Option Bool
deriving DecidableEq, Repr, Inhabited

/-- The operations of the engine, one constructor per row of the opcode table. -/
inductive Instr where
  -- register transport, 41_transport.md
  | spiWrite (a : BitVec 7) (d : Byte)
  | spiRead (a : BitVec 7)
  -- host commands, 44_commands.md
  | init
  | update
  | send (target : Byte) (requestAck : Bool) (callback : Byte) (content : Content)
  | setHandler (type handler : Byte)
  | event (kind : Byte)
  -- adapter operations, 42_adapter.md
  | setMode (m : Byte)
  | getMode
  | waitForModeReady (timeoutMs : Millis)
  | isModeReady
  | isPayloadReady
  | isPacketSent
  | isFifoNotEmpty
  | isFifoFull
  | writeToFifo (buf : List Byte)
  | readFromFifo (maxLength : Byte)
  | getRssi
  | restartRx
  | setHighPowerSettings (on : Bool)
  | setCarrierFrequency (frf : BitVec 24)
  | setBitRate (br : BitVec 16)
  | setModulationType (m : Byte)
  | setPowerLevel (p : Byte)
  | setSyncWord (word : List Byte)
  | setNodeAddress (a : Byte)
  | setBroadcastAddress (a : Byte)
  | setAddressFiltering (f : Byte)
  | setPacketFormat (f : Byte)
  | setCrc (on : Bool)
  | setCrcAutoClear (on : Bool)
  | setFifoThresholdCondition (c : Byte)
  | setPreambleLength (n : BitVec 16)
  -- framing, 43_framing.md
  | validateContentSize (content : Content)
  | computeTotalSize (content : Content)
  | encodeFrame (header : Header) (content : Content)
  | decodeFrame (bytes : List Byte)
  -- engine helpers
  | packetToSend
  | isReadyToSend
  | isActive
  | handlePayload
  -- tick actions, 45_tick.md
  | tickNotInitialized
  | tickIdle
  | tickListeningInit
  | tickListeningWaiting
  | tickListeningReceiving
  | tickListeningSendAck
  | tickListeningDone
  | tickSendingInit
  | tickSendingWriting
  | tickSendingTransmitting
  | tickSendingWaitForAck
  | tickSendingDone
  | tickSleeping
deriving DecidableEq, Repr

end Sys2Proof
end

