-- ==== Sys2Proof/Config.lean ====
section
/-!
DEFINITION. What an instance of the engine fixes: the constants and the parameters of 00_scope.md rule R6, the
reference values of the parameters, and the free values (opaque constants) that stand for every answer the spec
leaves to another agent.
-/

namespace Sys2Proof

/-- `HOME`: the top-level state entered after Init and after Wakeup (R6, R166, R182). -/
inductive Home where
  | listening
  | idle
deriving DecidableEq, Repr

/-- `WAIT_FAIL`: what a tick action does when a mode-ready wait fails (R191). -/
inductive WaitFail where
  | proceed
  | stall
  | abortToIdle
deriving DecidableEq, Repr

/-- `STAGE_POLICY`: whether SendPacket may overwrite a staged packet (R170). -/
inductive StagePolicy where
  | overwrite
  | reject
deriving DecidableEq, Repr

/-- `rssi_of`: the conversion from the raw RSSI byte to dBm (R6, R121): the reference conversion, or a table of values
for the bytes 0, 1, 2 and so on. -/
inductive RssiConv where
  | halfNegated
  | table (dBm : List Int)
deriving DecidableEq, Repr

/-- One field of a setter's `enc_X` (R122): a register, a mask, and how the byte is taken from the argument: shifted
right by `right`, then left by `left`, after a negation as a boolean where `negate` is set. -/
structure FieldEnc where
  reg : RegAddr
  mask : Byte
  right : Nat
  left : Nat
  negate : Bool
deriving DecidableEq, Repr

/-- One element of `enc_X(arg)` (R122): a register, a mask, and the byte whose bits under the mask are written. -/
structure RegWrite where
  reg : RegAddr
  mask : Byte
  byte : Byte
deriving DecidableEq, Repr

/-- A setter's `enc_X` (R122): fields of the argument, or a table whose row number `arg` is `enc_X(arg)`. -/
inductive SetterEnc where
  | fields (l : List FieldEnc)
  | table (rows : List (List RegWrite))
deriving DecidableEq, Repr

/-- A setter's `valid_X`, the intervals in which its argument may lie (`CFG_RANGE_<setter>`), and its `enc_X`
(R6, R122). -/
structure SetterSpec where
  valid : List (Nat × Nat)
  enc : SetterEnc
deriving DecidableEq, Repr

/-- The twelve configuration setters of R123. -/
structure Setters where
  carrierFrequency : SetterSpec
  bitRate : SetterSpec
  modulationType : SetterSpec
  powerLevel : SetterSpec
  nodeAddress : SetterSpec
  broadcastAddress : SetterSpec
  addressFiltering : SetterSpec
  packetFormat : SetterSpec
  crc : SetterSpec
  crcAutoClear : SetterSpec
  fifoThresholdCondition : SetterSpec
  preambleLength : SetterSpec
deriving DecidableEq, Repr

/-- `REGMAP`: the addresses of the registers that the rules other than the setters name (R38), and the positions of the
fields they use: a bit, or the lowest bit of a field of three (R39, R40, R41, R43, R44). -/
structure RegMap where
  fifo : RegAddr
  opMode : RegAddr
  rssiValue : RegAddr
  irqFlags1 : RegAddr
  irqFlags2 : RegAddr
  syncConfig : RegAddr
  syncValue1 : RegAddr
  packetConfig2 : RegAddr
  modeLow : Fin 6
  modeReadyBit : Fin 8
  payloadReadyBit : Fin 8
  packetSentBit : Fin 8
  fifoNotEmptyBit : Fin 8
  fifoFullBit : Fin 8
  restartRxBit : Fin 8
  syncOnBit : Fin 8
  syncSizeLow : Fin 6
deriving DecidableEq, Repr

/-- `MODE_CODE`: the codes of the device modes in RegOpMode bits 4:2 (R78). -/
structure ModeCodes where
  sleep : BitVec 3
  standby : BitVec 3
  fs : BitVec 3
  transmitter : BitVec 3
  receiver : BitVec 3
deriving DecidableEq, Repr

/-- The parameters of an instance (R6). They are fixed for its life (R37). -/
structure Params where
  home : Home
  timeoutMs : Millis
  rssiThreshold : Int
  rssiConv : RssiConv
  syncLen : Nat
  regAddrMax : BitVec 7
  regs : RegMap
  busMode : BusMode
  modeCodes : ModeCodes
  hpOn : List (RegAddr × Byte)
  hpOff : List (RegAddr × Byte)
  waitFail : WaitFail
  stagePolicy : StagePolicy
  rxStrict : Bool
  rssiStamp : Bool
  fifoSize : Nat
  setters : Setters
  cfgFreq : BitVec 24
  cfgBitRate : BitVec 16
  cfgModulation : Byte
  cfgPower : Byte
  cfgAddrFilter : Byte
  cfgPacketFormat : Byte
  cfgCrcOn : Bool
  cfgCrcAutoClear : Bool
  cfgFifoCond : Byte
deriving DecidableEq, Repr

/-! ## Constants of the source (R6) -/

/-- `HDR_LEN`, `META_LEN`, `TS_LEN`, `CONTENT_DATA_MAX` and `FRAME_MAX` of R6. -/
abbrev Config.hdrLen : Nat := 5
abbrev Config.metaLen : Nat := 8
abbrev Config.tsLen : Nat := 6
abbrev Config.contentDataMax : Nat := 20
abbrev Config.frameMax : Nat := 33

/-! ## Reference values -/

/-- A whole-register write of the argument shifted right by `right` (R122, mask 0xFF). -/
def Config.wholeByte (reg : RegAddr) (right : Nat) : FieldEnc := ⟨reg, 0xFF, right, 0, false⟩

/-- A field of a register, the argument shifted left by `left` (R122). -/
def Config.field (reg : RegAddr) (mask : Byte) (left : Nat) : FieldEnc := ⟨reg, mask, 0, left, false⟩

/-- The table of R123. -/
def Config.referenceSetters : Setters where
  carrierFrequency := ⟨[(0, 0xFFFFFF)], .fields [wholeByte 0x07 16, wholeByte 0x08 8, wholeByte 0x09 0]⟩
  bitRate := ⟨[(1, 0xFFFF)], .fields [wholeByte 0x03 8, wholeByte 0x04 0]⟩
  modulationType := ⟨[(0, 1)], .fields [field 0x02 0x18 3]⟩
  powerLevel := ⟨[(0, 31)], .fields [field 0x11 0x1F 0]⟩
  nodeAddress := ⟨[(0, 0xFF)], .fields [wholeByte 0x39 0]⟩
  broadcastAddress := ⟨[(0, 0xFF)], .fields [wholeByte 0x3A 0]⟩
  addressFiltering := ⟨[(0, 2)], .fields [field 0x37 0x06 1]⟩
  packetFormat := ⟨[(0, 1)], .fields [field 0x37 0x80 7]⟩
  crc := ⟨[(0, 1)], .fields [field 0x37 0x10 4]⟩
  crcAutoClear := ⟨[(0, 1)], .fields [⟨0x37, 0x08, 0, 3, true⟩]⟩
  fifoThresholdCondition := ⟨[(0, 1)], .fields [field 0x3C 0x80 7]⟩
  preambleLength := ⟨[(0, 0xFFFF)], .fields [wholeByte 0x2C 8, wholeByte 0x2D 0]⟩

/-- The reference `REGMAP` (R38 to R44). -/
def Config.referenceRegs : RegMap where
  fifo := 0x00
  opMode := 0x01
  rssiValue := 0x24
  irqFlags1 := 0x27
  irqFlags2 := 0x28
  syncConfig := 0x2E
  syncValue1 := 0x2F
  packetConfig2 := 0x3D
  modeLow := 2
  modeReadyBit := 7
  payloadReadyBit := 2
  packetSentBit := 3
  fifoNotEmptyBit := 6
  fifoFullBit := 7
  restartRxBit := 2
  syncOnBit := 7
  syncSizeLow := 3

/-- The reference `BUS_MODE` (R105): SPI mode 0, most significant bit first (R71), chip select active low. -/
def Config.referenceBusMode : BusMode where
  clockIdleHigh := false
  sampleOnFalling := false
  msbFirst := true
  selectActiveLow := true

/-- The reference `MODE_CODE` (R78). -/
def Config.referenceModeCodes : ModeCodes where
  sleep := 0
  standby := 1
  fs := 2
  transmitter := 3
  receiver := 4

/-- The parameters that reset gives an instance: the reference maps and decided defaults of R6 and, for the
parameters R6 leaves open, parameter set A of 95_test_vectors.md with `HOME = Idle`.
[DESIGN CHOICE, unsafe: log 6. Statements about every state hold for every value.] -/
def Config.reference : Params where
  home := .idle
  timeoutMs := 10
  rssiThreshold := -90
  rssiConv := .halfNegated
  syncLen := 2
  regAddrMax := 0x71
  regs := Config.referenceRegs
  busMode := Config.referenceBusMode
  modeCodes := Config.referenceModeCodes
  hpOn := [(0x5A, 0x5D), (0x5C, 0x7C)]
  hpOff := [(0x5A, 0x55), (0x5C, 0x70)]
  waitFail := .proceed
  stagePolicy := .overwrite
  rxStrict := true
  rssiStamp := false
  fifoSize := 66
  setters := Config.referenceSetters
  cfgFreq := 0xD90000
  cfgBitRate := 0x0D05
  cfgModulation := 0
  cfgPower := 0x1F
  cfgAddrFilter := 2
  cfgPacketFormat := 1
  cfgCrcOn := true
  cfgCrcAutoClear := true
  cfgFifoCond := 1

/-- `NUM_TYPES` at reset. [DESIGN CHOICE: log 21; R6 leaves it open, at least 4.] -/
def Config.numTypesAtReset : Nat := 4

/-! ## Free values

Nothing in Lean can evaluate these or prove a value of them. -/

/-- The device oracle: the answer to a read of an address after a history of the ports (R55, U1). -/
opaque Config.deviceByte : List Event → RegAddr → Byte

/-- The clock's answer after a history of the ports (R232, U3). -/
opaque Config.clockAnswer : List Event → Millis

/-- The collaborator's answers after a history of the ports (R36). -/
opaque Config.nodeAddress : List Event → Byte
opaque Config.networkId : List Event → List Byte
opaque Config.broadcastAddress : List Event → Byte

/-- What the host does at an upcall after a history of the ports (R175, U33). -/
opaque Config.hostAnswer : List Event → HostAnswer

/-- The byte at an index of a received frame that it lacks, or whose value there is out of range, at the n-th draw
(R154, U18). -/
opaque Config.missingByte : Nat → Nat → Byte

/-- The local RSSI sample of a DecodeFrame that is run on its own under `RSSI_STAMP = true`, at the n-th draw
(R155 names the sample and gives it no source there). -/
opaque Config.localRssi : Nat → Byte

/-- The total size of a content whose size makes it exceed a byte (R151 states none). -/
opaque Config.totalSizeBeyondByte : Byte → Byte

end Sys2Proof
end

