-- ==== Sys2Proof/WellFormed.lean ====
section
/-!
DEFINITION. Which terms of `Instr` an encoding can carry: the lengths of the byte sequences among the operands.
-/

namespace Sys2Proof

/-- A content operand: six timestamp bytes and exactly `size` data bytes (30_encoding.md R84). -/
def Content.operandOk (c : Content) : Bool :=
  c.timestamp.length == Config.tsLen && c.data.length == c.size.toNat

/-- A byte sequence whose length one byte can carry. -/
def byteSeqOk (b : List Byte) : Bool := decide (b.length < 256)

/-- The instruction's operands are ones an encoding can carry. Operands of fixed width are so by their type. -/
def Instr.WellFormed : Instr → Bool
  | .send _ _ _ content => content.operandOk
  | .validateContentSize content => content.operandOk
  | .computeTotalSize content => content.operandOk
  | .encodeFrame _ content => content.operandOk
  | .writeToFifo buf => byteSeqOk buf
  | .setSyncWord word => byteSeqOk word
  | .decodeFrame bytes => byteSeqOk bytes
  | .spiWrite _ _ | .spiRead _ | .init | .update | .setHandler _ _ | .event _ | .setMode _ | .getMode
  | .waitForModeReady _ | .isModeReady | .isPayloadReady | .isPacketSent | .isFifoNotEmpty | .isFifoFull
  | .readFromFifo _ | .getRssi | .restartRx | .setHighPowerSettings _ | .setCarrierFrequency _ | .setBitRate _
  | .setModulationType _ | .setPowerLevel _ | .setNodeAddress _ | .setBroadcastAddress _ | .setAddressFiltering _
  | .setPacketFormat _ | .setCrc _ | .setCrcAutoClear _ | .setFifoThresholdCondition _ | .setPreambleLength _
  | .packetToSend | .isReadyToSend | .isActive | .handlePayload | .tickNotInitialized | .tickIdle
  | .tickListeningInit | .tickListeningWaiting | .tickListeningReceiving | .tickListeningSendAck
  | .tickListeningDone | .tickSendingInit | .tickSendingWriting | .tickSendingTransmitting
  | .tickSendingWaitForAck | .tickSendingDone | .tickSleeping => true

end Sys2Proof
end

