-- ==== Sys2Proof/Decode.lean ====
section
/-!
DEFINITION. The decoder of the four encoded forms (30_encoding.md), total on any bytes and rejecting by name, and the
encoder after it. The bytes of the `spi`, `host` and `state` forms are the spec's (R71, R80, R84). Of the `op` form the
spec gives the code only (R85): the bytes of the arguments are the model's [DESIGN CHOICE, safe: log 8].
-/

namespace Sys2Proof

/-- Why bytes are no instruction. -/
inductive DecodeError where
  /-- No byte at all. -/
  | emptyFrame
  /-- A first byte that the form does not assign (R84, R85, R87, U9, U16). -/
  | unknownCode (f : Format) (code : Byte)
  /-- A length other than the one the first bytes fix (R83, R89, U9). -/
  | wrongLength (f : Format) (code : Byte)
  /-- A read transaction whose second byte is not the dummy 0x00 (R71). -/
  | readWithData (d : Byte)
deriving DecidableEq, Repr

/-- What a decoder of a stream answers: an instruction and the bytes after it, or the reason there is none. -/
abbrev Decoded := Except DecodeError (Instr × List Byte)

/-! ## Operands -/

/-- One byte. -/
def takeByte (f : Format) (code : Byte) (k : Byte → Instr) : List Byte → Decoded
  | b :: rest => .ok (k b, rest)
  | [] => .error (.wrongLength f code)

/-- Two bytes, the most significant first (R54). -/
def takeWord16 (f : Format) (code : Byte) (k : BitVec 16 → Instr) : List Byte → Decoded
  | b1 :: b0 :: rest => .ok (k (b1 ++ b0), rest)
  | _ => .error (.wrongLength f code)

/-- Three bytes, the most significant first. -/
def takeWord24 (f : Format) (code : Byte) (k : BitVec 24 → Instr) : List Byte → Decoded
  | b2 :: b1 :: b0 :: rest => .ok (k (b2 ++ b1 ++ b0), rest)
  | _ => .error (.wrongLength f code)

/-- Four bytes, the most significant first. -/
def takeWord32 (f : Format) (code : Byte) (k : Millis → Instr) : List Byte → Decoded
  | b3 :: b2 :: b1 :: b0 :: rest => .ok (k (b3 ++ b2 ++ b1 ++ b0), rest)
  | _ => .error (.wrongLength f code)

/-- A count byte and that many bytes. -/
def takeBytes (f : Format) (code : Byte) (k : List Byte → Instr) : List Byte → Decoded
  | n :: rest =>
    if n.toNat ≤ rest.length then .ok (k (rest.take n.toNat), rest.drop n.toNat)
    else .error (.wrongLength f code)
  | [] => .error (.wrongLength f code)

/-- A content: six timestamp bytes, the type, the size and `size` data bytes, in the order of R74 and R84. -/
def takeContent (f : Format) (code : Byte) (k : Content → Instr) : List Byte → Decoded
  | t0 :: t1 :: t2 :: t3 :: t4 :: t5 :: type :: size :: rest =>
    if size.toNat ≤ rest.length then
      .ok (k ⟨[t0, t1, t2, t3, t4, t5], type, size, rest.take size.toNat⟩, rest.drop size.toNat)
    else .error (.wrongLength f code)
  | _ => .error (.wrongLength f code)

/-! ## The four forms -/

/-- An SPI transaction (R71): bit 7 of the first byte marks a write; the second byte of a read is 0x00. -/
def decodeSpi : List Byte → Decoded
  | [] => .error .emptyFrame
  | [b0] => .error (.wrongLength .spi b0)
  | b0 :: b1 :: rest =>
    if b0.msb then .ok (.spiWrite (b0.truncate 7) b1, rest)
    else if b1 = 0 then .ok (.spiRead (b0.truncate 7), rest)
    else .error (.readWithData b1)

/-- A host command (R84). The length of SEND comes from its size byte (R83). -/
def decodeHost : List Byte → Decoded
  | [] => .error .emptyFrame
  | c :: rest =>
    match c.toNat with
    | 0x01 => .ok (.init, rest)
    | 0x02 => .ok (.update, rest)
    | 0x03 =>
      match rest with
      | target :: ack :: cb :: rest => takeContent .host c (.send target (boolOfByte ack) cb) rest
      | _ => .error (.wrongLength .host c)
    | 0x04 =>
      match rest with
      | type :: handler :: rest => .ok (.setHandler type handler, rest)
      | _ => .error (.wrongLength .host c)
    | 0x05 => takeByte .host c .event rest
    | _ => .error (.unknownCode .host c)

/-- An internal operation (R85) and its operands (log 8). -/
def decodeOp : List Byte → Decoded
  | [] => .error .emptyFrame
  | c :: rest =>
    match c.toNat with
    | 0x20 => takeByte .op c .setMode rest
    | 0x21 => .ok (.getMode, rest)
    | 0x22 => takeWord32 .op c .waitForModeReady rest
    | 0x23 => .ok (.isModeReady, rest)
    | 0x24 => .ok (.isPayloadReady, rest)
    | 0x25 => .ok (.isPacketSent, rest)
    | 0x26 => .ok (.isFifoNotEmpty, rest)
    | 0x27 => .ok (.isFifoFull, rest)
    | 0x28 => takeBytes .op c .writeToFifo rest
    | 0x29 => takeByte .op c .readFromFifo rest
    | 0x2A => .ok (.getRssi, rest)
    | 0x2B => .ok (.restartRx, rest)
    | 0x2C => takeByte .op c (fun b => .setHighPowerSettings (boolOfByte b)) rest
    | 0x30 => takeWord24 .op c .setCarrierFrequency rest
    | 0x31 => takeWord16 .op c .setBitRate rest
    | 0x32 => takeByte .op c .setModulationType rest
    | 0x33 => takeByte .op c .setPowerLevel rest
    | 0x34 => takeBytes .op c .setSyncWord rest
    | 0x35 => takeByte .op c .setNodeAddress rest
    | 0x36 => takeByte .op c .setBroadcastAddress rest
    | 0x37 => takeByte .op c .setAddressFiltering rest
    | 0x38 => takeByte .op c .setPacketFormat rest
    | 0x39 => takeByte .op c (fun b => .setCrc (boolOfByte b)) rest
    | 0x3A => takeByte .op c (fun b => .setCrcAutoClear (boolOfByte b)) rest
    | 0x3B => takeByte .op c .setFifoThresholdCondition rest
    | 0x3C => takeWord16 .op c .setPreambleLength rest
    | 0x40 => takeContent .op c .validateContentSize rest
    | 0x41 => takeContent .op c .computeTotalSize rest
    | 0x42 =>
      match rest with
      | total :: target :: source :: ack :: rssi :: rest =>
        takeContent .op c (.encodeFrame ⟨total, target, source, boolOfByte ack, rssi⟩) rest
      | _ => .error (.wrongLength .op c)
    | 0x43 => takeBytes .op c .decodeFrame rest
    | 0x50 => .ok (.packetToSend, rest)
    | 0x51 => .ok (.isReadyToSend, rest)
    | 0x52 => .ok (.isActive, rest)
    | 0x53 => .ok (.handlePayload, rest)
    | _ => .error (.unknownCode .op c)

/-- A tick action by its state word (R80, R86). -/
def decodeState : List Byte → Decoded
  | [] => .error .emptyFrame
  | w :: rest =>
    match w.toNat with
    | 0x00 => .ok (.tickNotInitialized, rest)
    | 0x10 => .ok (.tickIdle, rest)
    | 0x20 => .ok (.tickListeningInit, rest)
    | 0x21 => .ok (.tickListeningWaiting, rest)
    | 0x22 => .ok (.tickListeningReceiving, rest)
    | 0x23 => .ok (.tickListeningSendAck, rest)
    | 0x24 => .ok (.tickListeningDone, rest)
    | 0x30 => .ok (.tickSendingInit, rest)
    | 0x31 => .ok (.tickSendingWriting, rest)
    | 0x32 => .ok (.tickSendingTransmitting, rest)
    | 0x33 => .ok (.tickSendingWaitForAck, rest)
    | 0x34 => .ok (.tickSendingDone, rest)
    | 0x40 => .ok (.tickSleeping, rest)
    | _ => .error (.unknownCode .state w)

/-- The instruction at the head of a byte stream of the given form, and the bytes after it. -/
def decodeStream : Format → List Byte → Decoded
  | .spi, b => decodeSpi b
  | .host, b => decodeHost b
  | .op, b => decodeOp b
  | .state, b => decodeState b

/-- The instruction that a frame is: its bytes are one instruction and nothing more (R83, R89, U9). -/
def decode (frame : CommandFrame) : Except DecodeError Instr :=
  match decodeStream frame.format frame.bytes with
  | .error e => .error e
  | .ok (i, []) => .ok i
  | .ok (_, _ :: _) => .error (.wrongLength frame.format (frame.bytes.headD 0))

/-! ## The encoder -/

/-- The address byte of a transaction: the write flag in bit 7 and the 7-bit address (R73). -/
def addrByte (write : Bool) (a : BitVec 7) : Byte := BitVec.ofBool write ++ a

/-- The bytes of a wide operand, the most significant first. -/
def bytes16 (n : BitVec 16) : List Byte := [n.extractLsb' 8 8, n.extractLsb' 0 8]
def bytes24 (n : BitVec 24) : List Byte := [n.extractLsb' 16 8, n.extractLsb' 8 8, n.extractLsb' 0 8]
def bytes32 (n : BitVec 32) : List Byte :=
  [n.extractLsb' 24 8, n.extractLsb' 16 8, n.extractLsb' 8 8, n.extractLsb' 0 8]

/-- A byte sequence with its count byte before it. -/
def bytesCounted (b : List Byte) : List Byte := BitVec.ofNat 8 b.length :: b

/-- The bytes of a content operand. -/
def bytesContent (c : Content) : List Byte := c.timestamp ++ [c.type, c.size] ++ c.data

/-- The bytes of a header, in the order of R74. -/
def bytesHeader (h : Header) : List Byte :=
  [h.totalSize, h.target, h.source, byteOfBool h.ackRequested, h.rssi]

/-- The frame of a well-formed instruction (R71, R80, R84, R85). -/
def encode : Instr → CommandFrame
  | .spiWrite a d => ⟨.spi, [addrByte true a, d]⟩
  | .spiRead a => ⟨.spi, [addrByte false a, 0x00]⟩
  | .init => ⟨.host, [0x01]⟩
  | .update => ⟨.host, [0x02]⟩
  | .send target ack cb content => ⟨.host, [0x03, target, byteOfBool ack, cb] ++ bytesContent content⟩
  | .setHandler type handler => ⟨.host, [0x04, type, handler]⟩
  | .event kind => ⟨.host, [0x05, kind]⟩
  | .setMode m => ⟨.op, [0x20, m]⟩
  | .getMode => ⟨.op, [0x21]⟩
  | .waitForModeReady t => ⟨.op, 0x22 :: bytes32 t⟩
  | .isModeReady => ⟨.op, [0x23]⟩
  | .isPayloadReady => ⟨.op, [0x24]⟩
  | .isPacketSent => ⟨.op, [0x25]⟩
  | .isFifoNotEmpty => ⟨.op, [0x26]⟩
  | .isFifoFull => ⟨.op, [0x27]⟩
  | .writeToFifo buf => ⟨.op, 0x28 :: bytesCounted buf⟩
  | .readFromFifo n => ⟨.op, [0x29, n]⟩
  | .getRssi => ⟨.op, [0x2A]⟩
  | .restartRx => ⟨.op, [0x2B]⟩
  | .setHighPowerSettings on => ⟨.op, [0x2C, byteOfBool on]⟩
  | .setCarrierFrequency frf => ⟨.op, 0x30 :: bytes24 frf⟩
  | .setBitRate br => ⟨.op, 0x31 :: bytes16 br⟩
  | .setModulationType m => ⟨.op, [0x32, m]⟩
  | .setPowerLevel p => ⟨.op, [0x33, p]⟩
  | .setSyncWord word => ⟨.op, 0x34 :: bytesCounted word⟩
  | .setNodeAddress a => ⟨.op, [0x35, a]⟩
  | .setBroadcastAddress a => ⟨.op, [0x36, a]⟩
  | .setAddressFiltering f => ⟨.op, [0x37, f]⟩
  | .setPacketFormat f => ⟨.op, [0x38, f]⟩
  | .setCrc on => ⟨.op, [0x39, byteOfBool on]⟩
  | .setCrcAutoClear on => ⟨.op, [0x3A, byteOfBool on]⟩
  | .setFifoThresholdCondition c => ⟨.op, [0x3B, c]⟩
  | .setPreambleLength n => ⟨.op, 0x3C :: bytes16 n⟩
  | .validateContentSize content => ⟨.op, 0x40 :: bytesContent content⟩
  | .computeTotalSize content => ⟨.op, 0x41 :: bytesContent content⟩
  | .encodeFrame header content => ⟨.op, 0x42 :: (bytesHeader header ++ bytesContent content)⟩
  | .decodeFrame bytes => ⟨.op, 0x43 :: bytesCounted bytes⟩
  | .packetToSend => ⟨.op, [0x50]⟩
  | .isReadyToSend => ⟨.op, [0x51]⟩
  | .isActive => ⟨.op, [0x52]⟩
  | .handlePayload => ⟨.op, [0x53]⟩
  | .tickNotInitialized => ⟨.state, [0x00]⟩
  | .tickIdle => ⟨.state, [0x10]⟩
  | .tickListeningInit => ⟨.state, [0x20]⟩
  | .tickListeningWaiting => ⟨.state, [0x21]⟩
  | .tickListeningReceiving => ⟨.state, [0x22]⟩
  | .tickListeningSendAck => ⟨.state, [0x23]⟩
  | .tickListeningDone => ⟨.state, [0x24]⟩
  | .tickSendingInit => ⟨.state, [0x30]⟩
  | .tickSendingWriting => ⟨.state, [0x31]⟩
  | .tickSendingTransmitting => ⟨.state, [0x32]⟩
  | .tickSendingWaitForAck => ⟨.state, [0x33]⟩
  | .tickSendingDone => ⟨.state, [0x34]⟩
  | .tickSleeping => ⟨.state, [0x40]⟩

/-! ## Words of the opcode table -/

/-- The form that a word of the table is read in. The table's codes of the `op` and the `state` form overlap, and a word
does not carry its form: such a word is read as an operation [DESIGN CHOICE: log 9]. -/
def formatOfWord (nbits w : Nat) : Format :=
  if nbits = 16 then .spi
  else
    match decodeHost (BitVec.ofNat 8 w :: List.replicate 11 0) with
    | .ok _ => .host
    | .error _ =>
      match decodeOp (BitVec.ofNat 8 w :: List.replicate 13 0) with
      | .ok _ => .op
      | .error _ => .state

/-- The length of the instruction that begins with these bytes, a byte not given counting as zero (R83, R84, R89; of the
`op` form log 8). -/
def instrLength (f : Format) (b : List Byte) : Nat :=
  match f with
  | .spi => 2
  | .state => 1
  | .host =>
    match (b.getD 0 0).toNat with
    | 0x03 => 12 + (b.getD 11 0).toNat
    | 0x04 => 3
    | 0x05 => 2
    | _ => 1
  | .op =>
    match (b.getD 0 0).toNat with
    | 0x28 | 0x34 | 0x43 => 2 + (b.getD 1 0).toNat
    | 0x20 | 0x29 | 0x2C | 0x32 | 0x33 | 0x35 | 0x36 | 0x37 | 0x38 | 0x39 | 0x3A | 0x3B => 2
    | 0x31 | 0x3C => 3
    | 0x30 => 4
    | 0x22 => 5
    | 0x40 | 0x41 => 9 + (b.getD 8 0).toNat
    | 0x42 => 14 + (b.getD 13 0).toNat
    | _ => 1

/-- The bytes that a word of the table gives, in the order the engine takes them. A 16-bit word is an SPI transaction,
sent most significant bit first (R71); otherwise the first byte is bits 7 to 0. -/
def wordBytes (nbits w : Nat) : List Byte :=
  if nbits = 16 then [BitVec.ofNat 8 (w / 256), BitVec.ofNat 8 w]
  else (List.range (nbits / 8)).map (fun k => BitVec.ofNat 8 (w / 256 ^ k))

/-- The frame of a word of the table: as many bytes as the instruction has, those the table gives no bits being zero. -/
def frameOfWord (nbits w : Nat) : CommandFrame :=
  let f := formatOfWord nbits w
  let b := wordBytes nbits w
  ⟨f, b ++ List.replicate (instrLength f b - b.length) 0⟩

/-- The instruction that the decoder reads from a word of the table. -/
def decodeTableWord (nbits w : Nat) : Option Instr :=
  match decode (frameOfWord nbits w) with
  | .ok i => some i
  | .error _ => none

end Sys2Proof
end

