-- ==== Sys2Proof/Machine/State.lean ====
section
/-!
DEFINITION. The state of the engine as plain data (10_state.md), the reasons a step can stop, and the state after
reset (70_reset_and_hazards.md R245, R246).
-/

namespace Sys2Proof.Machine

/-- The Listening sub-states (R22). -/
inductive ListenSub where
  | init
  | waiting
  | receiving
  | sendAck
  | done
deriving DecidableEq, Repr

/-- The Sending sub-states (R23). -/
inductive SendSub where
  | init
  | writing
  | transmitting
  | waitForAck
  | done
deriving DecidableEq, Repr

/-- The top-level state with its sub-state (R21). Combinations the spec calls illegal do not exist. -/
inductive Top where
  | notInitialized
  | idle
  | listening (ls : ListenSub)
  | sending (ss : SendSub)
  | sleeping
deriving DecidableEq, Repr

/-- The levels of the log output (R32). -/
inductive Level where
  | debug
  | info
  | warning
  | error
  | critical
deriving DecidableEq, Repr

/-- What an operation can return to its caller (R11, and the result of each rule). -/
inductive Value where
  /-- The bool of a predicate, a wait, SetSyncWord, ValidateContentSize, SEND or HandlePayload. -/
  | bool (b : Bool)
  /-- The byte of a register read (R101). -/
  | byte (v : Byte)
  /-- The raw mode code of GetMode (R112). -/
  | modeCode (c : BitVec 3)
  /-- The count of WriteToFIFO (R119). -/
  | count (n : Byte)
  /-- The bytes of ReadFromFIFO (R120). -/
  | bytes (b : List Byte)
  /-- The signal strength of GetRSSI, in dBm (R121). -/
  | dBm (v : Int)
  /-- The total size of ComputeTotalSize (R151). -/
  | totalSize (n : Byte)
  /-- The header bytes and content bytes of EncodeFrame (R152). -/
  | wire (header content : List Byte)
  /-- The header and content of DecodeFrame (R155). -/
  | frame (h : Header) (c : Content)
deriving DecidableEq, Repr

/-- Where a WaitForModeReady was called from, which says what follows it (R34, R113). -/
inductive AfterWait where
  /-- Run on its own: the result is the operation's (R113). -/
  | operation
  /-- The end of Init (R166). -/
  | init
  /-- Tick Listening(Init) (R196). -/
  | listenInit
  /-- The first wait of tick Listening(Waiting), before HandlePayload (R197). -/
  | listenPayload
  /-- The second wait of tick Listening(Waiting), after HandlePayload (R197). -/
  | listenRearm
  /-- EventSleep (R181). -/
  | sleep
  /-- EventWakeup (R182). -/
  | wakeup
deriving DecidableEq, Repr

/-- A WaitForModeReady in progress: its start time, its timeout and its place (R33, R113). -/
structure WaitFrame where
  start : Millis
  timeout : Millis
  after : AfterWait
deriving DecidableEq, Repr

/-- Why a step can stop with a fault. There is no constructor: a fatal assertion of the engine is a state
(`halted`, R223, R224), every other failure is a result or a log event (R17, R221), so no step of this machine ends in a
fault. That is safe: nothing is cut short. -/
inductive Fault
deriving DecidableEq, Repr

/-- Why a step refuses to give a meaning. -/
inductive Refusal where
  /-- Raised by `exec` alone, for an instruction without a meaning. No arm of `exec` raises it. Safe. -/
  | notModelled (mnemonic : String)
  /-- Raised by the fetch, for a frame that is no instruction (R84, U9: "A model refuses a host frame that carries one").
  Safe: no run goes on from it. -/
  | badFrame (e : DecodeError)
  /-- Raised by an upcall during which the host issued INIT, UPDATE or EVENT (R186, U11: "a model refuses such a run").
  Safe: "errs toward unprovable". -/
  | reentrantCommand (i : Instr)
  /-- Raised by the step of an instance whose parameters are outside the ranges of R6 (U14: "refuse (an invalid
  instance)"). Safe. -/
  | invalidInstance
deriving DecidableEq, Repr

/-- The point inside a command at which a step stopped, when the command is not over (R34). -/
inductive Pending where
  /-- A wait that polls again in the next step (R113). -/
  | wait (w : WaitFrame)
  /-- The drain of EventSleep, which tests `IsActive` again in the next step (R181). -/
  | drain
  /-- An upcall issued a command the model refuses (R186): the next step says so. -/
  | refusal (r : Refusal)
  /-- An upcall that never returns holds the engine here (R175). -/
  | held
deriving DecidableEq, Repr

/-- The zeroed frame of R25: every header and content byte 0 and no callback. -/
def zeroFrame : Packet where
  header := ⟨0, 0, 0, false, 0⟩
  content := ⟨List.replicate Config.tsLen 0, 0, 0, List.replicate Config.contentDataMax 0⟩
  callback := none

/-- The state of the machine. The first six fields are the engine's (R20, R32); `cfg` is the instance's parameters (R37);
the rest is the model's own: the place inside a command, what the ports have shown, and what the other agents do. -/
structure State where
  /-- s.top (R21). -/
  top : Top
  /-- s.slot, the packet slot (R25). -/
  slot : Packet
  /-- s.handlers (R30); its length is NUM_TYPES. -/
  handlers : List (Option Byte)
  /-- s.halted (R31). -/
  halted : Bool
  /-- s.fault_code (R31). -/
  faultCode : Byte
  /-- The log output, oldest first (R32). -/
  log : List (Level × Byte)
  /-- The parameters of the instance (R6, R37). -/
  cfg : Params
  /-- The place inside the command in progress (R34); none between commands. -/
  control : Option Pending
  /-- What the last finished operation returned. -/
  result : Option Value
  /-- What happened at the ports, oldest first (R9, R55). -/
  trace : List Event
  /-- The command frames the host has ready (R83, R165). -/
  inbox : List CommandFrame
  /-- The device's next answers (R55); after the last, a free value. -/
  devIn : List Byte
  /-- The clock's next answers (R232); after the last, a free value. -/
  clkIn : List Millis
  /-- The next answers of ThisNodeAddress (R36); after the last, a free value. -/
  nodeIn : List Byte
  /-- The next answers of NetworkId (R36); after the last, a free value. -/
  netIn : List (List Byte)
  /-- The next answers of BroadcastAddress (R36); after the last, a free value. -/
  bcastIn : List Byte
  /-- What the host does at the next upcalls (R175, R186); after the last, a free value. -/
  hostIn : List HostAnswer
  /-- How many free values have been drawn by number (logs 15 and 17). -/
  draws : Nat
deriving DecidableEq, Repr

/-- The machine right after reset (R48, R245, R246). The parameters, the number of packet types and the model's own
fields are DESIGN CHOICES (logs 6, 20 and 21). -/
def State.reset : State where
  top := .notInitialized
  slot := zeroFrame
  handlers := List.replicate Config.numTypesAtReset none
  halted := false
  faultCode := 0
  log := []
  cfg := Config.reference
  control := none
  result := none
  trace := []
  inbox := []
  devIn := []
  clkIn := []
  nodeIn := []
  netIn := []
  bcastIn := []
  hostIn := []
  draws := 0

end Sys2Proof.Machine
end

