-- ==== Sys2Proof/Machine/Flags.lean ====
section
/-!
DEFINITION. The device's status flags as the rules read them out of a status register, and the engine's own predicates
over its state. The engine keeps no copy of a device flag (10_state.md R35). Where a flag lies is a
field of REGMAP, a parameter; the numerals of the rules are its reference values.
-/

namespace Sys2Proof.Machine

/-- Mode-ready: RegIrqFlags1 bit 7 (R40, R114). -/
def modeReadyFlag (r : RegMap) (v : Byte) : Bool := v.getLsbD r.modeReadyBit

/-- Payload-ready: RegIrqFlags2 bit 2 (R41, R115). -/
def payloadReadyFlag (r : RegMap) (v : Byte) : Bool := v.getLsbD r.payloadReadyBit

/-- Packet-sent: RegIrqFlags2 bit 3 (R41, R116). -/
def packetSentFlag (r : RegMap) (v : Byte) : Bool := v.getLsbD r.packetSentBit

/-- FIFO-not-empty: RegIrqFlags2 bit 6 (R41, R117). -/
def fifoNotEmptyFlag (r : RegMap) (v : Byte) : Bool := v.getLsbD r.fifoNotEmptyBit

/-- FIFO-full: RegIrqFlags2 bit 7 (R41, R118). -/
def fifoFullFlag (r : RegMap) (v : Byte) : Bool := v.getLsbD r.fifoFullBit

/-- NUM_TYPES is the length of the handler table (R30). -/
def State.numTypes (s : State) : Nat := s.handlers.length

/-- PacketToSend: the slot's target is non-zero (R29). -/
def State.packetStaged (s : State) : Bool := s.slot.header.target != 0

/-- IsActive: Sending, or Listening(Receiving) (R179). -/
def State.active (s : State) : Bool :=
  match s.top with
  | .sending _ => true
  | .listening .receiving => true
  | .listening _ | .notInitialized | .idle | .sleeping => false

/-- The entry state of HOME: Listening(Init) or Idle (R24, R166, R182). -/
def homeTop (p : Params) : Top :=
  match p.home with
  | .listening => .listening .init
  | .idle => .idle

/-- The parameters are in the ranges R6 gives them: SYNC_LEN in 1..8, T_MR in 1..99, at least four packet types. -/
def State.validInstance (s : State) : Bool :=
  decide (1 ≤ s.cfg.syncLen) && decide (s.cfg.syncLen ≤ 8)
    && decide (1 ≤ s.cfg.timeoutMs.toNat) && decide (s.cfg.timeoutMs.toNat ≤ 99)
    && decide (4 ≤ s.numTypes)

/-- The state word of a top-level state (R80). -/
def Top.word : Top → Byte
  | .notInitialized => 0x00
  | .idle => 0x10
  | .listening .init => 0x20
  | .listening .waiting => 0x21
  | .listening .receiving => 0x22
  | .listening .sendAck => 0x23
  | .listening .done => 0x24
  | .sending .init => 0x30
  | .sending .writing => 0x31
  | .sending .transmitting => 0x32
  | .sending .waitForAck => 0x33
  | .sending .done => 0x34
  | .sleeping => 0x40

/-- The state word the host observes (R231). -/
def State.stateWord (s : State) : Byte := s.top.word

end Sys2Proof.Machine
end

