-- ==== Sys2Proof/Machine/Operands.lean ====
section
/-!
DEFINITION. The operand forms: device modes and the mode field, register fields, host identifiers, the signal strength,
and the frame as bytes (30_encoding.md, 42_adapter.md R122 to R128, 43_framing.md).
-/

namespace Sys2Proof.Machine

/-! ## Device modes -/

/-- The device modes (R15, R111). -/
inductive Mode where
  | sleep
  | standby
  | fs
  | transmitter
  | receiver
deriving DecidableEq, Repr

/-- The mode that SetMode's operand names, in the order R111 lists them [DESIGN CHOICE: log 14]; none for a value that
names no mode, which R111 calls an invalid enum value. -/
def Mode.ofOperand (m : Byte) : Option Mode :=
  match m.toNat with
  | 0 => some .sleep
  | 1 => some .standby
  | 2 => some .fs
  | 3 => some .transmitter
  | 4 => some .receiver
  | _ => none

/-- `MODE_CODE[m]` (R78). -/
def modeCode (c : ModeCodes) : Mode → BitVec 3
  | .sleep => c.sleep
  | .standby => c.standby
  | .fs => c.fs
  | .transmitter => c.transmitter
  | .receiver => c.receiver

/-- The mode field assembled into RegOpMode, the other bits kept (R39, R79). -/
def withModeField (r : RegMap) (opmode : Byte) (code : BitVec 3) : Byte :=
  (opmode &&& ~~~((7 : Byte) <<< r.modeLow.val)) ||| (code.zeroExtend 8 <<< r.modeLow.val)

/-- The mode field of RegOpMode, bits 4:2 (R79, R112). -/
def modeField (r : RegMap) (opmode : Byte) : BitVec 3 := opmode.extractLsb' r.modeLow 3

/-! ## Registers -/

/-- The address byte of a write: the write flag set (R73, R100). -/
def writeByte (a : RegAddr) : Byte := 0x80 ||| a

/-- The address byte of a read: the flag clear (R73, R101). -/
def readByte (a : RegAddr) : Byte := a &&& 0x7F

/-- The steps of a write transaction at the bus (R100, R103, R105). -/
def writeSteps (m : BusMode) (a : RegAddr) (v : Byte) : List BusStep :=
  [.select, .setBusMode m, .shiftOut (writeByte a), .shiftOut v, .deselect]

/-- The steps of a read transaction at the bus, the second byte sent being 0x00 (R71, R101, R103, R105). -/
def readSteps (m : BusMode) (a : RegAddr) (answer : Byte) : List BusStep :=
  [.select, .setBusMode m, .shiftOut (readByte a), .shiftIn 0x00 answer, .deselect]

/-- RegPacketConfig2 with RestartRx set (R43, R136). -/
def withRestartRx (r : RegMap) (old : Byte) : Byte := old ||| ((1 : Byte) <<< r.restartRxBit.val)

/-- A field written into a register, the bits outside the mask kept as read (R122). -/
def mergeField (old mask bits : Byte) : Byte := (old &&& ~~~mask) ||| (bits &&& mask)

/-- An argument is one that a setter accepts: `valid_X` (R122). -/
def argValid (spec : SetterSpec) (arg : Nat) : Bool :=
  spec.valid.any (fun range => decide (range.1 ≤ arg) && decide (arg ≤ range.2))

/-- The byte a setter's field takes from the argument (R122, R123). -/
def fieldByte (f : FieldEnc) (arg : BitVec 32) : Byte :=
  let a : BitVec 32 := if f.negate then (if arg = 0 then 1 else 0) else arg
  ((a >>> f.right) <<< f.left).truncate 8

/-- `enc_X(arg)`, the writes of a setter in order (R122). -/
def encWrites (enc : SetterEnc) (arg : BitVec 32) : List RegWrite :=
  match enc with
  | .fields l => l.map (fun f => ⟨f.reg, f.mask, fieldByte f arg⟩)
  | .table rows => rows.getD arg.toNat []

/-- RegSyncConfig with SyncOn set and SyncSize the length minus one, the other bits kept (R44, R128). -/
def withSyncSize (r : RegMap) (old : Byte) (syncLen : Nat) : Byte :=
  (old &&& ~~~(((1 : Byte) <<< r.syncOnBit.val) ||| ((7 : Byte) <<< r.syncSizeLow.val)))
    ||| ((1 : Byte) <<< r.syncOnBit.val) ||| (BitVec.ofNat 8 (syncLen - 1) <<< r.syncSizeLow.val)

/-- A boolean as a setter's argument. -/
def argOfBool (b : Bool) : BitVec 32 := if b then 1 else 0

/-! ## Host identifiers -/

/-- A host identifier on the port: 0 means absent (R84, R90). -/
def hostId (b : Byte) : Option Byte := if b = 0 then none else some b

/-! ## Signal strength -/

/-- `rssi_of` (R6, R121): the reference conversion `-(v div 2)`, or a table with the reference beyond its end. -/
def rssiDbm (c : RssiConv) (v : Byte) : Int :=
  match c with
  | .halfNegated => -((v.toNat / 2 : Nat) : Int)
  | .table t => t.getD v.toNat (-((v.toNat / 2 : Nat) : Int))

/-- A signal strength as an i8, saturated to -128..127 (R210). -/
def saturateI8 (dBm : Int) : Byte := BitVec.ofInt 8 (max (-128) (min 127 dBm))

/-! ## The frame as bytes -/

/-- ValidateContentSize (R150). -/
def contentSizeOk (c : Content) : Bool := decide (c.size.toNat ≤ Config.contentDataMax)

/-- ComputeTotalSize: HDR_LEN + META_LEN + size (R151). A sum that is no byte is stated nowhere: a free value (log 16). -/
def totalSizeOf (c : Content) : Byte :=
  if Config.hdrLen + Config.metaLen + c.size.toNat < 256 then
    BitVec.ofNat 8 (Config.hdrLen + Config.metaLen + c.size.toNat)
  else Config.totalSizeBeyondByte c.size

/-- Data bytes in an array of CONTENT_DATA_MAX bytes, the rest zero (R27, R171). -/
def padData (data : List Byte) : List Byte :=
  (data ++ List.replicate Config.contentDataMax 0).take Config.contentDataMax

/-- The header bytes of EncodeFrame (R152). -/
def headerBytes (h : Header) : List Byte :=
  [h.totalSize, h.target, h.source, byteOfBool h.ackRequested, h.rssi]

/-- The content bytes of EncodeFrame (R152). -/
def contentBytes (c : Content) : List Byte :=
  c.timestamp.take Config.tsLen ++ [c.type, c.size] ++ c.data.take c.size.toNat

/-- A received byte sequence is well-formed (R154). -/
def frameWellFormed (b : List Byte) : Bool :=
  decide (Config.hdrLen + Config.metaLen ≤ b.length)
    && decide ((b.getD 12 0).toNat ≤ Config.contentDataMax)
    && decide (Config.hdrLen + Config.metaLen + (b.getD 12 0).toNat ≤ b.length)

/-- The byte at an index of a received byte sequence, drawn where the sequence lacks it (R154, U18). -/
def byteOrDrawn (missing : Nat → Byte) (b : List Byte) (i : Nat) : Byte := b.getD i (missing i)

/-- The size byte of a byte sequence that is not well-formed: received where it is there and in range, else drawn
(R154, U18). -/
def sizeOrDrawn (missing : Nat → Byte) (b : List Byte) : Byte :=
  if (b.getD 12 0).toNat ≤ Config.contentDataMax then byteOrDrawn missing b 12 else missing 12

/-- The header of a received byte sequence, with its rssi replaced where a local sample stands (R75, R155, R210). -/
def decodeHeader (stamp : Option Byte) (b : List Byte) : Header where
  totalSize := b.getD 0 0
  target := b.getD 1 0
  source := b.getD 2 0
  ackRequested := boolOfByte (b.getD 3 0)
  rssi := stamp.getD (b.getD 4 0)

/-- The content of a well-formed byte sequence (R75, R155). -/
def decodeContent (b : List Byte) : Content where
  timestamp := (b.drop 5).take Config.tsLen
  type := b.getD 11 0
  size := b.getD 12 0
  data := padData ((b.drop 13).take (b.getD 12 0).toNat)

/-- The header of a byte sequence that is not well-formed: the bytes it lacks are drawn (R154, U18). -/
def looseHeader (stamp : Option Byte) (missing : Nat → Byte) (b : List Byte) : Header where
  totalSize := byteOrDrawn missing b 0
  target := byteOrDrawn missing b 1
  source := byteOrDrawn missing b 2
  ackRequested := boolOfByte (byteOrDrawn missing b 3)
  rssi := stamp.getD (byteOrDrawn missing b 4)

/-- The content of a byte sequence that is not well-formed: every byte it lacks, of the data as well, is drawn, and so is
a size out of range (R154, U18) [DESIGN CHOICE: log 15]. -/
def looseContent (missing : Nat → Byte) (b : List Byte) : Content where
  timestamp := (List.range Config.tsLen).map (fun k => byteOrDrawn missing b (5 + k))
  type := byteOrDrawn missing b 11
  size := sizeOrDrawn missing b
  data := (List.range Config.contentDataMax).map (fun k => byteOrDrawn missing b (13 + k))

/-- DecodeFrame: the fields of a well-formed byte sequence (R155); of any other, each byte as far as it is there, else a
drawn one (R154). -/
def decodeFrameBytes (stamp : Option Byte) (missing : Nat → Byte) (b : List Byte) : Header × Content :=
  if frameWellFormed b then (decodeHeader stamp b, decodeContent b)
  else (looseHeader stamp missing b, looseContent missing b)

end Sys2Proof.Machine
end

