-- ==== Sys2Proof/Machine/Ops.lean ====
section
/-!
DEFINITION. The operations every meaning is made of: the flow of a command, the updates of the state, the log, taking a
fatal assertion, the SPI transactions and the other ports. There is no operation for a return from a fatal
assertion beside it: the spec gives none (60_exceptions.md R229).
-/

namespace Sys2Proof.Machine

/-! ## The flow of a command -/

/-- What an operation inside a command comes to: it is done with a value, or the command stops here in this step (a
fatal assertion, a wait or drain that goes on in the next step, or an upcall that does not return). -/
inductive Flow (α : Type) where
  | done (a : α) (s : State)
  | stop (s : State)
deriving Repr

/-- One operation after another, in textual order (R12); nothing follows a stop (R223). -/
def Flow.bind {α β : Type} (f : Flow α) (k : α → State → Flow β) : Flow β :=
  match f with
  | .done a s => k a s
  | .stop s => .stop s

/-- The state a flow has come to. -/
def Flow.state {α : Type} : Flow α → State
  | .done _ s => s
  | .stop s => s

/-- A command or operation of the engine, with what it returns to its caller. -/
abbrev Cmd := State → Flow (Option Value)

/-! ## Updates of the state -/

/-- An event is appended to the port trace. -/
def State.emit (s : State) (e : Event) : State := { s with trace := s.trace ++ [e] }

/-- `log(level, code)` (R11, R228). -/
def State.logAt (s : State) (l : Level) (code : Byte) : State := { s with log := s.log ++ [(l, code)] }

/-- The frames still waiting once one is taken. -/
def State.withInbox (s : State) (rest : List CommandFrame) : State := { s with inbox := rest }

/-- `s.top <- t`. -/
def State.withTop (s : State) (t : Top) : State := { s with top := t }

/-- `s.slot <- p`. -/
def State.withSlot (s : State) (p : Packet) : State := { s with slot := p }

/-- `s.handlers[type] <- h`. -/
def State.withHandler (s : State) (type : Nat) (h : Option Byte) : State :=
  { s with handlers := s.handlers.set type h }

/-- The place at which a command goes on in the next step. -/
def State.suspend (s : State) (p : Pending) : State := { s with control := some p }

/-- No command in progress any more. -/
def State.resumed (s : State) : State := { s with control := none }

/-- A command or operation starts: nothing in progress and no result yet. -/
def State.started (s : State) : State := { s with control := none, result := none }

/-- An operation ends and returns. -/
def State.returned (s : State) (v : Option Value) : State := { s with result := v }

/-- One more free value has been drawn by number. -/
def State.drawn (s : State) : State := { s with draws := s.draws + 1 }

/-- The engine halts with a fault code (R223). -/
def State.halt (s : State) (code : Byte) : State :=
  { s with halted := true, faultCode := code, control := none, log := s.log ++ [(.critical, code)] }

/-! ## Log -/

/-- The named log events of R228. -/
inductive Diag where
  | notInitialized
  | modeReadyTimeout
  | fifoFull
  | fifoEmpty
  | rxLengthOversize
  | contentTooLarge
  | syncInvalid
  | noHandler
  | rxMalformed
  | typeRange
  | rxEmpty
  | notReady
deriving DecidableEq, Repr

/-- The code of a log event (R228). -/
def Diag.code : Diag → Byte
  | .notInitialized => 0x10
  | .modeReadyTimeout => 0x11
  | .fifoFull => 0x12
  | .fifoEmpty => 0x13
  | .rxLengthOversize => 0x14
  | .contentTooLarge => 0x15
  | .syncInvalid => 0x16
  | .noHandler => 0x17
  | .rxMalformed => 0x18
  | .typeRange => 0x19
  | .rxEmpty => 0x1A
  | .notReady => 0x1B

/-- The level of a log event (R228). -/
def Diag.level : Diag → Level
  | .notInitialized | .modeReadyTimeout | .noHandler | .rxMalformed => .warning
  | .fifoFull | .fifoEmpty | .rxLengthOversize | .contentTooLarge | .syncInvalid | .rxEmpty => .error
  | .typeRange | .notReady => .debug

/-- A named log event. -/
def State.logDiag (s : State) (d : Diag) : State := s.logAt d.level d.code

/-! ## Fatal assertions -/

/-- The fatal assertions of R222. -/
inductive FatalCode where
  | regRange
  | mode
  | typeRange
  | null
  | configRange
  | state
deriving DecidableEq, Repr

/-- The code of a fatal assertion (R222). -/
def FatalCode.code : FatalCode → Byte
  | .regRange => 0x01
  | .mode => 0x02
  | .typeRange => 0x03
  | .null => 0x04
  | .configRange => 0x05
  | .state => 0x06

/-- `raise Fatal(code)` (R223): the code is written, the engine halts, the assertion is logged, and nothing after this
point of any enclosing rule is performed. What was done before stays. -/
def raiseFatal {α : Type} (c : FatalCode) (s : State) : Flow α := .stop (s.halt c.code)

/-! ## The SPI port -/

/-- check_reg (R102): an address beyond REG_ADDR_MAX is a programmer error, found before any bus activity. -/
def checkReg (a : RegAddr) (s : State) : Flow Unit :=
  if s.cfg.regAddrMax.toNat < a.toNat then raiseFatal .regRange s else .done () s

/-- The device's answer to a read of an address now (R55): the next given one, or a free value. -/
def State.deviceAnswer (s : State) (a : RegAddr) : Byte := s.devIn.headD (Config.deviceByte s.trace a)

/-- The state after a read transaction. -/
def State.afterRead (s : State) (a : RegAddr) : State :=
  { s with devIn := s.devIn.tail, trace := s.trace ++ [.spi (readSteps s.cfg.busMode a (s.deviceAnswer a))] }

/-- The state after a write transaction. -/
def State.afterWrite (s : State) (a : RegAddr) (v : Byte) : State :=
  { s with trace := s.trace ++ [.spi (writeSteps s.cfg.busMode a v)] }

/-- `SpiRead(a)`: one read transaction (R101, R103, R104). -/
def spiRead (a : RegAddr) (s : State) : Flow Byte :=
  (checkReg a s).bind fun _ s => .done (s.deviceAnswer a) (s.afterRead a)

/-- `SpiWrite(a, v)`: one write transaction (R100, R103, R104). -/
def spiWrite (a : RegAddr) (v : Byte) (s : State) : Flow Unit :=
  (checkReg a s).bind fun _ s => .done () (s.afterWrite a v)

/-- Whole-register writes in order. -/
def spiWriteAll : List (RegAddr × Byte) → State → Flow Unit
  | [], s => .done () s
  | (a, v) :: rest, s => (spiWrite a v s).bind fun _ s => spiWriteAll rest s

/-! ## The clock and the collaborator -/

/-- The clock's answer now (R232): the next given one, or a free value. -/
def State.clockNow (s : State) : Millis := s.clkIn.headD (Config.clockAnswer s.trace)

/-- The state after a clock read. -/
def State.afterClock (s : State) : State :=
  { s with clkIn := s.clkIn.tail, trace := s.trace ++ [.clock s.clockNow] }

/-- `Now()`: one clock read (R232). -/
def now (s : State) : Flow Millis := .done s.clockNow s.afterClock

/-- The collaborator's answer to ThisNodeAddress now (R36). -/
def State.nodeAnswer (s : State) : Byte := s.nodeIn.headD (Config.nodeAddress s.trace)

/-- The state after a read of this node's address. -/
def State.afterNode (s : State) : State :=
  { s with nodeIn := s.nodeIn.tail, trace := s.trace ++ [.nodeAddress s.nodeAnswer] }

/-- `ThisNodeAddress()` (R36). -/
def thisNodeAddress (s : State) : Flow Byte := .done s.nodeAnswer s.afterNode

/-- The collaborator's answer to NetworkId now (R36). -/
def State.networkAnswer (s : State) : List Byte := s.netIn.headD (Config.networkId s.trace)

/-- The state after a read of the network id. -/
def State.afterNetwork (s : State) : State :=
  { s with netIn := s.netIn.tail, trace := s.trace ++ [.networkId s.networkAnswer] }

/-- `NetworkId()` (R36). -/
def networkId (s : State) : Flow (List Byte) := .done s.networkAnswer s.afterNetwork

/-- The collaborator's answer to BroadcastAddress now (R36). -/
def State.broadcastAnswer (s : State) : Byte := s.bcastIn.headD (Config.broadcastAddress s.trace)

/-- The state after a read of the broadcast address. -/
def State.afterBroadcast (s : State) : State :=
  { s with bcastIn := s.bcastIn.tail, trace := s.trace ++ [.broadcastAddress s.broadcastAnswer] }

/-- `BroadcastAddress()` (R36). -/
def broadcastAddress (s : State) : Flow Byte := .done s.broadcastAnswer s.afterBroadcast

/-- What the host does at an upcall now (R175, U33): the next given answer, or a free value. -/
def State.hostAnswerNow (s : State) : HostAnswer := s.hostIn.headD (Config.hostAnswer s.trace)

/-- The host's answer is taken. -/
def State.afterHost (s : State) : State := { s with hostIn := s.hostIn.tail }

/-! ## Running a command -/

/-- The state at the end of a step: a finished command leaves its result; a stopped one leaves the state as it is. -/
def Flow.finish : Flow (Option Value) → State
  | .done v s => s.returned v
  | .stop s => s

/-- A command or operation of its own: while the engine is halted it is not performed (R110, R165, R224). -/
def command (body : Cmd) (s : State) : Host.Outcome State Fault Refusal :=
  .next (if s.halted then s else (body s.started).finish)

end Sys2Proof.Machine
end

