-- ==== Sys2Proof/Machine/Framing.lean ====
section
/-!
DEFINITION. The framing operations run on their own (43_framing.md): pure, without a transaction.
-/

namespace Sys2Proof.Machine

/-- DecodeFrame run on its own (R155). A byte the sequence lacks is drawn, as R154 says for a frame that is not
well-formed; under RSSI_STAMP the local sample, which no transaction of this operation gives, is a free value
(logs 15 and 17). -/
def decodeFrameAlone (b : List Byte) (s : State) : Flow (Header × Content) :=
  let stamp := if s.cfg.rssiStamp then some (Config.localRssi s.draws) else none
  .done (decodeFrameBytes stamp (Config.missingByte s.draws) b) s.drawn

def execValidateContentSize (content : Content) (s : State) : Host.Outcome State Fault Refusal :=
  command (fun s => .done (some (.bool (contentSizeOk content))) s) s

def execComputeTotalSize (content : Content) (s : State) : Host.Outcome State Fault Refusal :=
  command (fun s => .done (some (.totalSize (totalSizeOf content))) s) s

def execEncodeFrame (header : Header) (content : Content) (s : State) : Host.Outcome State Fault Refusal :=
  command (fun s => .done (some (.wire (headerBytes header) (contentBytes content))) s) s

def execDecodeFrame (bytes : List Byte) (s : State) : Host.Outcome State Fault Refusal :=
  command (fun s => (decodeFrameAlone bytes s).bind fun f s => .done (some (.frame f.1 f.2)) s) s

end Sys2Proof.Machine
end

