-- ==== Sys2Proof/Machine/Adapter.lean ====
section
/-!
DEFINITION. The transceiver hardware adapter (42_adapter.md), but for WaitForModeReady, which is in Wait.lean.
-/

namespace Sys2Proof.Machine

/-! ## Operating mode -/

/-- SetMode(m) for a named mode: a read-modify-write of the mode field (R111). -/
def setMode (m : Mode) (s : State) : Flow Unit :=
  (spiRead s.cfg.regs.opMode s).bind fun v s =>
  spiWrite s.cfg.regs.opMode (withModeField s.cfg.regs v (modeCode s.cfg.modeCodes m)) s

/-- SetMode for an operand: a value that names no mode is a programmer error, found before any transaction (R111). -/
def setModeOperand (m : Byte) (s : State) : Flow Unit :=
  match Mode.ofOperand m with
  | some mode => setMode mode s
  | none => raiseFatal .mode s

/-- GetMode(): the raw mode field (R112). -/
def getMode (s : State) : Flow (BitVec 3) :=
  (spiRead s.cfg.regs.opMode s).bind fun v s => .done (modeField s.cfg.regs v) s

/-! ## Status predicates: one register read each (R114 to R118) -/

/-- IsModeReady() (R114). -/
def isModeReady (s : State) : Flow Bool :=
  (spiRead s.cfg.regs.irqFlags1 s).bind fun v s => .done (modeReadyFlag s.cfg.regs v) s

/-- IsPayloadReady() (R115). -/
def isPayloadReady (s : State) : Flow Bool :=
  (spiRead s.cfg.regs.irqFlags2 s).bind fun v s => .done (payloadReadyFlag s.cfg.regs v) s

/-- IsPacketSent() (R116). -/
def isPacketSent (s : State) : Flow Bool :=
  (spiRead s.cfg.regs.irqFlags2 s).bind fun v s => .done (packetSentFlag s.cfg.regs v) s

/-- IsFIFONotEmpty() (R117). -/
def isFifoNotEmpty (s : State) : Flow Bool :=
  (spiRead s.cfg.regs.irqFlags2 s).bind fun v s => .done (fifoNotEmptyFlag s.cfg.regs v) s

/-- IsFIFOFull() (R118). -/
def isFifoFull (s : State) : Flow Bool :=
  (spiRead s.cfg.regs.irqFlags2 s).bind fun v s => .done (fifoFullFlag s.cfg.regs v) s

/-! ## FIFO transfer -/

/-- WriteToFIFO(buf): the full flag is tested before every byte; a full FIFO ends the write and is logged (R119). -/
def writeToFifo : List Byte → State → Flow Nat
  | [], s => .done 0 s
  | b :: rest, s =>
    (isFifoFull s).bind fun full s =>
    if full then .done 0 (s.logDiag .fifoFull)
    else
      (spiWrite s.cfg.regs.fifo b s).bind fun _ s =>
      (writeToFifo rest s).bind fun n s => .done (n + 1) s

/-- ReadFromFIFO(max): the count is tested before the not-empty flag; an empty FIFO ends the read and is logged (R120). -/
def readFromFifo : Nat → State → Flow (List Byte)
  | 0, s => .done [] s
  | max + 1, s =>
    (isFifoNotEmpty s).bind fun notEmpty s =>
    if notEmpty then
      (spiRead s.cfg.regs.fifo s).bind fun b s =>
      (readFromFifo max s).bind fun rest s => .done (b :: rest) s
    else .done [] (s.logDiag .fifoEmpty)

/-! ## Signal strength, receiver restart, high power -/

/-- GetRSSI(): one read, converted to dBm (R121). -/
def getRssi (s : State) : Flow Int :=
  (spiRead s.cfg.regs.rssiValue s).bind fun v s => .done (rssiDbm s.cfg.rssiConv v) s

/-- RestartRx(): sets RestartRx of RegPacketConfig2 (R136). -/
def restartRx (s : State) : Flow Unit :=
  (spiRead s.cfg.regs.packetConfig2 s).bind fun v s =>
  spiWrite s.cfg.regs.packetConfig2 (withRestartRx s.cfg.regs v) s

/-- SetHighPowerSettings(on): plain writes in order (R137). -/
def setHighPowerSettings (on : Bool) (s : State) : Flow Unit :=
  spiWriteAll (if on then s.cfg.hpOn else s.cfg.hpOff) s

/-! ## Configuration setters -/

/-- The writes of a setter in order: a whole register where the mask is 0xFF, else a field (R122). -/
def applyWrites : List RegWrite → State → Flow Unit
  | [], s => .done () s
  | w :: rest, s =>
    (if w.mask = 0xFF then spiWrite w.reg w.byte s
     else (spiRead w.reg s).bind fun v s => spiWrite w.reg (mergeField v w.mask w.byte) s).bind
    fun _ s => applyWrites rest s

/-- A configuration setter: an argument out of range is a programmer error, found before any transaction (R122). -/
def configure (spec : SetterSpec) (arg : BitVec 32) (s : State) : Flow Unit :=
  if argValid spec arg.toNat then applyWrites (encWrites spec.enc arg) s else raiseFatal .configRange s

/-- SetCarrierFrequency(frf) (R124). -/
def setCarrierFrequency (frf : BitVec 24) (s : State) : Flow Unit :=
  configure s.cfg.setters.carrierFrequency (frf.zeroExtend 32) s

/-- SetBitRate(br) (R125). -/
def setBitRate (br : BitVec 16) (s : State) : Flow Unit :=
  configure s.cfg.setters.bitRate (br.zeroExtend 32) s

/-- SetModulationType(m) (R126). -/
def setModulationType (m : Byte) (s : State) : Flow Unit :=
  configure s.cfg.setters.modulationType (m.zeroExtend 32) s

/-- SetPowerLevel(p) (R127). -/
def setPowerLevel (p : Byte) (s : State) : Flow Unit :=
  configure s.cfg.setters.powerLevel (p.zeroExtend 32) s

/-- SetNodeAddress(a) (R129). -/
def setNodeAddress (a : Byte) (s : State) : Flow Unit :=
  configure s.cfg.setters.nodeAddress (a.zeroExtend 32) s

/-- SetBroadcastAddress(a) (R130). -/
def setBroadcastAddress (a : Byte) (s : State) : Flow Unit :=
  configure s.cfg.setters.broadcastAddress (a.zeroExtend 32) s

/-- SetAddressFiltering(f) (R131). -/
def setAddressFiltering (f : Byte) (s : State) : Flow Unit :=
  configure s.cfg.setters.addressFiltering (f.zeroExtend 32) s

/-- SetPacketFormat(f) (R132). -/
def setPacketFormat (f : Byte) (s : State) : Flow Unit :=
  configure s.cfg.setters.packetFormat (f.zeroExtend 32) s

/-- SetCRC(on) (R133). -/
def setCrc (on : Bool) (s : State) : Flow Unit := configure s.cfg.setters.crc (argOfBool on) s

/-- SetCRCAutoClear(on) (R134). -/
def setCrcAutoClear (on : Bool) (s : State) : Flow Unit := configure s.cfg.setters.crcAutoClear (argOfBool on) s

/-- SetFIFOThresholdCondition(c) (R135). -/
def setFifoThresholdCondition (c : Byte) (s : State) : Flow Unit :=
  configure s.cfg.setters.fifoThresholdCondition (c.zeroExtend 32) s

/-- SetPreambleLength(n) (R138). -/
def setPreambleLength (n : BitVec 16) (s : State) : Flow Unit :=
  configure s.cfg.setters.preambleLength (n.zeroExtend 32) s

/-- The address of RegSyncValue1 + i. A sum beyond a byte is beyond every register (R44, R102). -/
def syncValueReg (s : State) (i : Nat) : RegAddr :=
  if s.cfg.regs.syncValue1.toNat + i < 256 then BitVec.ofNat 8 (s.cfg.regs.syncValue1.toNat + i) else 0xFF

/-- The sync bytes into RegSyncValue1 + i and on (R128). -/
def writeSyncBytes : Nat → List Byte → State → Flow Unit
  | _, [], s => .done () s
  | i, b :: rest, s => (spiWrite (syncValueReg s i) b s).bind fun _ s => writeSyncBytes (i + 1) rest s

/-- The sync word is one SetSyncWord accepts: of the configured length and without a zero byte (R128). -/
def syncWordOk (s : State) (word : List Byte) : Bool :=
  decide (word.length = s.cfg.syncLen) && word.all (fun b => b != 0)

/-- SetSyncWord(word): an invalid word is rejected before any transaction (R128). -/
def setSyncWord (word : List Byte) (s : State) : Flow Bool :=
  if syncWordOk s word then
    (spiRead s.cfg.regs.syncConfig s).bind fun v s =>
    (spiWrite s.cfg.regs.syncConfig (withSyncSize s.cfg.regs v s.cfg.syncLen) s).bind fun _ s =>
    (writeSyncBytes 0 word s).bind fun _ s => .done true s
  else .done false (s.logDiag .syncInvalid)

/-! ## The meanings -/

/-- An operation that returns nothing. -/
def Flow.noResult (f : Flow Unit) : Flow (Option Value) := f.bind fun _ s => .done none s

/-- An operation that returns a bool. -/
def Flow.boolResult (f : Flow Bool) : Flow (Option Value) := f.bind fun b s => .done (some (.bool b)) s

def execSetMode (m : Byte) (s : State) : Host.Outcome State Fault Refusal :=
  command (fun s => (setModeOperand m s).noResult) s

def execGetMode (s : State) : Host.Outcome State Fault Refusal :=
  command (fun s => (getMode s).bind fun c s => .done (some (.modeCode c)) s) s

def execIsModeReady (s : State) : Host.Outcome State Fault Refusal :=
  command (fun s => (isModeReady s).boolResult) s

def execIsPayloadReady (s : State) : Host.Outcome State Fault Refusal :=
  command (fun s => (isPayloadReady s).boolResult) s

def execIsPacketSent (s : State) : Host.Outcome State Fault Refusal :=
  command (fun s => (isPacketSent s).boolResult) s

def execIsFifoNotEmpty (s : State) : Host.Outcome State Fault Refusal :=
  command (fun s => (isFifoNotEmpty s).boolResult) s

def execIsFifoFull (s : State) : Host.Outcome State Fault Refusal :=
  command (fun s => (isFifoFull s).boolResult) s

def execWriteToFifo (buf : List Byte) (s : State) : Host.Outcome State Fault Refusal :=
  command (fun s => (writeToFifo buf s).bind fun n s => .done (some (.count (BitVec.ofNat 8 n))) s) s

def execReadFromFifo (maxLength : Byte) (s : State) : Host.Outcome State Fault Refusal :=
  command (fun s => (readFromFifo maxLength.toNat s).bind fun b s => .done (some (.bytes b)) s) s

def execGetRssi (s : State) : Host.Outcome State Fault Refusal :=
  command (fun s => (getRssi s).bind fun v s => .done (some (.dBm v)) s) s

def execRestartRx (s : State) : Host.Outcome State Fault Refusal :=
  command (fun s => (restartRx s).noResult) s

def execSetHighPowerSettings (on : Bool) (s : State) : Host.Outcome State Fault Refusal :=
  command (fun s => (setHighPowerSettings on s).noResult) s

def execSetCarrierFrequency (frf : BitVec 24) (s : State) : Host.Outcome State Fault Refusal :=
  command (fun s => (setCarrierFrequency frf s).noResult) s

def execSetBitRate (br : BitVec 16) (s : State) : Host.Outcome State Fault Refusal :=
  command (fun s => (setBitRate br s).noResult) s

def execSetModulationType (m : Byte) (s : State) : Host.Outcome State Fault Refusal :=
  command (fun s => (setModulationType m s).noResult) s

def execSetPowerLevel (p : Byte) (s : State) : Host.Outcome State Fault Refusal :=
  command (fun s => (setPowerLevel p s).noResult) s

def execSetSyncWord (word : List Byte) (s : State) : Host.Outcome State Fault Refusal :=
  command (fun s => (setSyncWord word s).boolResult) s

def execSetNodeAddress (a : Byte) (s : State) : Host.Outcome State Fault Refusal :=
  command (fun s => (setNodeAddress a s).noResult) s

def execSetBroadcastAddress (a : Byte) (s : State) : Host.Outcome State Fault Refusal :=
  command (fun s => (setBroadcastAddress a s).noResult) s

def execSetAddressFiltering (f : Byte) (s : State) : Host.Outcome State Fault Refusal :=
  command (fun s => (setAddressFiltering f s).noResult) s

def execSetPacketFormat (f : Byte) (s : State) : Host.Outcome State Fault Refusal :=
  command (fun s => (setPacketFormat f s).noResult) s

def execSetCrc (on : Bool) (s : State) : Host.Outcome State Fault Refusal :=
  command (fun s => (setCrc on s).noResult) s

def execSetCrcAutoClear (on : Bool) (s : State) : Host.Outcome State Fault Refusal :=
  command (fun s => (setCrcAutoClear on s).noResult) s

def execSetFifoThresholdCondition (c : Byte) (s : State) : Host.Outcome State Fault Refusal :=
  command (fun s => (setFifoThresholdCondition c s).noResult) s

def execSetPreambleLength (n : BitVec 16) (s : State) : Host.Outcome State Fault Refusal :=
  command (fun s => (setPreambleLength n s).noResult) s

end Sys2Proof.Machine
end

