-- ==== Sys2Proof/Machine/Send.lean ====
section
/-!
DEFINITION. Staging a packet and registering a handler: SendPacket, SetPacketHandler and the predicates they use
(44_commands.md). Nested commands of an upcall run the same two operations (R186).
-/

namespace Sys2Proof.Machine

/-- IsReadyToSend(): Idle, under STAGE_POLICY = Reject nothing staged, and one RSSI sample strictly below the
threshold, in this order (R168, R169, R170). -/
def isReadyToSend (s : State) : Flow Bool :=
  if s.top ≠ .idle then .done false s
  else if s.cfg.stagePolicy = .reject ∧ s.packetStaged = true then .done false s
  else (getRssi s).bind fun dBm s => .done (decide (dBm < s.cfg.rssiThreshold)) s

/-- The slot that Stage writes, given this node's address (R171). -/
def stagedPacket (target : Byte) (requestAck : Bool) (content : Content) (callback : Option Byte) (source : Byte) :
    Packet where
  header := ⟨totalSizeOf content, target, source, requestAck, 0⟩
  content := { content with data := padData (content.data.take content.size.toNat) }
  callback := callback

/-- Stage (R171). -/
def stage (target : Byte) (requestAck : Bool) (content : Content) (callback : Option Byte) (s : State) : Flow Unit :=
  (thisNodeAddress s).bind fun source s =>
  .done () (s.withSlot (stagedPacket target requestAck content callback source))

/-- SendPacket (R172): the size is checked before readiness, and a false result leaves the slot as it is. -/
def sendPacket (target : Byte) (requestAck : Bool) (content : Content) (callback : Option Byte) (s : State) :
    Flow Bool :=
  if contentSizeOk content then
    (isReadyToSend s).bind fun ready s =>
    if ready then (stage target requestAck content callback s).bind fun _ s => .done true s
    else .done false (s.logDiag .notReady)
  else .done false (s.logDiag .contentTooLarge)

/-- SEND on the host port: SendPacket with the frame's operands, then the result byte (R83, R84, R172). -/
def sendCommand (target : Byte) (requestAck : Bool) (callback : Byte) (content : Content) (s : State) : Flow Bool :=
  (sendPacket target requestAck content (hostId callback) s).bind fun ok s =>
  .done ok (s.emit (.sendResult (byteOfBool ok)))

/-- SetPacketHandler (R176): the type is checked before the handler, and the last registration wins (R30). -/
def setPacketHandler (handler : Option Byte) (type : Byte) (s : State) : Flow Unit :=
  if s.numTypes ≤ type.toNat then raiseFatal .typeRange s
  else
    match handler with
    | none => raiseFatal .null s
    | some h => .done () (s.withHandler type.toNat (some h))

/-! ## The meanings -/

def execSend (target : Byte) (requestAck : Bool) (callback : Byte) (content : Content) (s : State) :
    Host.Outcome State Fault Refusal :=
  command (fun s => (sendCommand target requestAck callback content s).boolResult) s

def execSetHandler (type handler : Byte) (s : State) : Host.Outcome State Fault Refusal :=
  command (fun s => (setPacketHandler (hostId handler) type s).noResult) s

def execPacketToSend (s : State) : Host.Outcome State Fault Refusal :=
  command (fun s => .done (some (.bool s.packetStaged)) s) s

def execIsReadyToSend (s : State) : Host.Outcome State Fault Refusal :=
  command (fun s => (isReadyToSend s).boolResult) s

def execIsActive (s : State) : Host.Outcome State Fault Refusal :=
  command (fun s => .done (some (.bool s.active)) s) s

end Sys2Proof.Machine
end

