-- ==== Sys2Proof/Machine/Receive.lean ====
section
/-!
DEFINITION. Upcalls to the host and HandlePayload (44_commands.md R175, R185, R186; 45_tick.md R208 to R212).
-/

namespace Sys2Proof.Machine

/-! ## Upcalls -/

/-- One command frame that the host issues during an upcall (R186): SEND and SET_HANDLER run as nested commands; any
other command, and a frame that is no command, is refused, which the next step says. -/
def nestedCommand (bytes : List Byte) (s : State) : Flow Unit :=
  match decode ⟨.host, bytes⟩ with
  | .ok (.send target requestAck callback content) =>
    (sendCommand target requestAck callback content s).bind fun _ s => .done () s
  | .ok (.setHandler type handler) => setPacketHandler (hostId handler) type s
  | .ok i => .stop (s.suspend (.refusal (.reentrantCommand i)))
  | .error e => .stop (s.suspend (.refusal (.badFrame e)))

/-- The nested commands of an upcall, each run to completion before the next (R186). -/
def nestedCommands : List (List Byte) → State → Flow Unit
  | [], s => .done () s
  | bytes :: rest, s => (nestedCommand bytes s).bind fun _ s => nestedCommands rest s

/-- The host's part of an upcall (R175, R186): its nested commands, then the bool it returns. An upcall that never
returns holds the engine inside the command. -/
def hostRuns (s : State) : Flow Bool :=
  let answer := s.hostAnswerNow
  (nestedCommands answer.nested s.afterHost).bind fun _ s =>
  match answer.result with
  | some r => .done r s
  | none => .stop (s.suspend .held)

/-- `Upcall(h, (header, content))`: the handler's answer (R175, R211). -/
def callHandler (h : Byte) (frame : Header × Content) (s : State) : Flow Bool :=
  (hostRuns (s.emit (.handlerCall h frame.1 frame.2))).bind fun r s => .done r (s.emit (.handlerReturn r))

/-- `Upcall(cb, true)`: nothing the engine reads (R175, R204). -/
def callCallback (cb : Byte) (s : State) : Flow Unit :=
  (hostRuns (s.emit (.callback cb true))).bind fun _ s => .done () s

/-! ## HandlePayload -/

/-- The dispatch of a decoded frame by its type (R211): out of range, without a handler, or one upcall. -/
def dispatchFrame (frame : Header × Content) (s : State) : Flow Bool :=
  if s.numTypes ≤ frame.2.type.toNat then .done false (s.logDiag .typeRange)
  else
    match (s.handlers.getD frame.2.type.toNat none) with
    | none => .done false (s.logDiag .noHandler)
    | some h => callHandler h frame s

/-- The local RSSI sample under RSSI_STAMP, as an i8 (R210). -/
def rssiSample (s : State) : Flow (Option Byte) :=
  if s.cfg.rssiStamp then (getRssi s).bind fun dBm s => .done (some (saturateI8 dBm)) s
  else .done none s

/-- The receive buffer after the FIFO reads: the sample, the length checks, the decoding and the dispatch (R208). A
byte the frame lacks is drawn, which under RX_STRICT no dispatched frame does (R154). -/
def handleFrame (b : List Byte) (s : State) : Flow Bool :=
  (rssiSample s).bind fun stamp s =>
  if s.cfg.rxStrict && !frameWellFormed b then .done false (s.logDiag .rxMalformed)
  else dispatchFrame (decodeFrameBytes stamp (Config.missingByte s.draws) b) s.drawn

/-- HandlePayload (R208, R209): the length byte, then that many bytes, then the frame. -/
def handlePayload (s : State) : Flow Bool :=
  (readFromFifo 1 s).bind fun l s =>
  match l with
  | [] => .done false (s.logDiag .rxEmpty)
  | n :: _ =>
    if s.cfg.fifoSize < n.toNat + 1 then .done false (s.logDiag .rxLengthOversize)
    else (readFromFifo n.toNat s).bind fun rest s => handleFrame (n :: rest) s

/-! ## The meaning -/

def execHandlePayload (s : State) : Host.Outcome State Fault Refusal :=
  command (fun s => (handlePayload s).boolResult) s

end Sys2Proof.Machine
end

