-- ==== Sys2Proof/Machine/Wait.lean ====
section
/-!
DEFINITION. WaitForModeReady, which may take any number of polls, and what follows it at each place it is called from.
A step performs one poll; the wait goes on in the next step (42_adapter.md R113; log 1).
-/

namespace Sys2Proof.Machine

/-- One poll of a wait (R113): the flag is read first; then, if it is clear, the clock, and the wait ends with false when
the timeout has elapsed. `k` is what follows the wait. -/
def pollWait (w : WaitFrame) (k : Bool → Cmd) (s : State) : Flow (Option Value) :=
  (isModeReady s).bind fun ready s =>
  if ready then k true s
  else
    (now s).bind fun t s =>
    if w.timeout.toNat ≤ (elapsed w.start t).toNat then k false (s.logDiag .modeReadyTimeout)
    else .stop (s.suspend (.wait w))

/-- WaitForModeReady(timeout) at a place of the rules: the start time is read, then the flag is polled (R113). -/
def waitForModeReady (timeout : Millis) (place : AfterWait) (k : Bool → Cmd) (s : State) : Flow (Option Value) :=
  (now s).bind fun t0 s => pollWait ⟨t0, timeout, place⟩ k s

/-- What a tick action does after `Wait()` (R190, R191): goes on, or on a failed wait does what WAIT_FAIL says. -/
def afterTickWait (ready : Bool) (rest : Cmd) (s : State) : Flow (Option Value) :=
  if ready then rest s
  else
    match s.cfg.waitFail with
    | .proceed => rest s
    | .stall => .done none s
    | .abortToIdle => .done none (s.withTop .idle)

/-- After the second wait of tick Listening(Waiting): nothing more (R197). -/
def afterListenRearm (ready : Bool) (s : State) : Flow (Option Value) :=
  afterTickWait ready (fun s => .done none s) s

/-- After the first wait of tick Listening(Waiting): HandlePayload, its result discarded (R212), then back to Receiver
and the second wait (R197). -/
def afterListenPayload (ready : Bool) (s : State) : Flow (Option Value) :=
  afterTickWait ready
    (fun s =>
      (handlePayload s).bind fun _ s =>
      (setMode .receiver s).bind fun _ s =>
      waitForModeReady s.cfg.timeoutMs .listenRearm afterListenRearm s)
    s

/-- What follows a wait, by the place it was called from. Init, EventSleep and EventWakeup proceed whatever the wait
says (R187). -/
def afterWait : AfterWait → Bool → Cmd
  | .operation, ready, s => .done (some (.bool ready)) s
  | .init, _, s => .done none s
  | .listenInit, ready, s => afterTickWait ready (fun s => .done none (s.withTop (.listening .waiting))) s
  | .listenPayload, ready, s => afterListenPayload ready s
  | .listenRearm, ready, s => afterListenRearm ready s
  | .sleep, _, s => .done none (s.withTop .sleeping)
  | .wakeup, _, s => .done none (if s.top = .sleeping then s.withTop (homeTop s.cfg) else s)

/-! ## The meaning -/

def execWaitForModeReady (timeoutMs : Millis) (s : State) : Host.Outcome State Fault Refusal :=
  command (waitForModeReady timeoutMs .operation (afterWait .operation)) s

end Sys2Proof.Machine
end

