-- ==== Sys2Proof/Machine/Init.lean ====
section
/-!
DEFINITION. Init (44_commands.md R166).
-/

namespace Sys2Proof.Machine

/-- The configuration sequence of Init, setter by setter in the order R166 lists. SetSyncWord's result is ignored. -/
def configureAll (s : State) : Flow Unit :=
  (setCarrierFrequency s.cfg.cfgFreq s).bind fun _ s =>
  (setBitRate s.cfg.cfgBitRate s).bind fun _ s =>
  (setModulationType s.cfg.cfgModulation s).bind fun _ s =>
  (setPowerLevel s.cfg.cfgPower s).bind fun _ s =>
  (networkId s).bind fun word s =>
  (setSyncWord word s).bind fun _ s =>
  (thisNodeAddress s).bind fun node s =>
  (setNodeAddress node s).bind fun _ s =>
  (broadcastAddress s).bind fun bcast s =>
  (setBroadcastAddress bcast s).bind fun _ s =>
  (setAddressFiltering s.cfg.cfgAddrFilter s).bind fun _ s =>
  (setPacketFormat s.cfg.cfgPacketFormat s).bind fun _ s =>
  (setCrc s.cfg.cfgCrcOn s).bind fun _ s =>
  (setCrcAutoClear s.cfg.cfgCrcAutoClear s).bind fun _ s =>
  setFifoThresholdCondition s.cfg.cfgFifoCond s

/-- The device mode in which Init leaves the device: Receiver for HOME = Listening, else Standby (R166). -/
def homeMode (p : Params) : Mode :=
  match p.home with
  | .listening => .receiver
  | .idle => .standby

/-- Init() (R166): the configuration, the slot zeroed, the home state, the mode change and the wait, whose result does
not matter (R187). The handler table is not cleared. -/
def initEngine (s : State) : Flow (Option Value) :=
  (configureAll s).bind fun _ s =>
  (setMode (homeMode s.cfg) ((s.withSlot zeroFrame).withTop (homeTop s.cfg))).bind fun _ s =>
  waitForModeReady s.cfg.timeoutMs .init (afterWait .init) s

/-! ## The meaning -/

def execInit (s : State) : Host.Outcome State Fault Refusal := command initEngine s

end Sys2Proof.Machine
end

