-- ==== Sys2Proof/Machine/Ticks.lean ====
section
/-!
DEFINITION. The tick actions: the body of one Update in each state (45_tick.md).
-/

namespace Sys2Proof.Machine

/-- A tick action that does nothing. -/
def skipTick (s : State) : Flow (Option Value) := .done none s

/-- Tick NotInitialized (R192): a warning, then Init. -/
def tickNotInitialized (s : State) : Flow (Option Value) := initEngine (s.logDiag .notInitialized)

/-- Tick Idle (R193): a staged packet starts Sending; no transaction. -/
def tickIdle (s : State) : Flow (Option Value) :=
  .done none (if s.packetStaged then s.withTop (.sending .init) else s)

/-- Tick Listening(Init) (R196): a stale payload restarts the receiver; high power off, then Receiver, then the wait. -/
def tickListeningInit (s : State) : Flow (Option Value) :=
  (isPayloadReady s).bind fun stale s =>
  (if stale then restartRx s else .done () s).bind fun _ s =>
  (setHighPowerSettings false s).bind fun _ s =>
  (setMode .receiver s).bind fun _ s =>
  waitForModeReady s.cfg.timeoutMs .listenInit (afterWait .listenInit) s

/-- Tick Listening(Waiting) (R197): a payload is handled in Standby, then the receiver is armed again. -/
def tickListeningWaiting (s : State) : Flow (Option Value) :=
  (isPayloadReady s).bind fun payload s =>
  if payload then
    (setMode .standby s).bind fun _ s =>
    waitForModeReady s.cfg.timeoutMs .listenPayload (afterWait .listenPayload) s
  else .done none s

/-- Tick Listening(Receiving): the source gives it no action (R198). -/
def tickListeningReceiving (s : State) : Flow (Option Value) := skipTick s

/-- Tick Listening(SendAck) (R199): back to Init once the mode is ready; no packet is emitted. -/
def tickListeningSendAck (s : State) : Flow (Option Value) :=
  (isModeReady s).bind fun ready s => .done none (if ready then s.withTop (.listening .init) else s)

/-- Tick Listening(Done): no action (R200). -/
def tickListeningDone (s : State) : Flow (Option Value) := skipTick s

/-- Tick Sending(Init) (R202): Standby, without a wait. -/
def tickSendingInit (s : State) : Flow (Option Value) :=
  (setMode .standby s).bind fun _ s => .done none (s.withTop (.sending .writing))

/-- Tick Sending(Writing) (R203): on mode-ready the frame goes into the FIFO, both counts ignored, then Transmitter, then
high power. -/
def tickSendingWriting (s : State) : Flow (Option Value) :=
  (isModeReady s).bind fun ready s =>
  if ready then
    (writeToFifo (headerBytes s.slot.header) s).bind fun _ s =>
    (writeToFifo (contentBytes s.slot.content) s).bind fun _ s =>
    (setMode .transmitter s).bind fun _ s =>
    (setHighPowerSettings true s).bind fun _ s =>
    .done none (s.withTop (.sending .transmitting))
  else .done none s

/-- Tick Sending(Transmitting) (R204): on packet-sent, an ACK is awaited where one was requested; else the callback is
called with true, the slot zeroed and the engine Idle. -/
def tickSendingTransmitting (s : State) : Flow (Option Value) :=
  (isPacketSent s).bind fun sent s =>
  if sent then
    if s.slot.header.ackRequested then
      (setMode .receiver s).bind fun _ s =>
      (setHighPowerSettings false s).bind fun _ s =>
      .done none (s.withTop (.sending .waitForAck))
    else
      (match s.slot.callback with
        | some cb => callCallback cb s
        | none => .done () s).bind fun _ s =>
      .done none ((s.withSlot zeroFrame).withTop .idle)
  else .done none s

/-- Tick Sending(WaitForAck) (R205): any payload ends the wait; the callback is dropped with the slot. -/
def tickSendingWaitForAck (s : State) : Flow (Option Value) :=
  (isPayloadReady s).bind fun payload s =>
  if payload then
    (handlePayload s).bind fun _ s =>
    (setMode .standby s).bind fun _ s =>
    .done none ((s.withSlot zeroFrame).withTop .idle)
  else .done none s

/-- Tick Sending(Done): unused in normal flow, no action (R206). -/
def tickSendingDone (s : State) : Flow (Option Value) := skipTick s

/-- Tick Sleeping (R207): not active, not already in Sleep and mode-ready, tested in this order, puts the device to
Sleep. -/
def tickSleeping (s : State) : Flow (Option Value) :=
  if s.active then .done none s
  else
    (getMode s).bind fun code s =>
    if code = modeCode s.cfg.modeCodes .sleep then .done none s
    else
      (isModeReady s).bind fun ready s =>
      if ready then (setMode .sleep s).bind fun _ s => .done none s else .done none s

/-! ## The meanings -/

def execTickNotInitialized (s : State) : Host.Outcome State Fault Refusal := command tickNotInitialized s

def execTickIdle (s : State) : Host.Outcome State Fault Refusal := command tickIdle s

def execTickListeningInit (s : State) : Host.Outcome State Fault Refusal := command tickListeningInit s

def execTickListeningWaiting (s : State) : Host.Outcome State Fault Refusal := command tickListeningWaiting s

def execTickListeningReceiving (s : State) : Host.Outcome State Fault Refusal := command tickListeningReceiving s

def execTickListeningSendAck (s : State) : Host.Outcome State Fault Refusal := command tickListeningSendAck s

def execTickListeningDone (s : State) : Host.Outcome State Fault Refusal := command tickListeningDone s

def execTickSendingInit (s : State) : Host.Outcome State Fault Refusal := command tickSendingInit s

def execTickSendingWriting (s : State) : Host.Outcome State Fault Refusal := command tickSendingWriting s

def execTickSendingTransmitting (s : State) : Host.Outcome State Fault Refusal := command tickSendingTransmitting s

def execTickSendingWaitForAck (s : State) : Host.Outcome State Fault Refusal := command tickSendingWaitForAck s

def execTickSendingDone (s : State) : Host.Outcome State Fault Refusal := command tickSendingDone s

def execTickSleeping (s : State) : Host.Outcome State Fault Refusal := command tickSleeping s

end Sys2Proof.Machine
end

