-- ==== Sys2Proof/Machine/HostCommands.lean ====
section
/-!
DEFINITION. Update and EventHandler (44_commands.md R177 to R184), and the place where a command that is not over goes
on.
-/

namespace Sys2Proof.Machine

/-- Update(): the tick action of the top-level state (R177, R194, R201). -/
def updateEngine (s : State) : Flow (Option Value) :=
  match s.top with
  | .notInitialized => tickNotInitialized s
  | .idle => tickIdle s
  | .listening .init => tickListeningInit s
  | .listening .waiting => tickListeningWaiting s
  | .listening .receiving => tickListeningReceiving s
  | .listening .sendAck => tickListeningSendAck s
  | .listening .done => tickListeningDone s
  | .sending .init => tickSendingInit s
  | .sending .writing => tickSendingWriting s
  | .sending .transmitting => tickSendingTransmitting s
  | .sending .waitForAck => tickSendingWaitForAck s
  | .sending .done => tickSendingDone s
  | .sleeping => tickSleeping s

/-- EventSleep() (R181, R184): while the engine is active, one full Update after another, one in each step; then Sleep
mode, the wait, and Sleeping. No iteration is capped. -/
def eventSleep (s : State) : Flow (Option Value) :=
  if s.active then (updateEngine s).bind fun _ s => .stop (s.suspend .drain)
  else
    (setMode .sleep s).bind fun _ s =>
    waitForModeReady s.cfg.timeoutMs .sleep (afterWait .sleep) s

/-- EventWakeup() (R182): Standby and the wait in every state; only from Sleeping back to HOME. -/
def eventWakeup (s : State) : Flow (Option Value) :=
  (setMode .standby s).bind fun _ s =>
  waitForModeReady s.cfg.timeoutMs .wakeup (afterWait .wakeup) s

/-- EventHandler(kind) (R81, R180, R183): every kind but Sleep and Wakeup is ignored. -/
def eventHandler (kind : Byte) (s : State) : Flow (Option Value) :=
  match kind.toNat with
  | 1 => eventSleep s
  | 2 => eventWakeup s
  | _ => .done none s

/-- A command that is not over goes on from the place it stopped at: the next poll of a wait, or the next iteration of
the drain. An upcall that never returns goes nowhere (R175). -/
def goOn (p : Pending) (s : State) : Host.Outcome State Fault Refusal :=
  match p with
  | .wait w => .next (pollWait w (afterWait w.after) s.resumed).finish
  | .drain => .next (eventSleep s.resumed).finish
  | .refusal r => .refused r
  | .held => .next s

/-! ## The meanings -/

def execUpdate (s : State) : Host.Outcome State Fault Refusal := command updateEngine s

def execEvent (kind : Byte) (s : State) : Host.Outcome State Fault Refusal := command (eventHandler kind) s

end Sys2Proof.Machine
end

