-- ==== Sys2Proof/Machine/Transport.lean ====
section
/-!
DEFINITION. The register transport's two operations (41_transport.md).
-/

namespace Sys2Proof.Machine

/-- WriteRegister(a, v) (R100). -/
def execSpiWrite (a : BitVec 7) (d : Byte) (s : State) : Host.Outcome State Fault Refusal :=
  command (fun s => (spiWrite (a.zeroExtend 8) d s).bind fun _ s => .done none s) s

/-- ReadRegister(a) (R101). -/
def execSpiRead (a : BitVec 7) (s : State) : Host.Outcome State Fault Refusal :=
  command (fun s => (spiRead (a.zeroExtend 8) s).bind fun v s => .done (some (.byte v)) s) s

end Sys2Proof.Machine
end

