-- ==== Sys2Proof/Machine/Dispatch.lean ====
section
/-!
DEFINITION. The dispatch: one arm per instruction, each one call of its meaning.
-/

namespace Sys2Proof.Machine

def exec (i : Instr) (s : State) : Host.Outcome State Fault Refusal :=
  match i with
  | .spiWrite a d => Sys2Proof.Machine.execSpiWrite a d s
  | .spiRead a => Sys2Proof.Machine.execSpiRead a s
  | .init => Sys2Proof.Machine.execInit s
  | .update => Sys2Proof.Machine.execUpdate s
  | .send target requestAck callback content => Sys2Proof.Machine.execSend target requestAck callback content s
  | .setHandler type handler => Sys2Proof.Machine.execSetHandler type handler s
  | .event kind => Sys2Proof.Machine.execEvent kind s
  | .setMode m => Sys2Proof.Machine.execSetMode m s
  | .getMode => Sys2Proof.Machine.execGetMode s
  | .waitForModeReady timeoutMs => Sys2Proof.Machine.execWaitForModeReady timeoutMs s
  | .isModeReady => Sys2Proof.Machine.execIsModeReady s
  | .isPayloadReady => Sys2Proof.Machine.execIsPayloadReady s
  | .isPacketSent => Sys2Proof.Machine.execIsPacketSent s
  | .isFifoNotEmpty => Sys2Proof.Machine.execIsFifoNotEmpty s
  | .isFifoFull => Sys2Proof.Machine.execIsFifoFull s
  | .writeToFifo buf => Sys2Proof.Machine.execWriteToFifo buf s
  | .readFromFifo maxLength => Sys2Proof.Machine.execReadFromFifo maxLength s
  | .getRssi => Sys2Proof.Machine.execGetRssi s
  | .restartRx => Sys2Proof.Machine.execRestartRx s
  | .setHighPowerSettings on => Sys2Proof.Machine.execSetHighPowerSettings on s
  | .setCarrierFrequency frf => Sys2Proof.Machine.execSetCarrierFrequency frf s
  | .setBitRate br => Sys2Proof.Machine.execSetBitRate br s
  | .setModulationType m => Sys2Proof.Machine.execSetModulationType m s
  | .setPowerLevel p => Sys2Proof.Machine.execSetPowerLevel p s
  | .setSyncWord word => Sys2Proof.Machine.execSetSyncWord word s
  | .setNodeAddress a => Sys2Proof.Machine.execSetNodeAddress a s
  | .setBroadcastAddress a => Sys2Proof.Machine.execSetBroadcastAddress a s
  | .setAddressFiltering f => Sys2Proof.Machine.execSetAddressFiltering f s
  | .setPacketFormat f => Sys2Proof.Machine.execSetPacketFormat f s
  | .setCrc on => Sys2Proof.Machine.execSetCrc on s
  | .setCrcAutoClear on => Sys2Proof.Machine.execSetCrcAutoClear on s
  | .setFifoThresholdCondition c => Sys2Proof.Machine.execSetFifoThresholdCondition c s
  | .setPreambleLength n => Sys2Proof.Machine.execSetPreambleLength n s
  | .validateContentSize content => Sys2Proof.Machine.execValidateContentSize content s
  | .computeTotalSize content => Sys2Proof.Machine.execComputeTotalSize content s
  | .encodeFrame header content => Sys2Proof.Machine.execEncodeFrame header content s
  | .decodeFrame bytes => Sys2Proof.Machine.execDecodeFrame bytes s
  | .packetToSend => Sys2Proof.Machine.execPacketToSend s
  | .isReadyToSend => Sys2Proof.Machine.execIsReadyToSend s
  | .isActive => Sys2Proof.Machine.execIsActive s
  | .handlePayload => Sys2Proof.Machine.execHandlePayload s
  | .tickNotInitialized => Sys2Proof.Machine.execTickNotInitialized s
  | .tickIdle => Sys2Proof.Machine.execTickIdle s
  | .tickListeningInit => Sys2Proof.Machine.execTickListeningInit s
  | .tickListeningWaiting => Sys2Proof.Machine.execTickListeningWaiting s
  | .tickListeningReceiving => Sys2Proof.Machine.execTickListeningReceiving s
  | .tickListeningSendAck => Sys2Proof.Machine.execTickListeningSendAck s
  | .tickListeningDone => Sys2Proof.Machine.execTickListeningDone s
  | .tickSendingInit => Sys2Proof.Machine.execTickSendingInit s
  | .tickSendingWriting => Sys2Proof.Machine.execTickSendingWriting s
  | .tickSendingTransmitting => Sys2Proof.Machine.execTickSendingTransmitting s
  | .tickSendingWaitForAck => Sys2Proof.Machine.execTickSendingWaitForAck s
  | .tickSendingDone => Sys2Proof.Machine.execTickSendingDone s
  | .tickSleeping => Sys2Proof.Machine.execTickSleeping s

end Sys2Proof.Machine
end

