-- ==== Sys2Proof/Machine/Fetch.lean ====
section
/-!
DEFINITION. Taking the next command frame: what the engine does with a frame that decodes to an instruction and with one
that does not (30_encoding.md R83, R84, R87).
-/

namespace Sys2Proof.Machine

/-- A frame that is no instruction. A state word outside R80 is a fatal assertion (R87, R178, U16); any other such frame
is refused (R84, U9). A frame of the `state` form is read by its first byte before its length is looked at: one that begins
with a word outside R80 is this fatal assertion whatever its length, one of two or more bytes that begins with a word of
R80 is refused [DESIGN CHOICE: log 12; R87 and R222 speak of a state word, and no rule of longer frames]. -/
def rejectFrame (e : DecodeError) (s : State) : Host.Outcome State Fault Refusal :=
  match e with
  | .unknownCode .state _ => command (fun s => raiseFatal .state s) s
  | e => .refused (.badFrame e)

/-- The frame at the head of the queue is taken and run. -/
def runFrame (frame : CommandFrame) (s : State) : Host.Outcome State Fault Refusal :=
  match decode frame with
  | .ok i => exec i s
  | .error e => rejectFrame e s

/-- One step of an engine between commands: it takes the next frame, or waits for one (R165, R245). -/
def takeCommand (s : State) : Host.Outcome State Fault Refusal :=
  match s.inbox with
  | [] => .next s
  | frame :: rest => runFrame frame (s.withInbox rest)

end Sys2Proof.Machine
end

