-- ==== Sys2Proof/Machine/Step.lean ====
section
/-!
DEFINITION. The step of the machine, and where a word of the opcode table is put so that the next step runs it.
-/

namespace Sys2Proof.Machine

/-- One step. A halted engine has no successor but itself (R224). A command that is not over goes on before another is
taken (R9, R165). -/
def step (s : State) : Host.Outcome State Fault Refusal :=
  if s.halted then .next s
  else if s.validInstance then
    match s.control with
    | some p => goOn p s
    | none => takeCommand s
  else .refused .invalidInstance

/-- The state with the frame of a table word at the head of the queue, and no command in progress before it. -/
def State.withFetchWord (s : State) (nbits w : Nat) : State :=
  { s with inbox := frameOfWord nbits w :: s.inbox, control := none }

end Sys2Proof.Machine
end

