-- ==== Sys2Proof/Safety.lean ====
section
/-!
DEFINITION. What counts as a safe run, in the terms the statements use: the engine is not halted, its parameters are
ones the rules hold for, and its packet slot has the shape R25 to R27 give it; and the words in which the statements
describe what happens at the ports.
-/

namespace Sys2Proof.Machine

/-! ## Parameters -/

/-- A register address is in the valid range (R51, R102). -/
def regOk (p : Params) (a : RegAddr) : Bool := decide (a.toNat ≤ p.regAddrMax.toNat)

/-- The registers a setter writes are in the valid range. -/
def setterRegsOk (p : Params) (spec : SetterSpec) : Bool :=
  match spec.enc with
  | .fields l => l.all (fun f => regOk p f.reg)
  | .table rows => rows.all (fun row => row.all (fun w => regOk p w.reg))

/-- The twelve setters of the instance. -/
def setterList (p : Params) : List SetterSpec :=
  [p.setters.carrierFrequency, p.setters.bitRate, p.setters.modulationType, p.setters.powerLevel,
    p.setters.nodeAddress, p.setters.broadcastAddress, p.setters.addressFiltering, p.setters.packetFormat,
    p.setters.crc, p.setters.crcAutoClear, p.setters.fifoThresholdCondition, p.setters.preambleLength]

/-- Every register the parameters name is in the valid range, so that no rule raises ASSERT_REG_RANGE (R102, R225). -/
def regMapOk (p : Params) : Bool :=
  regOk p p.regs.fifo && regOk p p.regs.opMode && regOk p p.regs.rssiValue && regOk p p.regs.irqFlags1
    && regOk p p.regs.irqFlags2 && regOk p p.regs.syncConfig && regOk p p.regs.packetConfig2
    && decide (p.regs.syncValue1.toNat + p.syncLen ≤ p.regAddrMax.toNat + 1)
    && p.hpOn.all (fun w => regOk p w.1) && p.hpOff.all (fun w => regOk p w.1)
    && (setterList p).all (setterRegsOk p)

/-! ## The engine -/

/-- A safe state: no fatal assertion has been raised (R31, R224). -/
def State.Safe (s : State) : Prop := s.halted = false

/-- The packet slot is zeroed, or holds a staged frame: its total size is 13 + size, its size at most CONTENT_DATA_MAX,
its rssi 0, its arrays of their full lengths, its unused data bytes zero (R25, R26, R27, R171). -/
def slotOk (p : Packet) : Bool :=
  decide (p = zeroFrame)
    || (decide (p.content.timestamp.length = Config.tsLen)
      && decide (p.content.data.length = Config.contentDataMax)
      && decide (p.content.size.toNat ≤ Config.contentDataMax)
      && decide (p.header.totalSize.toNat = Config.hdrLen + Config.metaLen + p.content.size.toNat)
      && decide (p.header.rssi = 0)
      && (p.content.data.drop p.content.size.toNat).all (fun b => b == 0)
      && decide (p.callback ≠ some 0))

/-- The top-level states some rule enters: of Listening only Init and Waiting, of Sending every sub-state but Done
(R22, R23). -/
def Top.entered : Top → Bool
  | .listening .receiving | .listening .sendAck | .listening .done | .sending .done => false
  | .listening .init | .listening .waiting | .sending .init | .sending .writing | .sending .transmitting
  | .sending .waitForAck | .notInitialized | .idle | .sleeping => true

/-- The fault state is consistent: not halted goes with code 0, halted with one of the codes of R222 (R31, R222). -/
def faultOk (s : State) : Bool :=
  if s.halted then decide (1 ≤ s.faultCode.toNat) && decide (s.faultCode.toNat ≤ 6) else decide (s.faultCode = 0)

/-- No handler entry holds the null identifier (R176). -/
def handlersOk (s : State) : Bool := s.handlers.all (fun h => decide (h ≠ some 0))

/-- A place at which a command can stop. Of the refusals it is only those of an upcall: a command that re-enters the
engine, INIT, UPDATE or EVENT (R186), or a frame that is no command (R84). -/
def Pending.ok : Pending → Bool
  | .wait _ | .drain | .held => true
  | .refusal (.reentrantCommand i) => match i with
    | .init | .update | .event _ => true
    | _ => false
  | .refusal (.badFrame _) => true
  | .refusal _ => false

/-- The place inside a command is one at which a command can stop. -/
def controlOk (s : State) : Bool := s.control.all Pending.ok

/-- The invariant of the engine's own state and of the place inside a command. -/
def State.Inv (s : State) : Prop :=
  slotOk s.slot = true ∧ s.top.entered = true ∧ faultOk s = true ∧ handlersOk s = true ∧ controlOk s = true

/-! ## States the statements start from -/

/-- A running engine all of whose registers are in the valid range. -/
def State.Ready (s : State) : Prop := s.halted = false ∧ regMapOk s.cfg = true

/-- A running engine of a valid instance between two commands: it takes the next frame. -/
def State.BetweenCommands (s : State) : Prop := s.halted = false ∧ s.validInstance = true ∧ s.control = none

/-- The state that a command leaves which raises a fatal assertion before it does anything else (R223). -/
def State.fatal (s : State) (code : Byte) : State :=
  { s with control := none, result := none, halted := true, faultCode := code, log := s.log ++ [(.critical, code)] }

/-! ## The ports -/

/-- A read of a register, one transaction: select, bus mode, the address byte with its flag clear, 0x00 against the device's
answer, deselect (R71, R101, R103). -/
def readEvent (p : Params) (a : RegAddr) (v : Byte) : Event :=
  .spi [.select, .setBusMode p.busMode, .shiftOut (a &&& 0x7F), .shiftIn 0x00 v, .deselect]

/-- A write of a register, one transaction: select, bus mode, the address byte with its flag set, the value, deselect
(R71, R100, R103). -/
def writeEvent (p : Params) (a : RegAddr) (v : Byte) : Event :=
  .spi [.select, .setBusMode p.busMode, .shiftOut (0x80 ||| a), .shiftOut v, .deselect]

/-- The two transactions of SetMode: the answer, and the answer with the mode code in its mode field (R79, R111). -/
def modeEvents (p : Params) (v : Byte) (code : BitVec 3) : List Event :=
  [readEvent p p.regs.opMode v, writeEvent p p.regs.opMode (withModeField p.regs v code)]

/-- A command that has set a mode, read the start time of its wait and polled once (R111, R113, R181, R182). -/
def State.modePoll (s : State) (code : BitVec 3) (v i : Byte) (dev : List Byte) (t0 : Millis) (clk : List Millis) :
    State :=
  { s with
    control := none, result := none, devIn := dev, clkIn := clk,
    trace := s.trace ++ modeEvents s.cfg v code ++ [.clock t0, readEvent s.cfg s.cfg.regs.irqFlags1 i] }

/-- The plain writes of SetHighPowerSettings (R137). -/
def highPowerEvents (p : Params) (on : Bool) : List Event :=
  (if on then p.hpOn else p.hpOff).map (fun x => writeEvent p x.1 x.2)

/-- The sync bytes into RegSyncValue1 and on (R128). -/
def syncEvents (p : Params) (word : List Byte) : List Event :=
  word.mapIdx (fun i b => writeEvent p (p.regs.syncValue1 + BitVec.ofNat 8 i) b)

/-- The device's answers to a FIFO write of `n` bytes: a clear full-flag before every byte that is written, and, where
the FIFO gets full before the last byte, the answer `stop` that says so (R119). -/
def fifoWriteAnswers (r : RegMap) (n : Nat) (flags : List Byte) (stop : Option Byte) : Prop :=
  (∀ f ∈ flags, fifoFullFlag r f = false) ∧
    ((stop = none ∧ flags.length = n) ∨ (∃ f, stop = some f ∧ fifoFullFlag r f = true ∧ flags.length < n))

/-- The transactions of a FIFO write under those answers (R119). -/
def fifoWriteEvents (p : Params) (buf flags : List Byte) (stop : Option Byte) : List Event :=
  (flags.zip buf).flatMap (fun x => [readEvent p p.regs.irqFlags2 x.1, writeEvent p p.regs.fifo x.2])
    ++ stop.toList.map (readEvent p p.regs.irqFlags2)

/-- What a FIFO write logs: E_FIFO_FULL where it stops early (R119). -/
def fifoWriteLog (stop : Option Byte) : List (Level × Byte) := if stop.isSome then [(.error, 0x12)] else []

/-- The device's answers to a FIFO read of up to `n` bytes: a set not-empty flag with every byte, and, where the FIFO
gets empty before the last byte, the answer `stop` that says so (R120). -/
def fifoReadAnswers (r : RegMap) (n : Nat) (got : List (Byte × Byte)) (stop : Option Byte) : Prop :=
  (∀ x ∈ got, fifoNotEmptyFlag r x.1 = true) ∧
    ((stop = none ∧ got.length = n) ∨ (∃ f, stop = some f ∧ fifoNotEmptyFlag r f = false ∧ got.length < n))

/-- Those answers in the order the device gives them. -/
def fifoReadScript (got : List (Byte × Byte)) (stop : Option Byte) : List Byte :=
  got.flatMap (fun x => [x.1, x.2]) ++ stop.toList

/-- The transactions of a FIFO read under those answers (R120). -/
def fifoReadEvents (p : Params) (got : List (Byte × Byte)) (stop : Option Byte) : List Event :=
  got.flatMap (fun x => [readEvent p p.regs.irqFlags2 x.1, readEvent p p.regs.fifo x.2])
    ++ stop.toList.map (readEvent p p.regs.irqFlags2)

/-- What a FIFO read logs: E_FIFO_EMPTY where it stops early (R120). -/
def fifoReadLog (stop : Option Byte) : List (Level × Byte) := if stop.isSome then [(.error, 0x13)] else []

/-! ## Setters -/

/-- The setter and its argument, of a setter instruction (R122, R123). -/
def setterOf (p : Params) : Instr → Option (SetterSpec × BitVec 32)
  | .setCarrierFrequency frf => some (p.setters.carrierFrequency, frf.zeroExtend 32)
  | .setBitRate br => some (p.setters.bitRate, br.zeroExtend 32)
  | .setModulationType m => some (p.setters.modulationType, m.zeroExtend 32)
  | .setPowerLevel n => some (p.setters.powerLevel, n.zeroExtend 32)
  | .setNodeAddress a => some (p.setters.nodeAddress, a.zeroExtend 32)
  | .setBroadcastAddress a => some (p.setters.broadcastAddress, a.zeroExtend 32)
  | .setAddressFiltering f => some (p.setters.addressFiltering, f.zeroExtend 32)
  | .setPacketFormat f => some (p.setters.packetFormat, f.zeroExtend 32)
  | .setCrc on => some (p.setters.crc, argOfBool on)
  | .setCrcAutoClear on => some (p.setters.crcAutoClear, argOfBool on)
  | .setFifoThresholdCondition c => some (p.setters.fifoThresholdCondition, c.zeroExtend 32)
  | .setPreambleLength n => some (p.setters.preambleLength, n.zeroExtend 32)
  | _ => none

/-- How many registers a setter reads: one for every field (R122). -/
def setterReads : List RegWrite → Nat
  | [] => 0
  | w :: rest => (if w.mask = 0xFF then 0 else 1) + setterReads rest

/-- The transactions of a setter's writes, given the device's answers to its reads (R122). -/
def setterEvents (p : Params) : List RegWrite → List Byte → List Event
  | [], _ => []
  | w :: rest, answers =>
    if w.mask = 0xFF then writeEvent p w.reg w.byte :: setterEvents p rest answers
    else
      let v := answers.headD 0
      readEvent p w.reg v :: writeEvent p w.reg ((v &&& ~~~w.mask) ||| (w.byte &&& w.mask))
        :: setterEvents p rest answers.tail

/-! ## Init -/

/-- The device's answers to the reads of Init, by register. -/
structure InitAnswers where
  dataModul : Byte
  paLevel : Byte
  syncConfig : Byte
  filter : Byte
  format : Byte
  crc : Byte
  autoClear : Byte
  fifoThresh : Byte
  opMode : Byte
deriving DecidableEq, Repr

/-- Those answers in the order the device gives them; RegSyncConfig is read for a valid sync word only (R128, R166). -/
def InitAnswers.script (a : InitAnswers) (syncOk : Bool) : List Byte :=
  [a.dataModul, a.paLevel] ++ (if syncOk then [a.syncConfig] else [])
    ++ [a.filter, a.format, a.crc, a.autoClear, a.fifoThresh, a.opMode]

/-- The sync word is one that SetSyncWord accepts (R128). -/
def syncWordValid (p : Params) (word : List Byte) : Bool :=
  decide (word.length = p.syncLen) && word.all (fun b => b != 0)

/-- The configuration writes of Init under the reference setters (R123, R166): the carrier frequency and the bit rate. -/
def rateEvents (p : Params) : List Event :=
  [writeEvent p 0x07 (p.cfgFreq.extractLsb' 16 8), writeEvent p 0x08 (p.cfgFreq.extractLsb' 8 8),
    writeEvent p 0x09 (p.cfgFreq.extractLsb' 0 8),
    writeEvent p 0x03 (p.cfgBitRate.extractLsb' 8 8), writeEvent p 0x04 (p.cfgBitRate.extractLsb' 0 8)]

/-- The modulation, given the device's answer. -/
def modulationEvents (p : Params) (v : Byte) : List Event :=
  [readEvent p 0x02 v, writeEvent p 0x02 ((v &&& 0xE7) ||| (p.cfgModulation <<< 3))]

/-- The power level, then the sync word and the addresses that the collaborator gives (R128, R166). -/
def addressEvents (p : Params) (a : InitAnswers) (word : List Byte) (node bcast : Byte) : List Event :=
  [readEvent p 0x11 a.paLevel, writeEvent p 0x11 ((a.paLevel &&& 0xE0) ||| p.cfgPower), .networkId word]
  ++ (if syncWordValid p word then
      [readEvent p p.regs.syncConfig a.syncConfig,
        writeEvent p p.regs.syncConfig (withSyncSize p.regs a.syncConfig p.syncLen)] ++ syncEvents p word
    else [])
  ++ [.nodeAddress node, writeEvent p 0x39 node, .broadcastAddress bcast, writeEvent p 0x3A bcast]

/-- The address filtering. -/
def filteringEvents (p : Params) (v : Byte) : List Event :=
  [readEvent p 0x37 v, writeEvent p 0x37 ((v &&& 0xF9) ||| (p.cfgAddrFilter <<< 1))]

/-- The packet format, the CRC and its auto-clear. -/
def packetEvents (p : Params) (a : InitAnswers) : List Event :=
  [readEvent p 0x37 a.format, writeEvent p 0x37 ((a.format &&& 0x7F) ||| (p.cfgPacketFormat <<< 7)),
    readEvent p 0x37 a.crc, writeEvent p 0x37 ((a.crc &&& 0xEF) ||| (byteOfBool p.cfgCrcOn <<< 4)),
    readEvent p 0x37 a.autoClear, writeEvent p 0x37 ((a.autoClear &&& 0xF7) ||| (byteOfBool (!p.cfgCrcAutoClear) <<< 3))]

/-- The micro-steps of Init under the reference setters, from the first configuration write to the mode change, given
the device's and the collaborator's answers (R123, R166). -/
def initEvents (p : Params) (a : InitAnswers) (word : List Byte) (node bcast : Byte) : List Event :=
  rateEvents p ++ modulationEvents p a.dataModul ++ addressEvents p a word node bcast ++ filteringEvents p a.filter
  ++ packetEvents p a
  ++ [readEvent p 0x3C a.fifoThresh, writeEvent p 0x3C ((a.fifoThresh &&& 0x7F) ||| (p.cfgFifoCond <<< 7))]
  ++ modeEvents p a.opMode (match p.home with | .listening => p.modeCodes.receiver | .idle => p.modeCodes.standby)

/-- What the sync word of Init logs: E_SYNC_INVALID where it is rejected (R128). -/
def syncLog (p : Params) (word : List Byte) : List (Level × Byte) :=
  if syncWordValid p word then [] else [(.error, 0x16)]

/-- The state that Init leaves which halts at a setter whose argument is out of range: what happened at the ports and was
logged before stays (R166, R223). -/
def State.initHalted (s : State) (dev : List Byte) (events : List Event) (logged : List (Level × Byte)) : State :=
  { s with
    control := none, result := none, devIn := dev, halted := true, faultCode := 0x05,
    log := s.log ++ logged ++ [(.critical, 0x05)], trace := s.trace ++ events }

/-- The CFG arguments of Init are in the ranges of the reference table (R6, R123). -/
def initArgsOk (p : Params) : Bool :=
  decide (1 ≤ p.cfgBitRate.toNat) && decide (p.cfgModulation.toNat ≤ 1) && decide (p.cfgPower.toNat ≤ 31)
    && decide (p.cfgAddrFilter.toNat ≤ 2) && decide (p.cfgPacketFormat.toNat ≤ 1) && decide (p.cfgFifoCond.toNat ≤ 1)

/-! ## Ticks -/

/-- The tick action that a top-level state selects (R177, R194, R201). -/
def tickOf : Top → Instr
  | .notInitialized => .tickNotInitialized
  | .idle => .tickIdle
  | .listening .init => .tickListeningInit
  | .listening .waiting => .tickListeningWaiting
  | .listening .receiving => .tickListeningReceiving
  | .listening .sendAck => .tickListeningSendAck
  | .listening .done => .tickListeningDone
  | .sending .init => .tickSendingInit
  | .sending .writing => .tickSendingWriting
  | .sending .transmitting => .tickSendingTransmitting
  | .sending .waitForAck => .tickSendingWaitForAck
  | .sending .done => .tickSendingDone
  | .sleeping => .tickSleeping

/-- The states in which one Update may leave a top-level state, besides the state itself (R166, R191 to R207). -/
def tickMayEnter (p : Params) (old new : Top) : Prop :=
  match old with
  | .notInitialized => new = homeTop p
  | .idle => new = .sending .init
  | .listening .init => new = .listening .waiting ∨ (p.waitFail = .abortToIdle ∧ new = .idle)
  | .listening .waiting => p.waitFail = .abortToIdle ∧ new = .idle
  | .listening .sendAck => new = .listening .init
  | .sending .init => new = .sending .writing
  | .sending .writing => new = .sending .transmitting
  | .sending .transmitting => new = .sending .waitForAck ∨ new = .idle
  | .sending .waitForAck => new = .idle
  | .listening .receiving | .listening .done | .sending .done | .sleeping => False

/-- A poll of a wait finds the flag clear before the deadline, and `t` is the state after it (R113). -/
def pollGoesOn (start timeout : Millis) (s t : State) : Prop :=
  ∃ (v : Byte) (dev : List Byte) (time : Millis) (clk : List Millis), s.devIn = v :: dev ∧ s.clkIn = time :: clk ∧
    modeReadyFlag s.cfg.regs v = false ∧ (time - start).toNat < timeout.toNat ∧
    t = { s with
      devIn := dev, clkIn := clk, trace := s.trace ++ [readEvent s.cfg s.cfg.regs.irqFlags1 v, .clock time] }

/-- A poll of a wait ends it, `ready` saying how, and `t` is the state after it: the flag is set, or it is clear at a clock
answer past the deadline, which is logged (R113). -/
def pollEnds (start timeout : Millis) (s : State) (ready : Bool) (t : State) : Prop :=
  ∃ (v : Byte) (dev : List Byte), s.devIn = v :: dev ∧
    ((ready = true ∧ modeReadyFlag s.cfg.regs v = true ∧
        t = { s with devIn := dev, trace := s.trace ++ [readEvent s.cfg s.cfg.regs.irqFlags1 v] }) ∨
      (∃ (time : Millis) (clk : List Millis), s.clkIn = time :: clk ∧ ready = false ∧
        modeReadyFlag s.cfg.regs v = false ∧ timeout.toNat ≤ (time - start).toNat ∧
        t = { s with
          devIn := dev, clkIn := clk, log := s.log ++ [(.warning, 0x11)],
          trace := s.trace ++ [readEvent s.cfg s.cfg.regs.irqFlags1 v, .clock time] }))

/-- The state of a command that has set a mode and read the start time of its wait (R111, R113). -/
def State.modeWait (s : State) (code : BitVec 3) (v : Byte) (dev : List Byte) (t0 : Millis) (clk : List Millis) : State :=
  { s with
    control := none, result := none, devIn := dev, clkIn := clk,
    trace := s.trace ++ modeEvents s.cfg v code ++ [.clock t0] }

/-- What the Listening(Waiting) tick comes to, `out`, once its first wait has ended in `u` (R191, R197, R212): a failed
wait ends it under Stall and AbortToIdle; else HandlePayload runs, whose result does not matter, and unless it stops the
command, Receiver and the second wait follow. -/
def payloadWaitEnds (ready : Bool) (u : State) (out : Host.Outcome State Fault Refusal) : Prop :=
  (ready = false → u.cfg.waitFail = .stall → out = .next u) ∧
  (ready = false → u.cfg.waitFail = .abortToIdle → out = .next { u with top := .idle }) ∧
  (ready = true ∨ u.cfg.waitFail = .proceed → ∀ t : State, exec .handlePayload u = .next t →
    (t.halted = true ∨ t.control ≠ none → out = .next t) ∧
    (t.halted = false → t.control = none →
      ∀ (w : Byte) (dev : List Byte) (t1 : Millis) (clk : List Millis), t.devIn = w :: dev → t.clkIn = t1 :: clk →
      (∀ x : State, pollGoesOn t1 t.cfg.timeoutMs (t.modeWait t.cfg.modeCodes.receiver w dev t1 clk) x →
        out = .next { x with control := some (.wait ⟨t1, t.cfg.timeoutMs, .listenRearm⟩) }) ∧
      (∀ (ready2 : Bool) (x : State),
        pollEnds t1 t.cfg.timeoutMs (t.modeWait t.cfg.modeCodes.receiver w dev t1 clk) ready2 x →
        out = .next { x with top := if ready2 = false ∧ x.cfg.waitFail = .abortToIdle then .idle else x.top })))

/-- A received frame passes the length checks (R154). -/
def frameLengthsOk (b : List Byte) : Prop :=
  13 ≤ b.length ∧ (b.getD 12 0).toNat ≤ 20 ∧ 13 + (b.getD 12 0).toNat ≤ b.length

/-- The header that a received frame carries, its rssi replaced by a local sample where there is one (R75, R155, R210). -/
def receivedHeader (p : Params) (sample : Option Byte) (b : List Byte) : Header where
  totalSize := b.getD 0 0
  target := b.getD 1 0
  source := b.getD 2 0
  ackRequested := b.getD 3 0 != 0
  rssi := match sample with
    | none => b.getD 4 0
    | some v => saturateI8 (rssiDbm p.rssiConv v)

/-- The content that a received frame carries, its data filled up with zeros to 20 bytes (R75, R155). -/
def receivedContent (b : List Byte) : Content where
  timestamp := (b.drop 5).take 6
  type := b.getD 11 0
  size := b.getD 12 0
  data := (b.drop 13).take (b.getD 12 0).toNat ++ List.replicate (20 - (b.getD 12 0).toNat) 0

/-- A header and content that carry a received frame which fails the length checks (R154, U18): each byte is the received
one where the frame has it, a size in range included; nothing is said of any other. The rssi is the local sample where
there is one (R210). -/
def carriesReceived (p : Params) (sample : Option Byte) (b : List Byte) (h : Header) (c : Content) : Prop :=
  (∀ x, b[0]? = some x → h.totalSize = x) ∧ (∀ x, b[1]? = some x → h.target = x) ∧
  (∀ x, b[2]? = some x → h.source = x) ∧ (∀ x, b[3]? = some x → h.ackRequested = (x != 0)) ∧
  (∀ x, sample = none → b[4]? = some x → h.rssi = x) ∧
  (∀ v, sample = some v → h.rssi = saturateI8 (rssiDbm p.rssiConv v)) ∧
  c.timestamp.length = 6 ∧ (∀ i x, i < 6 → b[5 + i]? = some x → c.timestamp[i]? = some x) ∧
  (∀ x, b[11]? = some x → c.type = x) ∧ (∀ x, b[12]? = some x → x.toNat ≤ 20 → c.size = x) ∧
  c.data.length = 20 ∧ (∀ i x, i < 20 → b[13 + i]? = some x → c.data[i]? = some x)

/-- An always-listen engine that only its host commands: it is in a state such an engine reaches, and nothing is staged
(R261). -/
def State.AlwaysListening (s : State) : Prop :=
  s.cfg.home = .listening ∧ s.cfg.waitFail ≠ .abortToIdle ∧ s.slot.header.target = 0 ∧
    (s.top = .notInitialized ∨ s.top = .listening .init ∨ s.top = .listening .waiting ∨ s.top = .sleeping) ∧
    (∀ frame ∈ s.inbox, frame.format = .host)

end Sys2Proof.Machine
end

