-- ==== Sys2Proof/Certificates/Slice0/Obligations.lean ====
section
/-!
DEFINITION. The statements about the model. The device's and the other agents' answers are named by the statements: where
one answer is read, it is `deviceAnswer` (the next given one, or a free value); where several are, the lists of given
answers are said to begin with them. What the record update of a next state does not name is unchanged.
-/

open Sys2Proof Sys2Proof.Machine

/-! ## Reset, the step and what stops it -/

/-- R48: what reset leaves. -/
def Obligations.ResetState : Prop :=
  State.reset.top = .notInitialized ∧ State.reset.stateWord = 0x00 ∧
    State.reset.slot = ⟨⟨0, 0, 0, false, 0⟩, ⟨[0, 0, 0, 0, 0, 0], 0, 0, List.replicate 20 0⟩, none⟩ ∧
    (∀ h ∈ State.reset.handlers, h = none) ∧ State.reset.halted = false ∧ State.reset.faultCode = 0 ∧
    State.reset.log = []

/-- R165, R83: between two commands a step runs the instruction that the next frame decodes to; that frames wait in a queue
and that a table word placed by `withFetchWord` is the next of them is the model's choice (log 7), and so is a step without
a frame (log 22). -/
def Obligations.StepRunsTheNextFrame : Prop :=
  ∀ (s : State), s.BetweenCommands →
    (∀ (frame : CommandFrame) (rest : List CommandFrame) (i : Instr), s.inbox = frame :: rest → decode frame = .ok i →
      step s = exec i { s with inbox := rest }) ∧
    (∀ (nbits w : Nat) (i : Instr), decodeTableWord nbits w = some i → step (s.withFetchWord nbits w) = exec i s) ∧
    (s.inbox = [] → step s = .next s)

/-- R224: a halted engine has no successor but itself, and performs nothing. -/
def Obligations.HaltedEngineHasNoSuccessor : Prop :=
  ∀ (s : State), s.halted = true → step s = .next s ∧ ∀ i : Instr, exec i s = .next s

/-- R84, R186, U9, U11, U14: a step has a next state, or is one of three named refusals, each in its one situation; no
instruction is refused. A re-entrant command and a bad frame of an upcall are refused by the step after it (the model's
choice, log 13); what makes an instance invalid beside U14's SYNC_LEN is the model's (log 24). That the place inside a
command is one of these in every run is part of the invariant that every step keeps (StepKeepsTheInvariant). -/
def Obligations.StepsEndOnlyInNamedRefusals : Prop :=
  (∀ (i : Instr) (s : State), ∃ t, exec i s = .next t) ∧
  ∀ s : State, controlOk s = true →
    (∃ t, step s = .next t) ∨
    (s.halted = false ∧ s.validInstance = false ∧ step s = .refused .invalidInstance) ∨
    (∃ i, (i = .init ∨ i = .update ∨ ∃ k, i = .event k) ∧ s.control = some (.refusal (.reentrantCommand i)) ∧
      step s = .refused (.reentrantCommand i)) ∨
    (∃ e, s.control = some (.refusal (.badFrame e)) ∧ step s = .refused (.badFrame e)) ∨
    (∃ frame rest e, s.control = none ∧ s.inbox = frame :: rest ∧ decode frame = .error e ∧
      step s = .refused (.badFrame e))

/-- R83, R84, R87, U9, U16: host frames that are no command are refused; a state word outside R80 is a fatal assertion. -/
def Obligations.FramesThatAreNoCommand : Prop :=
  ∀ (s : State) (more : List CommandFrame), s.BetweenCommands →
    (∀ (c : Byte) (rest : List Byte), s.inbox = ⟨.host, c :: rest⟩ :: more →
      ((c = 0 ∨ 6 ≤ c.toNat) → step s = .refused (.badFrame (.unknownCode .host c))) ∧
      (((c = 1 ∨ c = 2) ∧ rest.length ≠ 0) ∨ (c = 3 ∧ rest.length + 1 ≠ 12 + (rest.getD 10 0).toNat) ∨
        (c = 4 ∧ rest.length ≠ 2) ∨ (c = 5 ∧ rest.length ≠ 1) → ∃ e, step s = .refused (.badFrame e))) ∧
    (∀ w : Byte, s.inbox = ⟨.state, [w]⟩ :: more →
      w ∉ ([0x00, 0x10, 0x20, 0x21, 0x22, 0x23, 0x24, 0x30, 0x31, 0x32, 0x33, 0x34, 0x40] : List Byte) →
      step s = .next ({ s with inbox := more }.fatal 0x06))

/-! ## Encodings -/

/-- R71, R80, R83 to R85 (the operands of the `op` form are the model's choice, log 8): decoding an encoded well-formed
instruction gives it back, for every instruction and every operand. -/
def Obligations.EncodeDecodeRoundTrip : Prop := ∀ i : Instr, i.WellFormed = true → decode (encode i) = .ok i

/-- R71, R80: a transaction and a state word have one meaning each: what decodes encodes to the same bytes. -/
def Obligations.TransactionAndStateFramesEncodeBack : Prop :=
  ∀ (frame : CommandFrame) (i : Instr), frame.format = .spi ∨ frame.format = .state → decode frame = .ok i →
    encode i = frame

/-- Words written out from the encodings of R71, R80, R84 and R85. -/
def Obligations.WrittenWordsDecode : Prop :=
  decode ⟨.spi, [0b10000001#8, 0x04]⟩ = .ok (.spiWrite 0b0000001#7 0x04) ∧
  decode ⟨.spi, [0b00100111#8, 0x00]⟩ = .ok (.spiRead 0b0100111#7) ∧
  decode ⟨.host, [0x01]⟩ = .ok .init ∧ decode ⟨.host, [0x02]⟩ = .ok .update ∧
  decode ⟨.host, [0x03, 0x05, 0x00, 0x07, 0, 0, 0, 0, 0, 0, 0x02, 0x04, 1, 2, 3, 4]⟩
    = .ok (.send 0x05 false 0x07 ⟨[0, 0, 0, 0, 0, 0], 0x02, 0x04, [1, 2, 3, 4]⟩) ∧
  decode ⟨.host, [0x04, 0x02, 0x01]⟩ = .ok (.setHandler 0x02 0x01) ∧
  decode ⟨.host, [0x05, 0x02]⟩ = .ok (.event 0x02) ∧
  decode ⟨.op, [0x21]⟩ = .ok .getMode ∧ decode ⟨.op, [0x53]⟩ = .ok .handlePayload ∧
  decode ⟨.state, [0x21]⟩ = .ok .tickListeningWaiting ∧ decode ⟨.state, [0x33]⟩ = .ok .tickSendingWaitForAck

/-! ## Transport -/

/-- R100, R102, R103: a register write is one transaction: select and bus mode, the address byte, the value byte, deselect;
beyond the valid range it is a fatal assertion without one. -/
def Obligations.WriteRegister : Prop :=
  ∀ (a : BitVec 7) (d : Byte) (s : State), s.halted = false →
    encode (.spiWrite a d) = ⟨.spi, [0x80 ||| a.zeroExtend 8, d]⟩ ∧
    (a.toNat ≤ s.cfg.regAddrMax.toNat →
      exec (.spiWrite a d) s = .next { s with
        control := none, result := none,
        trace := s.trace ++ [.spi [.select, .setBusMode s.cfg.busMode, .shiftOut (0x80 ||| a.zeroExtend 8), .shiftOut d,
          .deselect]] }) ∧
    (s.cfg.regAddrMax.toNat < a.toNat → exec (.spiWrite a d) s = .next (s.fatal 0x01)) ∧
    Config.reference.busMode = ⟨false, false, true, true⟩

/-- R101, R102, R103: a register read is one transaction: select and bus mode, the address byte, 0x00 against the device's
answer, deselect; it returns the answer. Beyond the valid range it is a fatal assertion without one. -/
def Obligations.ReadRegister : Prop :=
  ∀ (a : BitVec 7) (s : State), s.halted = false →
    encode (.spiRead a) = ⟨.spi, [a.zeroExtend 8, 0x00]⟩ ∧
    (a.toNat ≤ s.cfg.regAddrMax.toNat →
      exec (.spiRead a) s = .next { s with
        control := none, result := some (.byte (s.deviceAnswer (a.zeroExtend 8))), devIn := s.devIn.tail,
        trace := s.trace ++ [.spi [.select, .setBusMode s.cfg.busMode, .shiftOut (a.zeroExtend 8),
          .shiftIn 0x00 (s.deviceAnswer (a.zeroExtend 8)), .deselect]] }) ∧
    (s.cfg.regAddrMax.toNat < a.toNat → exec (.spiRead a) s = .next (s.fatal 0x01))

/-! ## Adapter -/

/-- R111, R79: SetMode writes the mode code into the mode field of what it reads, in the reference map bits 4:2; an operand
that names no mode is a fatal assertion before any transaction. Which operand names which mode is the model's choice
(log 14). -/
def Obligations.SetModeRewritesTheModeField : Prop :=
  ∀ (m : Byte) (s : State), s.Ready →
    (∀ code : BitVec 3,
      (m, code) ∈ ([(0, s.cfg.modeCodes.sleep), (1, s.cfg.modeCodes.standby), (2, s.cfg.modeCodes.fs),
        (3, s.cfg.modeCodes.transmitter), (4, s.cfg.modeCodes.receiver)] : List (Byte × BitVec 3)) →
      exec (.setMode m) s = .next { s with
        control := none, result := none, devIn := s.devIn.tail,
        trace := s.trace ++ modeEvents s.cfg (s.deviceAnswer s.cfg.regs.opMode) code }) ∧
    (5 ≤ m.toNat → exec (.setMode m) s = .next (s.fatal 0x02)) ∧
    ∀ (v : Byte) (code : BitVec 3),
      withModeField Config.referenceRegs v code = (v &&& 0xE3) ||| (code.zeroExtend 8 <<< 2)

/-- R112, R121: GetMode returns the mode field of RegOpMode, in the reference map bits 4:2, GetRSSI the sample in dBm, each after one read. -/
def Obligations.ModeAndSignalStrengthReads : Prop :=
  ∀ s : State, s.Ready →
    exec .getMode s = .next { s with
      control := none, result := some (.modeCode (modeField s.cfg.regs (s.deviceAnswer s.cfg.regs.opMode))),
      devIn := s.devIn.tail,
      trace := s.trace ++ [readEvent s.cfg s.cfg.regs.opMode (s.deviceAnswer s.cfg.regs.opMode)] } ∧
    exec .getRssi s = .next { s with
      control := none, result := some (.dBm (rssiDbm s.cfg.rssiConv (s.deviceAnswer s.cfg.regs.rssiValue))),
      devIn := s.devIn.tail,
      trace := s.trace ++ [readEvent s.cfg s.cfg.regs.rssiValue (s.deviceAnswer s.cfg.regs.rssiValue)] } ∧
    ∀ v : Byte, modeField Config.referenceRegs v = v.extractLsb' 2 3 ∧
      rssiDbm .halfNegated v = -((v.toNat / 2 : Nat) : Int)

/-- R114 to R118: every predicate is one read and one bit of the answer, in the reference map the bit the rule names. -/
def Obligations.StatusPredicatesReadOneFlag : Prop :=
  ∀ (s : State) (v1 v2 : Byte), s.Ready → v1 = s.deviceAnswer s.cfg.regs.irqFlags1 →
    v2 = s.deviceAnswer s.cfg.regs.irqFlags2 →
    exec .isModeReady s = .next { s with
      control := none, result := some (.bool (modeReadyFlag s.cfg.regs v1)), devIn := s.devIn.tail,
      trace := s.trace ++ [readEvent s.cfg s.cfg.regs.irqFlags1 v1] } ∧
    exec .isPayloadReady s = .next { s with
      control := none, result := some (.bool (payloadReadyFlag s.cfg.regs v2)), devIn := s.devIn.tail,
      trace := s.trace ++ [readEvent s.cfg s.cfg.regs.irqFlags2 v2] } ∧
    exec .isPacketSent s = .next { s with
      control := none, result := some (.bool (packetSentFlag s.cfg.regs v2)), devIn := s.devIn.tail,
      trace := s.trace ++ [readEvent s.cfg s.cfg.regs.irqFlags2 v2] } ∧
    exec .isFifoNotEmpty s = .next { s with
      control := none, result := some (.bool (fifoNotEmptyFlag s.cfg.regs v2)), devIn := s.devIn.tail,
      trace := s.trace ++ [readEvent s.cfg s.cfg.regs.irqFlags2 v2] } ∧
    exec .isFifoFull s = .next { s with
      control := none, result := some (.bool (fifoFullFlag s.cfg.regs v2)), devIn := s.devIn.tail,
      trace := s.trace ++ [readEvent s.cfg s.cfg.regs.irqFlags2 v2] } ∧
    ∀ v : Byte, modeReadyFlag Config.referenceRegs v = v.getLsbD 7 ∧
      payloadReadyFlag Config.referenceRegs v = v.getLsbD 2 ∧ packetSentFlag Config.referenceRegs v = v.getLsbD 3 ∧
      fifoNotEmptyFlag Config.referenceRegs v = v.getLsbD 6 ∧ fifoFullFlag Config.referenceRegs v = v.getLsbD 7

/-- R119: a FIFO write tests the full flag before every byte, writes the bytes in order, stops early and logs at a full
FIFO, and returns the count. -/
def Obligations.WriteToFifo : Prop :=
  ∀ (buf flags dev : List Byte) (stop : Option Byte) (s : State), s.Ready → buf.length < 256 →
    fifoWriteAnswers s.cfg.regs buf.length flags stop → s.devIn = flags ++ stop.toList ++ dev →
    exec (.writeToFifo buf) s = .next { s with
      control := none, result := some (.count (BitVec.ofNat 8 flags.length)), devIn := dev,
      trace := s.trace ++ fifoWriteEvents s.cfg buf flags stop, log := s.log ++ fifoWriteLog stop }

/-- R120: a FIFO read tests the not-empty flag before every byte, never after the last, stops early and logs at an empty
FIFO, and returns the bytes in order. -/
def Obligations.ReadFromFifo : Prop :=
  ∀ (max : Byte) (got : List (Byte × Byte)) (stop : Option Byte) (dev : List Byte) (s : State), s.Ready →
    fifoReadAnswers s.cfg.regs max.toNat got stop → s.devIn = fifoReadScript got stop ++ dev →
    exec (.readFromFifo max) s = .next { s with
      control := none, result := some (.bytes (got.map Prod.snd)), devIn := dev,
      trace := s.trace ++ fifoReadEvents s.cfg got stop, log := s.log ++ fifoReadLog stop }

/-- R136, R137: RestartRx sets its bit of RegPacketConfig2, in the reference map bit 2; SetHighPowerSettings writes its
list in order, reading nothing. -/
def Obligations.RestartAndHighPower : Prop :=
  (∀ s : State, s.Ready →
    exec .restartRx s = .next { s with
      control := none, result := none, devIn := s.devIn.tail,
      trace := s.trace ++ [readEvent s.cfg s.cfg.regs.packetConfig2 (s.deviceAnswer s.cfg.regs.packetConfig2),
        writeEvent s.cfg s.cfg.regs.packetConfig2
          (withRestartRx s.cfg.regs (s.deviceAnswer s.cfg.regs.packetConfig2))] }) ∧
  (∀ (on : Bool) (s : State), s.Ready →
    exec (.setHighPowerSettings on) s = .next { s with
      control := none, result := none,
      trace := s.trace ++ (if on then s.cfg.hpOn else s.cfg.hpOff).map (fun x => writeEvent s.cfg x.1 x.2) }) ∧
  (∀ v : Byte, withRestartRx Config.referenceRegs v = v ||| 0x04) ∧
  Config.reference.hpOn = [(0x5A, 0x5D), (0x5C, 0x7C)] ∧ Config.reference.hpOff = [(0x5A, 0x55), (0x5C, 0x70)]

/-- R122: every setter checks its argument before any transaction, then writes whole registers plainly and fields by
read-modify-write, in order, for every valid_X and enc_X that a SetterSpec gives: that valid_X is a list of intervals and
enc_X a list of shifted fields or a table of writes by argument is the form log 30 gives them, which leaves out no
parameter. -/
def Obligations.SettersFollowTheCommonRule : Prop :=
  ∀ (i : Instr) (s : State) (spec : SetterSpec) (arg : BitVec 32) (writes : List RegWrite), s.Ready →
    setterOf s.cfg i = some (spec, arg) → writes = encWrites spec.enc arg →
    (∀ answers dev : List Byte, (∃ r ∈ spec.valid, r.1 ≤ arg.toNat ∧ arg.toNat ≤ r.2) →
      answers.length = setterReads writes → s.devIn = answers ++ dev →
      exec i s = .next { s with
        control := none, result := none, devIn := dev, trace := s.trace ++ setterEvents s.cfg writes answers }) ∧
    ((∀ r ∈ spec.valid, arg.toNat < r.1 ∨ r.2 < arg.toNat) → exec i s = .next (s.fatal 0x05))

/-- R124, R125, R129, R130, R138 with the rows of R123: the setters that write whole registers, the most significant
first, and read none. -/
def Obligations.WholeRegisterSetters : Prop :=
  ∀ s : State, s.Ready → s.cfg.setters = Config.referenceSetters →
    (∀ frf : BitVec 24, exec (.setCarrierFrequency frf) s = .next { s with
      control := none, result := none,
      trace := s.trace ++ [writeEvent s.cfg 0x07 (frf.extractLsb' 16 8), writeEvent s.cfg 0x08 (frf.extractLsb' 8 8),
        writeEvent s.cfg 0x09 (frf.extractLsb' 0 8)] }) ∧
    (∀ br : BitVec 16, br ≠ 0 → exec (.setBitRate br) s = .next { s with
      control := none, result := none,
      trace := s.trace ++ [writeEvent s.cfg 0x03 (br.extractLsb' 8 8), writeEvent s.cfg 0x04 (br.extractLsb' 0 8)] }) ∧
    exec (.setBitRate 0) s = .next (s.fatal 0x05) ∧
    (∀ a : Byte, exec (.setNodeAddress a) s = .next { s with
      control := none, result := none, trace := s.trace ++ [writeEvent s.cfg 0x39 a] }) ∧
    (∀ a : Byte, exec (.setBroadcastAddress a) s = .next { s with
      control := none, result := none, trace := s.trace ++ [writeEvent s.cfg 0x3A a] }) ∧
    (∀ n : BitVec 16, exec (.setPreambleLength n) s = .next { s with
      control := none, result := none,
      trace := s.trace ++ [writeEvent s.cfg 0x2C (n.extractLsb' 8 8), writeEvent s.cfg 0x2D (n.extractLsb' 0 8)] })

/-- R126, R127, R131 to R135 with the rows of R123: the setters that write a field and keep the other bits as read. -/
def Obligations.FieldSetters : Prop :=
  ∀ (s : State) (v : Byte) (dev : List Byte) (base : State), s.Ready → s.cfg.setters = Config.referenceSetters →
    s.devIn = v :: dev → base = { s with control := none, result := none, devIn := dev } →
    (∀ m : Byte, m.toNat ≤ 1 → exec (.setModulationType m) s = .next { base with
      trace := s.trace ++ [readEvent s.cfg 0x02 v, writeEvent s.cfg 0x02 ((v &&& 0xE7) ||| (m <<< 3))] }) ∧
    (∀ m : Byte, 1 < m.toNat → exec (.setModulationType m) s = .next (s.fatal 0x05)) ∧
    (∀ p : Byte, p.toNat ≤ 31 → exec (.setPowerLevel p) s = .next { base with
      trace := s.trace ++ [readEvent s.cfg 0x11 v, writeEvent s.cfg 0x11 ((v &&& 0xE0) ||| p)] }) ∧
    (∀ p : Byte, 31 < p.toNat → exec (.setPowerLevel p) s = .next (s.fatal 0x05)) ∧
    (∀ f : Byte, f.toNat ≤ 2 → exec (.setAddressFiltering f) s = .next { base with
      trace := s.trace ++ [readEvent s.cfg 0x37 v, writeEvent s.cfg 0x37 ((v &&& 0xF9) ||| (f <<< 1))] }) ∧
    (∀ f : Byte, 2 < f.toNat → exec (.setAddressFiltering f) s = .next (s.fatal 0x05)) ∧
    (∀ f : Byte, f.toNat ≤ 1 → exec (.setPacketFormat f) s = .next { base with
      trace := s.trace ++ [readEvent s.cfg 0x37 v, writeEvent s.cfg 0x37 ((v &&& 0x7F) ||| (f <<< 7))] }) ∧
    (∀ f : Byte, 1 < f.toNat → exec (.setPacketFormat f) s = .next (s.fatal 0x05)) ∧
    (∀ on : Bool, exec (.setCrc on) s = .next { base with
      trace := s.trace ++ [readEvent s.cfg 0x37 v,
        writeEvent s.cfg 0x37 ((v &&& 0xEF) ||| (if on then 0x10 else 0x00))] }) ∧
    (∀ on : Bool, exec (.setCrcAutoClear on) s = .next { base with
      trace := s.trace ++ [readEvent s.cfg 0x37 v,
        writeEvent s.cfg 0x37 ((v &&& 0xF7) ||| (if on then 0x00 else 0x08))] }) ∧
    (∀ c : Byte, c.toNat ≤ 1 → exec (.setFifoThresholdCondition c) s = .next { base with
      trace := s.trace ++ [readEvent s.cfg 0x3C v, writeEvent s.cfg 0x3C ((v &&& 0x7F) ||| (c <<< 7))] }) ∧
    (∀ c : Byte, 1 < c.toNat → exec (.setFifoThresholdCondition c) s = .next (s.fatal 0x05))

/-- R128: a sync word of the configured length without a zero byte is written after RegSyncConfig; any other is rejected
without a transaction. -/
def Obligations.SetSyncWord : Prop :=
  ∀ (word : List Byte) (s : State) (v : Byte), s.Ready → v = s.deviceAnswer s.cfg.regs.syncConfig →
    (word.length = s.cfg.syncLen ∧ (∀ b ∈ word, b ≠ 0) →
      exec (.setSyncWord word) s = .next { s with
        control := none, result := some (.bool true), devIn := s.devIn.tail,
        trace := s.trace ++ [readEvent s.cfg s.cfg.regs.syncConfig v,
          writeEvent s.cfg s.cfg.regs.syncConfig (withSyncSize s.cfg.regs v s.cfg.syncLen)]
          ++ word.mapIdx (fun i b => writeEvent s.cfg (s.cfg.regs.syncValue1 + BitVec.ofNat 8 i) b) }) ∧
    (word.length ≠ s.cfg.syncLen ∨ (0 : Byte) ∈ word →
      exec (.setSyncWord word) s = .next { s with
        control := none, result := some (.bool false), log := s.log ++ [(.error, 0x16)] }) ∧
    ∀ (old : Byte) (n : Nat),
      withSyncSize Config.referenceRegs old n = (old &&& 0x47) ||| 0x80 ||| (BitVec.ofNat 8 (n - 1) <<< 3)

/-! ## The wait -/

/-- R113: the start time and the first poll of a wait; one poll a step is the model's (log 1). -/
def Obligations.WaitForModeReadyFirstPoll : Prop :=
  ∀ (timeout t0 : Millis) (v : Byte) (dev : List Byte) (clk : List Millis) (s : State), s.Ready →
    s.devIn = v :: dev → s.clkIn = t0 :: clk →
    (modeReadyFlag s.cfg.regs v = true → exec (.waitForModeReady timeout) s = .next { s with
      control := none, result := some (.bool true), devIn := dev, clkIn := clk,
      trace := s.trace ++ [.clock t0, readEvent s.cfg s.cfg.regs.irqFlags1 v] }) ∧
    (∀ (t : Millis) (clk' : List Millis), modeReadyFlag s.cfg.regs v = false → clk = t :: clk' →
      (timeout.toNat ≤ (t - t0).toNat → exec (.waitForModeReady timeout) s = .next { s with
        control := none, result := some (.bool false), devIn := dev, clkIn := clk',
        trace := s.trace ++ [.clock t0, readEvent s.cfg s.cfg.regs.irqFlags1 v, .clock t],
        log := s.log ++ [(.warning, 0x11)] }) ∧
      ((t - t0).toNat < timeout.toNat → exec (.waitForModeReady timeout) s = .next { s with
        control := some (.wait ⟨t0, timeout, .operation⟩), result := none, devIn := dev, clkIn := clk',
        trace := s.trace ++ [.clock t0, readEvent s.cfg s.cfg.regs.irqFlags1 v, .clock t] }))

/-- R113: a whole wait: after any number of polls that find the flag clear before the deadline, it ends with true at a poll
that finds the flag set, and with false and a log event at a clock answer past the deadline. That each poll is a step is
the model's choice (log 1). -/
def Obligations.WaitForModeReadyRunsToItsEnd : Prop :=
  ∀ (timeout t0 : Millis) (polls : List (Byte × Millis)) (v : Byte) (dev : List Byte) (clk : List Millis) (s : State)
    (waited : List Event),
    s.Ready → s.validInstance = true →
    (∀ p ∈ polls, modeReadyFlag s.cfg.regs p.1 = false ∧ (p.2 - t0).toNat < timeout.toNat) →
    waited = .clock t0 :: polls.flatMap (fun p => [readEvent s.cfg s.cfg.regs.irqFlags1 p.1, .clock p.2]) →
    s.devIn = polls.map Prod.fst ++ v :: dev → s.clkIn = t0 :: polls.map Prod.snd ++ clk →
    (modeReadyFlag s.cfg.regs v = true → ∃ s1, exec (.waitForModeReady timeout) s = .next s1 ∧
      Host.Core.run Sys2Proof.core polls.length s1 = .next { s with
        control := none, result := some (.bool true), devIn := dev, clkIn := clk,
        trace := s.trace ++ waited ++ [readEvent s.cfg s.cfg.regs.irqFlags1 v] }) ∧
    (∀ (t : Millis) (clk' : List Millis), modeReadyFlag s.cfg.regs v = false → clk = t :: clk' →
      timeout.toNat ≤ (t - t0).toNat → ∃ s1, exec (.waitForModeReady timeout) s = .next s1 ∧
      Host.Core.run Sys2Proof.core polls.length s1 = .next { s with
        control := none, result := some (.bool false), devIn := dev, clkIn := clk',
        trace := s.trace ++ waited ++ [readEvent s.cfg s.cfg.regs.irqFlags1 v, .clock t],
        log := s.log ++ [(.warning, 0x11)] })

/-- R113, R166, R181, R182, R187, R191, R196, R197: a wait in progress polls once a step (the model's choice, log 1), and
what follows it is what its place says, at each of the seven places. -/
def Obligations.WaitGoesOnAtItsPlace : Prop :=
  ∀ (w : WaitFrame) (s : State), s.Ready → s.validInstance = true → s.control = some (.wait w) → s.result = none →
    (∀ t : State, pollGoesOn w.start w.timeout s t → step s = .next t) ∧
    (∀ (ready : Bool) (base : State), pollEnds w.start w.timeout { s with control := none } ready base →
      (w.after = .operation → step s = .next { base with result := some (.bool ready) }) ∧
      (w.after = .init → step s = .next base) ∧
      (w.after = .sleep → step s = .next { base with top := .sleeping }) ∧
      (w.after = .wakeup → step s = .next { base with
        top := if s.top = .sleeping then homeTop s.cfg else s.top }) ∧
      (w.after = .listenInit → step s = .next { base with
        top := if ready = true ∨ s.cfg.waitFail = .proceed then .listening .waiting
          else if s.cfg.waitFail = .abortToIdle then .idle else s.top }) ∧
      (w.after = .listenPayload → payloadWaitEnds ready base (step s)) ∧
      (w.after = .listenRearm → step s = .next { base with
        top := if ready = false ∧ s.cfg.waitFail = .abortToIdle then .idle else s.top }))

/-! ## Framing -/

/-- R150, R151, R152: the pure framing operations. That ComputeTotalSize gives 13 + size also for sizes 21 to 242, and a
free value beyond, is the model's choice (log 16): R151 states it for a validated content. -/
def Obligations.FramingOperations : Prop :=
  ∀ (h : Header) (c : Content) (s : State), s.halted = false →
    exec (.validateContentSize c) s = .next { s with
      control := none, result := some (.bool (decide (c.size.toNat ≤ 20))) } ∧
    (∃ n : Byte, exec (.computeTotalSize c) s = .next { s with control := none, result := some (.totalSize n) } ∧
      (c.size.toNat ≤ 242 → n.toNat = 13 + c.size.toNat)) ∧
    exec (.encodeFrame h c) s = .next { s with
      control := none,
      result := some (.wire [h.totalSize, h.target, h.source, if h.ackRequested then 0x01 else 0x00, h.rssi]
        (c.timestamp.take 6 ++ [c.type, c.size] ++ c.data.take c.size.toNat)) }

/-- R155, R75: DecodeFrame of a frame that passes the length checks; of any other bytes it still answers a frame, which
nothing is said about (the model's choice, log 15). Under RSSI_STAMP the rssi of a frame decoded on its own is free
(log 17). -/
def Obligations.DecodeFrameReadsTheFields : Prop :=
  ∀ (b : List Byte) (s : State), s.halted = false →
    ∃ (h : Header) (c : Content), exec (.decodeFrame b) s = .next { s with
        control := none, result := some (.frame h c), draws := s.draws + 1 } ∧
      (frameLengthsOk b → c = receivedContent b ∧ ∃ r, h = { receivedHeader s.cfg none b with rssi := r } ∧
        (s.cfg.rssiStamp = false → r = b.getD 4 0))

/-- R156: decoding what EncodeFrame gives for a staged frame gives the frame back. -/
def Obligations.FrameRoundTrip : Prop :=
  ∀ (p : Packet) (s : State), s.halted = false → s.cfg.rssiStamp = false → slotOk p = true → p ≠ zeroFrame →
    exec (.decodeFrame (headerBytes p.header ++ contentBytes p.content)) s = .next { s with
      control := none, result := some (.frame p.header p.content), draws := s.draws + 1 }

/-- R156, R209, R211: a staged frame whose bytes are in the receiver's FIFO reaches the handler of its type unchanged. The
read after the length ends early, because the length counts itself. -/
def Obligations.SentFrameIsDelivered : Prop :=
  ∀ (p : Packet) (first stop : Byte) (flags dev : List Byte) (hid : Byte) (r : Bool) (host : List HostAnswer)
    (got : List (Byte × Byte)) (s : State),
    s.Ready → s.cfg.rssiStamp = false → 34 ≤ s.cfg.fifoSize → slotOk p = true → p ≠ zeroFrame →
    p.content.type.toNat < s.numTypes → s.handlers[p.content.type.toNat]? = some (some hid) →
    got = flags.zip ((headerBytes p.header ++ contentBytes p.content).drop 1) →
    flags.length = 12 + p.content.size.toNat → (∀ f ∈ flags, fifoNotEmptyFlag s.cfg.regs f = true) →
    fifoNotEmptyFlag s.cfg.regs first = true → fifoNotEmptyFlag s.cfg.regs stop = false →
    s.devIn = first :: p.header.totalSize :: (fifoReadScript got (some stop) ++ dev) →
    s.hostIn = ⟨[], some r⟩ :: host →
    exec .handlePayload s = .next { s with
      control := none, result := some (.bool r), devIn := dev, hostIn := host, draws := s.draws + 1,
      log := s.log ++ [(.error, 0x13)],
      trace := s.trace ++ [readEvent s.cfg s.cfg.regs.irqFlags2 first, readEvent s.cfg s.cfg.regs.fifo p.header.totalSize]
        ++ fifoReadEvents s.cfg got (some stop)
        ++ [.handlerCall hid p.header p.content, .handlerReturn r] }

/-! ## Sending and handlers -/

/-- R29, R168, R179: the engine's predicates. -/
def Obligations.EnginePredicates : Prop :=
  (∀ s : State, s.halted = false →
    exec .packetToSend s = .next { s with
      control := none, result := some (.bool (s.slot.header.target != 0)) } ∧
    ∀ b : Bool, (b = true ↔ (∃ ss, s.top = .sending ss) ∨ s.top = .listening .receiving) →
      exec .isActive s = .next { s with control := none, result := some (.bool b) }) ∧
  (∀ s : State, s.Ready →
    (s.top ≠ .idle ∨ (s.cfg.stagePolicy = .reject ∧ s.slot.header.target ≠ 0) →
      exec .isReadyToSend s = .next { s with control := none, result := some (.bool false) }) ∧
    (s.top = .idle → (s.cfg.stagePolicy = .overwrite ∨ s.slot.header.target = 0) →
      exec .isReadyToSend s = .next { s with
        control := none,
        result := some (.bool (decide (rssiDbm s.cfg.rssiConv (s.deviceAnswer s.cfg.regs.rssiValue)
          < s.cfg.rssiThreshold))),
        devIn := s.devIn.tail,
        trace := s.trace ++ [readEvent s.cfg s.cfg.regs.rssiValue (s.deviceAnswer s.cfg.regs.rssiValue)] }))

/-- R171, R172: SEND in Idle on a quiet channel stages the packet, returns true and answers 0x01. -/
def Obligations.SendStagesThePacket : Prop :=
  ∀ (target cb source : Byte) (ack : Bool) (c : Content) (nodes : List Byte) (v : Byte) (s : State), s.Ready →
    c.operandOk = true → c.size.toNat ≤ 20 → s.top = .idle →
    (s.cfg.stagePolicy = .overwrite ∨ s.slot.header.target = 0) → v = s.deviceAnswer s.cfg.regs.rssiValue →
    rssiDbm s.cfg.rssiConv v < s.cfg.rssiThreshold → s.nodeIn = source :: nodes →
    exec (.send target ack cb c) s = .next { s with
      control := none, result := some (.bool true), devIn := s.devIn.tail, nodeIn := nodes,
      slot := ⟨⟨BitVec.ofNat 8 (13 + c.size.toNat), target, source, ack, 0⟩,
        ⟨c.timestamp, c.type, c.size, c.data ++ List.replicate (20 - c.size.toNat) 0⟩,
        if cb = 0 then none else some cb⟩,
      trace := s.trace ++ [readEvent s.cfg s.cfg.regs.rssiValue v, .nodeAddress source, .sendResult 0x01] }

/-- R168, R170, R172: SEND of an oversized content, outside Idle, over a staged packet under Reject, or on a busy channel
returns false, answers 0x00 and leaves the slot as it is. -/
def Obligations.SendRejects : Prop :=
  ∀ (target cb : Byte) (ack : Bool) (c : Content) (v : Byte) (s : State), s.Ready →
    v = s.deviceAnswer s.cfg.regs.rssiValue →
    (20 < c.size.toNat → exec (.send target ack cb c) s = .next { s with
      control := none, result := some (.bool false), trace := s.trace ++ [.sendResult 0x00],
      log := s.log ++ [(.error, 0x15)] }) ∧
    (c.size.toNat ≤ 20 → s.top ≠ .idle ∨ (s.cfg.stagePolicy = .reject ∧ s.slot.header.target ≠ 0) →
      exec (.send target ack cb c) s = .next { s with
        control := none, result := some (.bool false), trace := s.trace ++ [.sendResult 0x00],
        log := s.log ++ [(.debug, 0x1B)] }) ∧
    (c.size.toNat ≤ 20 → s.top = .idle → (s.cfg.stagePolicy = .overwrite ∨ s.slot.header.target = 0) →
      s.cfg.rssiThreshold ≤ rssiDbm s.cfg.rssiConv v →
      exec (.send target ack cb c) s = .next { s with
        control := none, result := some (.bool false), devIn := s.devIn.tail,
        trace := s.trace ++ [readEvent s.cfg s.cfg.regs.rssiValue v, .sendResult 0x00],
        log := s.log ++ [(.debug, 0x1B)] })

/-- R176: SET_HANDLER writes one entry of the handler table; a type out of range, then a null handler, is a fatal
assertion. -/
def Obligations.SetHandlerWritesOneEntry : Prop :=
  ∀ (type handler : Byte) (s : State), s.halted = false →
    (type.toNat < s.handlers.length → handler ≠ 0 → exec (.setHandler type handler) s = .next { s with
      control := none, result := none, handlers := s.handlers.set type.toNat (some handler) }) ∧
    (s.handlers.length ≤ type.toNat → exec (.setHandler type handler) s = .next (s.fatal 0x03)) ∧
    (type.toNat < s.handlers.length → exec (.setHandler type 0) s = .next (s.fatal 0x04))

/-- R63, R175, R186, R229: commands that the host issues during an upcall run in order, each to completion, and a stop of
one is the stop of them all: SEND returns false without a transaction and leaves the slot, SET_HANDLER writes its entry or
halts, and INIT, UPDATE and EVENT stop the command, which the next step refuses (that it is the next step is the model's
choice, log 13). An upcall that never returns holds the engine for any number of steps. -/
def Obligations.NestedCommands : Prop :=
  (∀ s : State, s.halted = false → s.control = none → s.result = none →
    (∀ (target cb : Byte) (ack : Bool) (c : Content), c.operandOk = true → s.top ≠ .idle →
      nestedCommand (encode (.send target ack cb c)).bytes s = .done () { s with
        trace := s.trace ++ [.sendResult 0x00],
        log := s.log ++ [if c.size.toNat ≤ 20 then (.debug, 0x1B) else (.error, 0x15)] }) ∧
    (∀ type handler : Byte, type.toNat < s.handlers.length → handler ≠ 0 →
      nestedCommand (encode (.setHandler type handler)).bytes s = .done () { s with
        handlers := s.handlers.set type.toNat (some handler) }) ∧
    (∀ type handler : Byte, s.handlers.length ≤ type.toNat →
      nestedCommand (encode (.setHandler type handler)).bytes s = .stop (s.fatal 0x03)) ∧
    (∀ type : Byte, type.toNat < s.handlers.length →
      nestedCommand (encode (.setHandler type 0)).bytes s = .stop (s.fatal 0x04)) ∧
    (∀ i : Instr, (i = .init ∨ i = .update ∨ ∃ k, i = .event k) →
      nestedCommand (encode i).bytes s = .stop { s with control := some (.refusal (.reentrantCommand i)) } ∧
      (s.validInstance = true →
        step { s with control := some (.refusal (.reentrantCommand i)) } = .refused (.reentrantCommand i))) ∧
    nestedCommands [] s = .done () s ∧
    (∀ (b : List Byte) (rest : List (List Byte)) (t : State),
      (nestedCommand b s = .done () t → nestedCommands (b :: rest) s = nestedCommands rest t) ∧
      (nestedCommand b s = .stop t → nestedCommands (b :: rest) s = .stop t))) ∧
  (∀ (n : Nat) (s : State), s.halted = false → s.validInstance = true → s.control = some .held →
    Host.Core.run Sys2Proof.core n s = .next s)

/-! ## Receiving -/

/-- R208, R209: no length byte, or an oversized one, ends HandlePayload with false and leaves the rest of the FIFO. -/
def Obligations.HandlePayloadRejectsTheLength : Prop :=
  ∀ (f : Byte) (rest : List Byte) (s : State), s.Ready → s.devIn = f :: rest →
    (fifoNotEmptyFlag s.cfg.regs f = false → exec .handlePayload s = .next { s with
      control := none, result := some (.bool false), devIn := rest,
      trace := s.trace ++ [readEvent s.cfg s.cfg.regs.irqFlags2 f],
      log := s.log ++ [(.error, 0x13), (.error, 0x1A)] }) ∧
    (∀ (n : Byte) (dev : List Byte), fifoNotEmptyFlag s.cfg.regs f = true → rest = n :: dev →
      s.cfg.fifoSize < n.toNat + 1 →
      exec .handlePayload s = .next { s with
        control := none, result := some (.bool false), devIn := dev,
        trace := s.trace ++ [readEvent s.cfg s.cfg.regs.irqFlags2 f, readEvent s.cfg s.cfg.regs.fifo n],
        log := s.log ++ [(.error, 0x14)] })

/-- R154, R175, R186, R208 to R211: a frame within the FIFO's size is dropped where its lengths do not fit, ignored where
its type is out of range or has no handler, and else given to the handler of its type once, whose nested commands run
before it returns and whose answer is the result. Under RX_STRICT = false a frame whose lengths do not fit is dispatched
with the bytes it lacks drawn. That the local sample is read for a dropped frame too follows R208 against R263 (log 18),
how a frame that lacks bytes is drawn is log 15's, and where a handler that never returns stops is log 5's. -/
def Obligations.HandlePayloadDispatches : Prop :=
  ∀ (f n : Byte) (got : List (Byte × Byte)) (stop sample : Option Byte) (dev b : List Byte) (s base : State), s.Ready →
    s.cfg.rssiStamp = sample.isSome → fifoNotEmptyFlag s.cfg.regs f = true → n.toNat + 1 ≤ s.cfg.fifoSize →
    fifoReadAnswers s.cfg.regs n.toNat got stop → b = n :: got.map Prod.snd →
    s.devIn = f :: n :: (fifoReadScript got stop ++ sample.toList ++ dev) →
    base = { s with
      control := none, result := some (.bool false), devIn := dev,
      trace := s.trace ++ [readEvent s.cfg s.cfg.regs.irqFlags2 f, readEvent s.cfg s.cfg.regs.fifo n]
        ++ fifoReadEvents s.cfg got stop ++ sample.toList.map (readEvent s.cfg s.cfg.regs.rssiValue),
      log := s.log ++ fifoReadLog stop } →
    (¬ frameLengthsOk b → s.cfg.rxStrict = true →
      exec .handlePayload s = .next { base with log := base.log ++ [(.warning, 0x18)] }) ∧
    (frameLengthsOk b ∨ s.cfg.rxStrict = false → ∃ (h : Header) (c : Content),
      (frameLengthsOk b → h = receivedHeader s.cfg sample b ∧ c = receivedContent b) ∧
      (¬ frameLengthsOk b → carriesReceived s.cfg sample b h c) ∧
      (s.numTypes ≤ c.type.toNat →
        exec .handlePayload s = .next { base with draws := s.draws + 1, log := base.log ++ [(.debug, 0x19)] }) ∧
      (s.handlers[c.type.toNat]? = some none →
        exec .handlePayload s = .next { base with draws := s.draws + 1, log := base.log ++ [(.warning, 0x17)] }) ∧
      (∀ (hid : Byte) (r : Bool) (host : List HostAnswer), s.handlers[c.type.toNat]? = some (some hid) →
        s.hostIn = ⟨[], some r⟩ :: host →
        exec .handlePayload s = .next { base with
          draws := s.draws + 1, hostIn := host, result := some (.bool r),
          trace := base.trace ++ [.handlerCall hid h c, .handlerReturn r] }) ∧
      (∀ (hid : Byte) (nested : List (List Byte)) (answer : Option Bool) (host : List HostAnswer) (u w : State),
        s.handlers[c.type.toNat]? = some (some hid) → s.hostIn = ⟨nested, answer⟩ :: host →
        u = { base with
          draws := s.draws + 1, hostIn := host, result := none, trace := base.trace ++ [.handlerCall hid h c] } →
        (∀ r, nestedCommands nested u = .done () w → answer = some r →
          exec .handlePayload s = .next { w with
            result := some (.bool r), trace := w.trace ++ [.handlerReturn r] }) ∧
        (nestedCommands nested u = .done () w → answer = none →
          exec .handlePayload s = .next { w with control := some .held }) ∧
        (nestedCommands nested u = .stop w → exec .handlePayload s = .next w)))

/-! ## Ticks -/

/-- R177, R178, R194, R201: UPDATE runs the tick action that the state word selects. -/
def Obligations.UpdateRunsTheTickOfItsState : Prop :=
  ∀ s : State, exec .update s = exec (tickOf s.top) s ∧ decode ⟨.state, [s.stateWord]⟩ = .ok (tickOf s.top)

/-- R193: the Idle tick starts Sending for a staged packet and performs no transaction. -/
def Obligations.TickIdleStartsSending : Prop :=
  ∀ s t : State, s.halted = false →
    t = { s with
      control := none, result := none, top := if s.slot.header.target ≠ 0 then .sending .init else s.top } →
    exec .tickIdle s = .next t ∧ (s.top = .idle → exec .update s = .next t)

/-- R198, R200, R206: the tick actions that do nothing. -/
def Obligations.EmptyTicks : Prop :=
  ∀ s t : State, s.halted = false → t = { s with control := none, result := none } →
    exec .tickListeningReceiving s = .next t ∧ exec .tickListeningDone s = .next t ∧ exec .tickSendingDone s = .next t

/-- R199, R202: SendAck goes back to Init once the mode is ready, without sending anything; Sending(Init) switches to
Standby without a wait. -/
def Obligations.SendAckAndSendingInitTicks : Prop :=
  ∀ (v w : Byte) (s : State), s.Ready → v = s.deviceAnswer s.cfg.regs.irqFlags1 →
    w = s.deviceAnswer s.cfg.regs.opMode →
    exec .tickListeningSendAck s = .next { s with
      control := none, result := none, devIn := s.devIn.tail,
      trace := s.trace ++ [readEvent s.cfg s.cfg.regs.irqFlags1 v],
      top := if modeReadyFlag s.cfg.regs v then .listening .init else s.top } ∧
    exec .tickSendingInit s = .next { s with
      control := none, result := none, devIn := s.devIn.tail,
      trace := s.trace ++ modeEvents s.cfg w s.cfg.modeCodes.standby, top := .sending .writing }

/-- R203: without mode-ready one read and nothing else; with it the header bytes, then the content bytes go into the FIFO
as far as it takes them, then the transmitter and high power go on, and the state advances even after a short write. -/
def Obligations.TickSendingWritingSendsTheFrame : Prop :=
  ∀ (f v : Byte) (hf cf dev : List Byte) (hs cs : Option Byte) (s : State), s.Ready →
    (s.devIn = f :: dev → modeReadyFlag s.cfg.regs f = false →
      exec .tickSendingWriting s = .next { s with
        control := none, result := none, devIn := dev, trace := s.trace ++ [readEvent s.cfg s.cfg.regs.irqFlags1 f] }) ∧
    (s.devIn = f :: (hf ++ hs.toList ++ cf ++ cs.toList ++ v :: dev) → modeReadyFlag s.cfg.regs f = true →
      fifoWriteAnswers s.cfg.regs 5 hf hs → fifoWriteAnswers s.cfg.regs (contentBytes s.slot.content).length cf cs →
      exec .tickSendingWriting s = .next { s with
        control := none, result := none, devIn := dev, top := .sending .transmitting,
        trace := s.trace ++ [readEvent s.cfg s.cfg.regs.irqFlags1 f]
          ++ fifoWriteEvents s.cfg (headerBytes s.slot.header) hf hs
          ++ fifoWriteEvents s.cfg (contentBytes s.slot.content) cf cs
          ++ modeEvents s.cfg v s.cfg.modeCodes.transmitter ++ highPowerEvents s.cfg true,
        log := s.log ++ fifoWriteLog hs ++ fifoWriteLog cs })

/-- R204: without packet-sent one read and nothing else; with it, for a frame that asks for an ACK, Receiver, high power
off and WaitForAck; for any other, the callback with true, then the slot zeroed and Idle. The callback's nested commands
run before it returns; a fatal assertion of one, and a callback that never returns, end the tick there (R175, R186, R229;
where it then stays, log 5). -/
def Obligations.TickSendingTransmittingEnds : Prop :=
  ∀ (f : Byte) (rest : List Byte) (s : State), s.Ready → s.devIn = f :: rest →
    (packetSentFlag s.cfg.regs f = false → exec .tickSendingTransmitting s = .next { s with
      control := none, result := none, devIn := rest, trace := s.trace ++ [readEvent s.cfg s.cfg.regs.irqFlags2 f] }) ∧
    (∀ (v : Byte) (dev : List Byte), packetSentFlag s.cfg.regs f = true → s.slot.header.ackRequested = true →
      rest = v :: dev →
      exec .tickSendingTransmitting s = .next { s with
        control := none, result := none, devIn := dev, top := .sending .waitForAck,
        trace := s.trace ++ [readEvent s.cfg s.cfg.regs.irqFlags2 f]
          ++ modeEvents s.cfg v s.cfg.modeCodes.receiver ++ highPowerEvents s.cfg false }) ∧
    (packetSentFlag s.cfg.regs f = true → s.slot.header.ackRequested = false → s.slot.callback = none →
      exec .tickSendingTransmitting s = .next { s with
        control := none, result := none, devIn := rest, top := .idle, slot := zeroFrame,
        trace := s.trace ++ [readEvent s.cfg s.cfg.regs.irqFlags2 f] }) ∧
    (∀ (cb : Byte) (r : Bool) (host : List HostAnswer), packetSentFlag s.cfg.regs f = true →
      s.slot.header.ackRequested = false → s.slot.callback = some cb → s.hostIn = ⟨[], some r⟩ :: host →
      exec .tickSendingTransmitting s = .next { s with
        control := none, result := none, devIn := rest, hostIn := host, top := .idle, slot := zeroFrame,
        trace := s.trace ++ [readEvent s.cfg s.cfg.regs.irqFlags2 f, .callback cb true] }) ∧
    (∀ (cb : Byte) (nested : List (List Byte)) (answer : Option Bool) (host : List HostAnswer) (u w : State),
      packetSentFlag s.cfg.regs f = true → s.slot.header.ackRequested = false → s.slot.callback = some cb →
      s.hostIn = ⟨nested, answer⟩ :: host →
      u = { s with
        control := none, result := none, devIn := rest, hostIn := host,
        trace := s.trace ++ [readEvent s.cfg s.cfg.regs.irqFlags2 f, .callback cb true] } →
      (nestedCommands nested u = .done () w → answer ≠ none →
        exec .tickSendingTransmitting s = .next { w with top := .idle, slot := zeroFrame }) ∧
      (nestedCommands nested u = .done () w → answer = none →
        exec .tickSendingTransmitting s = .next { w with control := some .held }) ∧
      (nestedCommands nested u = .stop w → exec .tickSendingTransmitting s = .next w) ∧
      (∀ (type handler : Byte) (more : List (List Byte)), nested = [0x04, type, handler] :: more →
        s.handlers.length ≤ type.toNat →
        exec .tickSendingTransmitting s = .next { u with
          halted := true, faultCode := 0x03, log := u.log ++ [(.critical, 0x03)] }))

/-- R205: without a payload one read and nothing else; with any payload HandlePayload, whose result does not matter, then
Standby, the slot zeroed without its callback, and Idle. -/
def Obligations.TickWaitForAckEndsOnAnyPayload : Prop :=
  ∀ (f : Byte) (rest : List Byte) (s u : State), s.Ready → s.devIn = f :: rest →
    u = { s with
      control := none, result := none, devIn := rest, trace := s.trace ++ [readEvent s.cfg s.cfg.regs.irqFlags2 f] } →
    (payloadReadyFlag s.cfg.regs f = false → exec .tickSendingWaitForAck s = .next u) ∧
    (∀ (g n v : Byte) (dev : List Byte), payloadReadyFlag s.cfg.regs f = true →
      fifoNotEmptyFlag s.cfg.regs g = true → rest = g :: n :: v :: dev → s.cfg.fifoSize < n.toNat + 1 →
      exec .tickSendingWaitForAck s = .next { s with
        control := none, result := none, devIn := dev, top := .idle, slot := zeroFrame,
        trace := s.trace ++ [readEvent s.cfg s.cfg.regs.irqFlags2 f, readEvent s.cfg s.cfg.regs.irqFlags2 g,
          readEvent s.cfg s.cfg.regs.fifo n] ++ modeEvents s.cfg v s.cfg.modeCodes.standby,
        log := s.log ++ [(.error, 0x14)] }) ∧
    (∀ t : State, payloadReadyFlag s.cfg.regs f = true → exec .handlePayload u = .next t → t.halted = false →
      t.control = none →
      exec .tickSendingWaitForAck s = .next { t with
        result := none, devIn := t.devIn.tail, top := .idle, slot := zeroFrame,
        trace := t.trace ++ modeEvents s.cfg (t.deviceAnswer s.cfg.regs.opMode) s.cfg.modeCodes.standby })

/-- R207: the Sleeping tick puts the device back into Sleep where the engine is not active, the device is not in Sleep
already and its mode is ready, tested in this order, and never changes the state. -/
def Obligations.TickSleepingKeepsTheDeviceAsleep : Prop :=
  ∀ (m f v : Byte) (dev rest : List Byte) (s : State), s.Ready →
    ((∃ ss, s.top = .sending ss) ∨ s.top = .listening .receiving →
      exec .tickSleeping s = .next { s with control := none, result := none }) ∧
    ((∀ ss, s.top ≠ .sending ss) → s.top ≠ .listening .receiving → s.devIn = m :: rest →
      (modeField s.cfg.regs m = s.cfg.modeCodes.sleep → exec .tickSleeping s = .next { s with
        control := none, result := none, devIn := rest, trace := s.trace ++ [readEvent s.cfg s.cfg.regs.opMode m] }) ∧
      (modeField s.cfg.regs m ≠ s.cfg.modeCodes.sleep → rest = f :: v :: dev →
        (modeReadyFlag s.cfg.regs f = false → exec .tickSleeping s = .next { s with
          control := none, result := none, devIn := v :: dev,
          trace := s.trace ++ [readEvent s.cfg s.cfg.regs.opMode m, readEvent s.cfg s.cfg.regs.irqFlags1 f] }) ∧
        (modeReadyFlag s.cfg.regs f = true → exec .tickSleeping s = .next { s with
          control := none, result := none, devIn := dev,
          trace := s.trace ++ [readEvent s.cfg s.cfg.regs.opMode m, readEvent s.cfg s.cfg.regs.irqFlags1 f]
            ++ modeEvents s.cfg v s.cfg.modeCodes.sleep })))

/-- R196, R191: a stale payload restarts the receiver; high power off, then Receiver, then the wait; what follows a failed
wait is WAIT_FAIL's; a wait that is not over goes on in the next step (the model's choice, log 1). -/
def Obligations.TickListeningInitArmsTheReceiver : Prop :=
  ∀ (f p v i : Byte) (dev : List Byte) (t0 : Millis) (clk : List Millis) (s base : State), s.Ready →
    s.devIn = f :: ((if payloadReadyFlag s.cfg.regs f then [p] else []) ++ v :: i :: dev) → s.clkIn = t0 :: clk →
    base = { s with
      control := none, result := none, devIn := dev, clkIn := clk,
      trace := s.trace ++ [readEvent s.cfg s.cfg.regs.irqFlags2 f]
        ++ (if payloadReadyFlag s.cfg.regs f then
            [readEvent s.cfg s.cfg.regs.packetConfig2 p,
              writeEvent s.cfg s.cfg.regs.packetConfig2 (withRestartRx s.cfg.regs p)] else [])
        ++ highPowerEvents s.cfg false ++ modeEvents s.cfg v s.cfg.modeCodes.receiver
        ++ [.clock t0, readEvent s.cfg s.cfg.regs.irqFlags1 i] } →
    (modeReadyFlag s.cfg.regs i = true → exec .tickListeningInit s = .next { base with top := .listening .waiting }) ∧
    (∀ (t : Millis) (clk' : List Millis), modeReadyFlag s.cfg.regs i = false → clk = t :: clk' →
      (s.cfg.timeoutMs.toNat ≤ (t - t0).toNat → exec .tickListeningInit s = .next { base with
        clkIn := clk', trace := base.trace ++ [.clock t], log := s.log ++ [(.warning, 0x11)],
        top := match s.cfg.waitFail with
          | .proceed => .listening .waiting
          | .stall => s.top
          | .abortToIdle => .idle }) ∧
      ((t - t0).toNat < s.cfg.timeoutMs.toNat → exec .tickListeningInit s = .next { base with
        clkIn := clk', trace := base.trace ++ [.clock t],
        control := some (.wait ⟨t0, s.cfg.timeoutMs, .listenInit⟩) }))

/-- R197, R191, R209, R211, R212: without a payload one read and nothing else; with one, Standby, the wait, HandlePayload,
whose result does not matter, then Receiver and the wait again. With both waits ready the tick completes, for a payload
that is rejected and for a frame that reaches its handler. Failed waits do what WAIT_FAIL says, a wait that is not over
goes on in the next step (the model's choice, log 1). -/
def Obligations.TickListeningWaitingHandlesThePayload : Prop :=
  ∀ (f v i : Byte) (dev : List Byte) (t0 t1 : Millis) (clk : List Millis) (s u : State), s.Ready →
    (s.devIn = f :: dev → payloadReadyFlag s.cfg.regs f = false → exec .tickListeningWaiting s = .next { s with
      control := none, result := none, devIn := dev,
      trace := s.trace ++ [readEvent s.cfg s.cfg.regs.irqFlags2 f] }) ∧
    (∀ g n w j : Byte, s.devIn = f :: v :: i :: g :: n :: w :: j :: dev → s.clkIn = t0 :: t1 :: clk →
      payloadReadyFlag s.cfg.regs f = true → modeReadyFlag s.cfg.regs i = true →
      fifoNotEmptyFlag s.cfg.regs g = true → s.cfg.fifoSize < n.toNat + 1 → modeReadyFlag s.cfg.regs j = true →
      exec .tickListeningWaiting s = .next { s with
        control := none, result := none, devIn := dev, clkIn := clk, log := s.log ++ [(.error, 0x14)],
        trace := s.trace ++ [readEvent s.cfg s.cfg.regs.irqFlags2 f] ++ modeEvents s.cfg v s.cfg.modeCodes.standby
          ++ [.clock t0, readEvent s.cfg s.cfg.regs.irqFlags1 i, readEvent s.cfg s.cfg.regs.irqFlags2 g,
            readEvent s.cfg s.cfg.regs.fifo n] ++ modeEvents s.cfg w s.cfg.modeCodes.receiver
          ++ [.clock t1, readEvent s.cfg s.cfg.regs.irqFlags1 j] }) ∧
    (∀ (g n w j hid : Byte) (r : Bool) (got : List (Byte × Byte)) (stop sample : Option Byte) (b : List Byte)
      (host : List HostAnswer),
      s.devIn = f :: v :: i :: g :: n :: (fifoReadScript got stop ++ sample.toList ++ w :: j :: dev) →
      s.clkIn = t0 :: t1 :: clk → payloadReadyFlag s.cfg.regs f = true → modeReadyFlag s.cfg.regs i = true →
      fifoNotEmptyFlag s.cfg.regs g = true → n.toNat + 1 ≤ s.cfg.fifoSize →
      fifoReadAnswers s.cfg.regs n.toNat got stop → s.cfg.rssiStamp = sample.isSome → b = n :: got.map Prod.snd →
      frameLengthsOk b → s.handlers[(b.getD 11 0).toNat]? = some (some hid) → s.hostIn = ⟨[], some r⟩ :: host →
      modeReadyFlag s.cfg.regs j = true →
      exec .tickListeningWaiting s = .next { s with
        control := none, result := none, devIn := dev, clkIn := clk, hostIn := host, draws := s.draws + 1,
        log := s.log ++ fifoReadLog stop,
        trace := s.trace ++ [readEvent s.cfg s.cfg.regs.irqFlags2 f] ++ modeEvents s.cfg v s.cfg.modeCodes.standby
          ++ [.clock t0, readEvent s.cfg s.cfg.regs.irqFlags1 i, readEvent s.cfg s.cfg.regs.irqFlags2 g,
            readEvent s.cfg s.cfg.regs.fifo n] ++ fifoReadEvents s.cfg got stop
          ++ sample.toList.map (readEvent s.cfg s.cfg.regs.rssiValue)
          ++ [.handlerCall hid (receivedHeader s.cfg sample b) (receivedContent b), .handlerReturn r]
          ++ modeEvents s.cfg w s.cfg.modeCodes.receiver ++ [.clock t1, readEvent s.cfg s.cfg.regs.irqFlags1 j] }) ∧
    (s.devIn = f :: v :: dev → s.clkIn = t0 :: clk → payloadReadyFlag s.cfg.regs f = true →
      u = { s with trace := s.trace ++ [readEvent s.cfg s.cfg.regs.irqFlags2 f] } →
      (∀ x : State, pollGoesOn t0 s.cfg.timeoutMs (u.modeWait s.cfg.modeCodes.standby v dev t0 clk) x →
        exec .tickListeningWaiting s = .next { x with
          control := some (.wait ⟨t0, s.cfg.timeoutMs, .listenPayload⟩) }) ∧
      (∀ (ready : Bool) (x : State),
        pollEnds t0 s.cfg.timeoutMs (u.modeWait s.cfg.modeCodes.standby v dev t0 clk) ready x →
        payloadWaitEnds ready x (exec .tickListeningWaiting s)))

/-! ## Init and events -/

/-- R166, R192, with the setters of R123: Init's whole sequence, for a sync word that is accepted and for one that is not,
the slot zeroed and the engine in HOME; the NotInitialized tick logs a warning first. A failed wait is only logged; one
that is not over goes on in the next step (the model's choice, log 1). -/
def Obligations.InitConfiguresAndEntersHome : Prop :=
  ∀ (a : InitAnswers) (word : List Byte) (node bcast i : Byte) (dev nodes bcasts : List Byte) (nets : List (List Byte))
    (t0 : Millis) (clk : List Millis) (s base : State),
    s.Ready → s.cfg.setters = Config.referenceSetters → initArgsOk s.cfg = true →
    s.devIn = a.script (syncWordValid s.cfg word) ++ i :: dev → s.netIn = word :: nets → s.nodeIn = node :: nodes →
    s.bcastIn = bcast :: bcasts → s.clkIn = t0 :: clk →
    base = { s with
      control := none, result := none, devIn := dev, netIn := nets, nodeIn := nodes, bcastIn := bcasts, clkIn := clk,
      slot := zeroFrame, top := homeTop s.cfg,
      trace := s.trace ++ initEvents s.cfg a word node bcast ++ [.clock t0, readEvent s.cfg s.cfg.regs.irqFlags1 i] } →
    (modeReadyFlag s.cfg.regs i = true →
      exec .init s = .next { base with
        log := s.log ++ syncLog s.cfg word } ∧
      exec .tickNotInitialized s = .next { base with
        log := s.log ++ (.warning, 0x10) :: syncLog s.cfg word }) ∧
    (∀ (t : Millis) (clk' : List Millis), modeReadyFlag s.cfg.regs i = false → clk = t :: clk' →
      (s.cfg.timeoutMs.toNat ≤ (t - t0).toNat →
        exec .init s = .next { base with
          clkIn := clk', trace := base.trace ++ [.clock t], log := s.log ++ syncLog s.cfg word ++ [(.warning, 0x11)] } ∧
        exec .tickNotInitialized s = .next { base with
          clkIn := clk', trace := base.trace ++ [.clock t],
          log := s.log ++ (.warning, 0x10) :: syncLog s.cfg word ++ [(.warning, 0x11)] }) ∧
      ((t - t0).toNat < s.cfg.timeoutMs.toNat →
        exec .init s = .next { base with
          clkIn := clk', trace := base.trace ++ [.clock t], log := s.log ++ syncLog s.cfg word,
          control := some (.wait ⟨t0, s.cfg.timeoutMs, .init⟩) } ∧
        exec .tickNotInitialized s = .next { base with
          clkIn := clk', trace := base.trace ++ [.clock t], log := s.log ++ (.warning, 0x10) :: syncLog s.cfg word,
          control := some (.wait ⟨t0, s.cfg.timeoutMs, .init⟩) }))

/-- R166, R223, with the setters of R123: a CFG argument out of range (bit rate, modulation, power level, address
filtering, packet format, FIFO condition) halts Init at its setter; what happened before it stays, and neither the slot nor
the top-level state is written. -/
def Obligations.InitHaltsAtAnArgumentOutOfRange : Prop :=
  ∀ (a : InitAnswers) (word : List Byte) (node bcast : Byte) (dev nodes bcasts : List Byte) (nets : List (List Byte))
    (s : State) (sync : List Byte),
    s.Ready → s.cfg.setters = Config.referenceSetters →
    sync = (if syncWordValid s.cfg word then [a.syncConfig] else []) →
    (s.devIn = dev → s.cfg.cfgBitRate.toNat < 1 →
      exec .init s = .next (s.initHalted dev ((rateEvents s.cfg).take 3) [])) ∧
    (s.devIn = dev → 1 ≤ s.cfg.cfgBitRate.toNat → 1 < s.cfg.cfgModulation.toNat →
      exec .init s = .next (s.initHalted dev (rateEvents s.cfg) [])) ∧
    (s.devIn = a.dataModul :: dev → 1 ≤ s.cfg.cfgBitRate.toNat → s.cfg.cfgModulation.toNat ≤ 1 →
      31 < s.cfg.cfgPower.toNat →
      exec .init s = .next (s.initHalted dev (rateEvents s.cfg ++ modulationEvents s.cfg a.dataModul) [])) ∧
    (1 ≤ s.cfg.cfgBitRate.toNat → s.cfg.cfgModulation.toNat ≤ 1 → s.cfg.cfgPower.toNat ≤ 31 → s.netIn = word :: nets →
      s.nodeIn = node :: nodes → s.bcastIn = bcast :: bcasts → ∀ (x : State) (before : List Event),
      x = { s with netIn := nets, nodeIn := nodes, bcastIn := bcasts } →
      before = rateEvents s.cfg ++ modulationEvents s.cfg a.dataModul ++ addressEvents s.cfg a word node bcast →
      (s.devIn = [a.dataModul, a.paLevel] ++ sync ++ dev → 2 < s.cfg.cfgAddrFilter.toNat →
        exec .init s = .next (x.initHalted dev before (syncLog s.cfg word))) ∧
      (s.devIn = [a.dataModul, a.paLevel] ++ sync ++ a.filter :: dev → s.cfg.cfgAddrFilter.toNat ≤ 2 →
        1 < s.cfg.cfgPacketFormat.toNat →
        exec .init s = .next
          (x.initHalted dev (before ++ filteringEvents s.cfg a.filter) (syncLog s.cfg word))) ∧
      (s.devIn = [a.dataModul, a.paLevel] ++ sync ++ a.filter :: a.format :: a.crc :: a.autoClear :: dev →
        s.cfg.cfgAddrFilter.toNat ≤ 2 → s.cfg.cfgPacketFormat.toNat ≤ 1 → 1 < s.cfg.cfgFifoCond.toNat →
        exec .init s = .next
          (x.initHalted dev (before ++ filteringEvents s.cfg a.filter ++ packetEvents s.cfg a) (syncLog s.cfg word))))

/-- R81, R180 to R183, R187: Sleep, where nothing is active, forces Sleep mode and enters Sleeping after the wait; Wakeup
forces Standby and enters HOME from Sleeping only; a failed wait is only logged, one that is not over goes on in the next
step (the model's choice, log 1); every other kind has no effect. -/
def Obligations.EventsSleepAndWake : Prop :=
  ∀ s : State, s.Ready →
    (∀ k : Byte, k ≠ 1 → k ≠ 2 → exec (.event k) s = .next { s with control := none, result := none }) ∧
    (∀ (v i : Byte) (dev : List Byte) (t0 : Millis) (clk : List Millis), s.devIn = v :: i :: dev → s.clkIn = t0 :: clk →
      (modeReadyFlag s.cfg.regs i = true →
        ((∀ ss, s.top ≠ .sending ss) → s.top ≠ .listening .receiving →
          exec (.event 1) s = .next { s.modePoll s.cfg.modeCodes.sleep v i dev t0 clk with top := .sleeping }) ∧
        exec (.event 2) s = .next { s.modePoll s.cfg.modeCodes.standby v i dev t0 clk with
          top := if s.top = .sleeping then homeTop s.cfg else s.top }) ∧
      (∀ (t : Millis) (clk' : List Millis), modeReadyFlag s.cfg.regs i = false → clk = t :: clk' →
        (s.cfg.timeoutMs.toNat ≤ (t - t0).toNat →
          ((∀ ss, s.top ≠ .sending ss) → s.top ≠ .listening .receiving →
            exec (.event 1) s = .next { s.modePoll s.cfg.modeCodes.sleep v i dev t0 clk' with
              top := .sleeping, log := s.log ++ [(.warning, 0x11)],
              trace := (s.modePoll s.cfg.modeCodes.sleep v i dev t0 clk').trace ++ [.clock t] }) ∧
          exec (.event 2) s = .next { s.modePoll s.cfg.modeCodes.standby v i dev t0 clk' with
            top := if s.top = .sleeping then homeTop s.cfg else s.top, log := s.log ++ [(.warning, 0x11)],
            trace := (s.modePoll s.cfg.modeCodes.standby v i dev t0 clk').trace ++ [.clock t] }) ∧
        ((t - t0).toNat < s.cfg.timeoutMs.toNat →
          ((∀ ss, s.top ≠ .sending ss) → s.top ≠ .listening .receiving →
            exec (.event 1) s = .next { s.modePoll s.cfg.modeCodes.sleep v i dev t0 clk' with
              control := some (.wait ⟨t0, s.cfg.timeoutMs, .sleep⟩),
              trace := (s.modePoll s.cfg.modeCodes.sleep v i dev t0 clk').trace ++ [.clock t] }) ∧
          exec (.event 2) s = .next { s.modePoll s.cfg.modeCodes.standby v i dev t0 clk' with
            control := some (.wait ⟨t0, s.cfg.timeoutMs, .wakeup⟩),
            trace := (s.modePoll s.cfg.modeCodes.standby v i dev t0 clk').trace ++ [.clock t] })))

/-- R181, R184, R254: while the engine is active a Sleep event performs one whole Update after another, one in each step
(the model's choice, log 1), with no cap; in Sending(Done) it never ends. -/
def Obligations.SleepDrainsByUpdates : Prop :=
  (∀ s t : State, s.halted = false → (∃ ss, s.top = .sending ss) ∨ s.top = .listening .receiving →
    exec .update s = .next t → t.halted = false → t.control = none →
    exec (.event 1) s = .next { t with control := some .drain }) ∧
  (∀ s : State, s.halted = false → s.validInstance = true → s.control = some .drain → s.result = none →
    step s = exec (.event 1) { s with control := none }) ∧
  (∀ (n : Nat) (s : State), s.halted = false → s.validInstance = true → s.control = some .drain → s.result = none →
    s.top = .sending .done → Host.Core.run Sys2Proof.core n s = .next s)

/-! ## Runs -/

/-- R213: with no payload the engine stays in WaitForAck for any number of Updates, each one read of RegIrqFlags2. -/
def Obligations.AckWaitHasNoTimeout : Prop :=
  ∀ (flags dev : List Byte) (more : List CommandFrame) (s : State), s.Ready → s.BetweenCommands → s.result = none →
    s.top = .sending .waitForAck → (∀ f ∈ flags, payloadReadyFlag s.cfg.regs f = false) →
    s.inbox = List.replicate flags.length ⟨.host, [0x02]⟩ ++ more → s.devIn = flags ++ dev →
    Host.Core.run Sys2Proof.core flags.length s = .next { s with
      inbox := more, devIn := dev, trace := s.trace ++ flags.map (readEvent s.cfg s.cfg.regs.irqFlags2) }

/-- R214, R202 to R205: from Idle with a staged packet, Updates under a device that is ready drain the slot: four without
an ACK, where the callback is called once with true; five with one, where it is never called, whether the payload that
ends the wait is a frame that reaches its handler or one with an oversized length. -/
def Obligations.StagedPacketIsSent : Prop :=
  ∀ (v i o q : Byte) (hf cf dev : List Byte) (more : List CommandFrame) (s : State) (sent : List Event),
    s.Ready → s.BetweenCommands → s.top = .idle → s.slot.header.target ≠ 0 → slotOk s.slot = true →
    modeReadyFlag s.cfg.regs i = true → fifoWriteAnswers s.cfg.regs 5 hf none →
    fifoWriteAnswers s.cfg.regs (8 + s.slot.content.size.toNat) cf none → packetSentFlag s.cfg.regs q = true →
    sent = modeEvents s.cfg v s.cfg.modeCodes.standby ++ [readEvent s.cfg s.cfg.regs.irqFlags1 i]
      ++ fifoWriteEvents s.cfg (headerBytes s.slot.header) hf none
      ++ fifoWriteEvents s.cfg (contentBytes s.slot.content) cf none
      ++ modeEvents s.cfg o s.cfg.modeCodes.transmitter ++ highPowerEvents s.cfg true
      ++ [readEvent s.cfg s.cfg.regs.irqFlags2 q] →
    (∀ host : List HostAnswer, s.slot.header.ackRequested = false →
      s.inbox = List.replicate 4 ⟨.host, [0x02]⟩ ++ more → s.devIn = v :: i :: (hf ++ cf ++ o :: q :: dev) →
      (s.slot.callback = none → s.hostIn = host) →
      (∀ cb, s.slot.callback = some cb → ∃ r, s.hostIn = ⟨[], some r⟩ :: host) →
      Host.Core.run Sys2Proof.core 4 s = .next { s with
        top := .idle, slot := zeroFrame, result := none, inbox := more, devIn := dev, hostIn := host,
        trace := s.trace ++ sent ++ s.slot.callback.toList.map (fun cb => .callback cb true) }) ∧
    (∀ w f g n z : Byte, s.slot.header.ackRequested = true → s.inbox = List.replicate 5 ⟨.host, [0x02]⟩ ++ more →
      s.devIn = v :: i :: (hf ++ cf ++ o :: q :: w :: f :: g :: n :: z :: dev) → payloadReadyFlag s.cfg.regs f = true →
      fifoNotEmptyFlag s.cfg.regs g = true → s.cfg.fifoSize < n.toNat + 1 →
      Host.Core.run Sys2Proof.core 5 s = .next { s with
        top := .idle, slot := zeroFrame, result := none, inbox := more, devIn := dev,
        trace := s.trace ++ sent ++ modeEvents s.cfg w s.cfg.modeCodes.receiver ++ highPowerEvents s.cfg false
          ++ [readEvent s.cfg s.cfg.regs.irqFlags2 f, readEvent s.cfg s.cfg.regs.irqFlags2 g,
            readEvent s.cfg s.cfg.regs.fifo n]
          ++ modeEvents s.cfg z s.cfg.modeCodes.standby,
        log := s.log ++ [(.error, 0x14)] }) ∧
    (∀ (w f g n z hid : Byte) (r : Bool) (got : List (Byte × Byte)) (stop : Option Byte) (b : List Byte)
      (host : List HostAnswer),
      s.slot.header.ackRequested = true → s.inbox = List.replicate 5 ⟨.host, [0x02]⟩ ++ more →
      s.devIn = v :: i :: (hf ++ cf ++ o :: q :: w :: f :: g :: n :: (fifoReadScript got stop ++ z :: dev)) →
      payloadReadyFlag s.cfg.regs f = true → fifoNotEmptyFlag s.cfg.regs g = true → n.toNat + 1 ≤ s.cfg.fifoSize →
      fifoReadAnswers s.cfg.regs n.toNat got stop → s.cfg.rssiStamp = false → b = n :: got.map Prod.snd →
      frameLengthsOk b → s.handlers[(b.getD 11 0).toNat]? = some (some hid) → s.hostIn = ⟨[], some r⟩ :: host →
      Host.Core.run Sys2Proof.core 5 s = .next { s with
        top := .idle, slot := zeroFrame, result := none, inbox := more, devIn := dev, hostIn := host,
        draws := s.draws + 1, log := s.log ++ fifoReadLog stop,
        trace := s.trace ++ sent ++ modeEvents s.cfg w s.cfg.modeCodes.receiver ++ highPowerEvents s.cfg false
          ++ [readEvent s.cfg s.cfg.regs.irqFlags2 f, readEvent s.cfg s.cfg.regs.irqFlags2 g,
            readEvent s.cfg s.cfg.regs.fifo n]
          ++ fifoReadEvents s.cfg got stop
          ++ [.handlerCall hid (receivedHeader s.cfg none b) (receivedContent b), .handlerReturn r]
          ++ modeEvents s.cfg z s.cfg.modeCodes.standby })

/-! ## Invariants of every step -/

/-- R22, R23, R25 to R27, R31, R171, R176, R186, R222: every step keeps the shape of the slot, of the fault state and of
the handler table, enters only states that some rule enters, and stops a command only at a place where one can stop. -/
def Obligations.StepKeepsTheInvariant : Prop := ∀ s t : State, s.Inv → step s = .next t → t.Inv

/-- The reset state meets the invariant. That the instance of reset is valid and names registers in range is the model's
choice (logs 6 and 21). -/
def Obligations.ResetMeetsTheInvariant : Prop :=
  State.reset.Inv ∧ State.reset.Ready ∧ State.reset.BetweenCommands

/-- R20, R32, R37, R55: no step changes the parameters or the number of packet types; the log and the port trace only
grow. -/
def Obligations.ParametersStayAndHistoryGrows : Prop :=
  ∀ s t : State, step s = .next t →
    t.cfg = s.cfg ∧ t.handlers.length = s.handlers.length ∧ s.log <+: t.log ∧ s.trace <+: t.trace

/-- R31, R222, R223: a step that halts the engine has one of the six codes, which is the last log event, at level critical,
and leaves no command in progress. -/
def Obligations.FatalEndsTheCommand : Prop :=
  ∀ s t : State, s.halted = false → step s = .next t → t.halted = true →
    t.control = none ∧ 1 ≤ t.faultCode.toNat ∧ t.faultCode.toNat ≤ 6 ∧ ∃ l, t.log = l ++ [(.critical, t.faultCode)]

/-- R18, R32: no step depends on the log: with other events before its own, it does the same and logs the same. -/
def Obligations.LogIsNeverRead : Prop :=
  ∀ (l : List (Level × Byte)) (s : State),
    (∀ t, step s = .next t → step { s with log := l ++ s.log } = .next { t with log := l ++ t.log }) ∧
    (∀ r, step s = .refused r → step { s with log := l ++ s.log } = .refused r)

/-- R13, R24, R166, R191 to R207: one Update leaves the top-level state as it is or enters one that the state's rule
names. -/
def Obligations.UpdateMakesOneTransition : Prop :=
  ∀ s t : State, exec .update s = .next t → t.top = s.top ∨ tickMayEnter s.cfg s.top t.top

/-- R195: no Listening tick leaves Listening, unless WAIT_FAIL is AbortToIdle; nor does a wait of one. -/
def Obligations.ListeningNeverLeavesItself : Prop :=
  ∀ (s t : State) (ls : ListenSub), s.top = .listening ls → s.cfg.waitFail ≠ .abortToIdle →
    (exec .update s = .next t → ∃ ls', t.top = .listening ls') ∧
    (∀ w : WaitFrame, s.control = some (.wait w) →
      w.after = .listenInit ∨ w.after = .listenPayload ∨ w.after = .listenRearm → step s = .next t →
      ∃ ls', t.top = .listening ls')

/-- R261: with HOME = Listening and WAIT_FAIL other than AbortToIdle, an engine that only its host commands is never Idle
and never stages a packet, and its every SEND returns false. -/
def Obligations.AlwaysListeningNeverSends : Prop :=
  (∀ s t : State, s.AlwaysListening → step s = .next t → t.AlwaysListening) ∧
  (∀ (s t : State) (target cb : Byte) (ack : Bool) (c : Content), s.AlwaysListening → s.halted = false →
    exec (.send target ack cb c) s = .next t → t.result = some (.bool false) ∧ t.slot = s.slot)

/-- R9, R165: while a command is in progress no further frame is taken. -/
def Obligations.CommandInProgressTakesNoFrame : Prop :=
  ∀ (s t : State) (p : Pending), s.control = some p → step s = .next t → t.inbox = s.inbox

/-- R207, R236: of the host's commands only a Wakeup event and Init leave Sleeping. -/
def Obligations.OnlyWakeupAndInitLeaveSleeping : Prop :=
  ∀ (s t : State) (i : Instr), s.top = .sleeping → exec i s = .next t →
    (i = .update ∨ (∃ target ack cb c, i = .send target ack cb c) ∨ (∃ type h, i = .setHandler type h) ∨
      (∃ k, i = .event k ∧ k ≠ 2)) →
    t.top = .sleeping
end

