-- ==== Sys2Proof/Laws/State.lean ====
section
/-!
SUPPORT. One lemma per field of the state and per update of it, true by rfl, so that no proof unfolds a record update.
-/

namespace Sys2Proof.Machine

/-! ## emit -/

@[simp] theorem State.emit_top (s : State) (e : Event) : (s.emit e).top = s.top := rfl
@[simp] theorem State.emit_slot (s : State) (e : Event) : (s.emit e).slot = s.slot := rfl
@[simp] theorem State.emit_handlers (s : State) (e : Event) : (s.emit e).handlers = s.handlers := rfl
@[simp] theorem State.emit_halted (s : State) (e : Event) : (s.emit e).halted = s.halted := rfl
@[simp] theorem State.emit_faultCode (s : State) (e : Event) : (s.emit e).faultCode = s.faultCode := rfl
@[simp] theorem State.emit_log (s : State) (e : Event) : (s.emit e).log = s.log := rfl
@[simp] theorem State.emit_cfg (s : State) (e : Event) : (s.emit e).cfg = s.cfg := rfl
@[simp] theorem State.emit_control (s : State) (e : Event) : (s.emit e).control = s.control := rfl
@[simp] theorem State.emit_result (s : State) (e : Event) : (s.emit e).result = s.result := rfl
@[simp] theorem State.emit_trace (s : State) (e : Event) : (s.emit e).trace = s.trace ++ [e] := rfl
@[simp] theorem State.emit_inbox (s : State) (e : Event) : (s.emit e).inbox = s.inbox := rfl
@[simp] theorem State.emit_devIn (s : State) (e : Event) : (s.emit e).devIn = s.devIn := rfl
@[simp] theorem State.emit_clkIn (s : State) (e : Event) : (s.emit e).clkIn = s.clkIn := rfl
@[simp] theorem State.emit_nodeIn (s : State) (e : Event) : (s.emit e).nodeIn = s.nodeIn := rfl
@[simp] theorem State.emit_netIn (s : State) (e : Event) : (s.emit e).netIn = s.netIn := rfl
@[simp] theorem State.emit_bcastIn (s : State) (e : Event) : (s.emit e).bcastIn = s.bcastIn := rfl
@[simp] theorem State.emit_hostIn (s : State) (e : Event) : (s.emit e).hostIn = s.hostIn := rfl
@[simp] theorem State.emit_draws (s : State) (e : Event) : (s.emit e).draws = s.draws := rfl

/-! ## logAt -/

@[simp] theorem State.logAt_top (s : State) (l : Level) (c : Byte) : (s.logAt l c).top = s.top := rfl
@[simp] theorem State.logAt_slot (s : State) (l : Level) (c : Byte) : (s.logAt l c).slot = s.slot := rfl
@[simp] theorem State.logAt_handlers (s : State) (l : Level) (c : Byte) : (s.logAt l c).handlers = s.handlers := rfl
@[simp] theorem State.logAt_halted (s : State) (l : Level) (c : Byte) : (s.logAt l c).halted = s.halted := rfl
@[simp] theorem State.logAt_faultCode (s : State) (l : Level) (c : Byte) : (s.logAt l c).faultCode = s.faultCode := rfl
@[simp] theorem State.logAt_log (s : State) (l : Level) (c : Byte) : (s.logAt l c).log = s.log ++ [(l, c)] := rfl
@[simp] theorem State.logAt_cfg (s : State) (l : Level) (c : Byte) : (s.logAt l c).cfg = s.cfg := rfl
@[simp] theorem State.logAt_control (s : State) (l : Level) (c : Byte) : (s.logAt l c).control = s.control := rfl
@[simp] theorem State.logAt_result (s : State) (l : Level) (c : Byte) : (s.logAt l c).result = s.result := rfl
@[simp] theorem State.logAt_trace (s : State) (l : Level) (c : Byte) : (s.logAt l c).trace = s.trace := rfl
@[simp] theorem State.logAt_inbox (s : State) (l : Level) (c : Byte) : (s.logAt l c).inbox = s.inbox := rfl
@[simp] theorem State.logAt_devIn (s : State) (l : Level) (c : Byte) : (s.logAt l c).devIn = s.devIn := rfl
@[simp] theorem State.logAt_clkIn (s : State) (l : Level) (c : Byte) : (s.logAt l c).clkIn = s.clkIn := rfl
@[simp] theorem State.logAt_nodeIn (s : State) (l : Level) (c : Byte) : (s.logAt l c).nodeIn = s.nodeIn := rfl
@[simp] theorem State.logAt_netIn (s : State) (l : Level) (c : Byte) : (s.logAt l c).netIn = s.netIn := rfl
@[simp] theorem State.logAt_bcastIn (s : State) (l : Level) (c : Byte) : (s.logAt l c).bcastIn = s.bcastIn := rfl
@[simp] theorem State.logAt_hostIn (s : State) (l : Level) (c : Byte) : (s.logAt l c).hostIn = s.hostIn := rfl
@[simp] theorem State.logAt_draws (s : State) (l : Level) (c : Byte) : (s.logAt l c).draws = s.draws := rfl

/-! ## logDiag -/

@[simp] theorem State.logDiag_top (s : State) (d : Diag) : (s.logDiag d).top = s.top := rfl
@[simp] theorem State.logDiag_slot (s : State) (d : Diag) : (s.logDiag d).slot = s.slot := rfl
@[simp] theorem State.logDiag_handlers (s : State) (d : Diag) : (s.logDiag d).handlers = s.handlers := rfl
@[simp] theorem State.logDiag_halted (s : State) (d : Diag) : (s.logDiag d).halted = s.halted := rfl
@[simp] theorem State.logDiag_faultCode (s : State) (d : Diag) : (s.logDiag d).faultCode = s.faultCode := rfl
@[simp] theorem State.logDiag_log (s : State) (d : Diag) : (s.logDiag d).log = s.log ++ [(d.level, d.code)] := rfl
@[simp] theorem State.logDiag_cfg (s : State) (d : Diag) : (s.logDiag d).cfg = s.cfg := rfl
@[simp] theorem State.logDiag_control (s : State) (d : Diag) : (s.logDiag d).control = s.control := rfl
@[simp] theorem State.logDiag_result (s : State) (d : Diag) : (s.logDiag d).result = s.result := rfl
@[simp] theorem State.logDiag_trace (s : State) (d : Diag) : (s.logDiag d).trace = s.trace := rfl
@[simp] theorem State.logDiag_inbox (s : State) (d : Diag) : (s.logDiag d).inbox = s.inbox := rfl
@[simp] theorem State.logDiag_devIn (s : State) (d : Diag) : (s.logDiag d).devIn = s.devIn := rfl
@[simp] theorem State.logDiag_clkIn (s : State) (d : Diag) : (s.logDiag d).clkIn = s.clkIn := rfl
@[simp] theorem State.logDiag_nodeIn (s : State) (d : Diag) : (s.logDiag d).nodeIn = s.nodeIn := rfl
@[simp] theorem State.logDiag_netIn (s : State) (d : Diag) : (s.logDiag d).netIn = s.netIn := rfl
@[simp] theorem State.logDiag_bcastIn (s : State) (d : Diag) : (s.logDiag d).bcastIn = s.bcastIn := rfl
@[simp] theorem State.logDiag_hostIn (s : State) (d : Diag) : (s.logDiag d).hostIn = s.hostIn := rfl
@[simp] theorem State.logDiag_draws (s : State) (d : Diag) : (s.logDiag d).draws = s.draws := rfl

/-! ## halt -/

@[simp] theorem State.halt_top (s : State) (c : Byte) : (s.halt c).top = s.top := rfl
@[simp] theorem State.halt_slot (s : State) (c : Byte) : (s.halt c).slot = s.slot := rfl
@[simp] theorem State.halt_handlers (s : State) (c : Byte) : (s.halt c).handlers = s.handlers := rfl
@[simp] theorem State.halt_halted (s : State) (c : Byte) : (s.halt c).halted = true := rfl
@[simp] theorem State.halt_faultCode (s : State) (c : Byte) : (s.halt c).faultCode = c := rfl
@[simp] theorem State.halt_log (s : State) (c : Byte) : (s.halt c).log = s.log ++ [(.critical, c)] := rfl
@[simp] theorem State.halt_cfg (s : State) (c : Byte) : (s.halt c).cfg = s.cfg := rfl
@[simp] theorem State.halt_control (s : State) (c : Byte) : (s.halt c).control = none := rfl
@[simp] theorem State.halt_result (s : State) (c : Byte) : (s.halt c).result = s.result := rfl
@[simp] theorem State.halt_trace (s : State) (c : Byte) : (s.halt c).trace = s.trace := rfl
@[simp] theorem State.halt_inbox (s : State) (c : Byte) : (s.halt c).inbox = s.inbox := rfl
@[simp] theorem State.halt_devIn (s : State) (c : Byte) : (s.halt c).devIn = s.devIn := rfl
@[simp] theorem State.halt_clkIn (s : State) (c : Byte) : (s.halt c).clkIn = s.clkIn := rfl
@[simp] theorem State.halt_nodeIn (s : State) (c : Byte) : (s.halt c).nodeIn = s.nodeIn := rfl
@[simp] theorem State.halt_netIn (s : State) (c : Byte) : (s.halt c).netIn = s.netIn := rfl
@[simp] theorem State.halt_bcastIn (s : State) (c : Byte) : (s.halt c).bcastIn = s.bcastIn := rfl
@[simp] theorem State.halt_hostIn (s : State) (c : Byte) : (s.halt c).hostIn = s.hostIn := rfl
@[simp] theorem State.halt_draws (s : State) (c : Byte) : (s.halt c).draws = s.draws := rfl

/-! ## withTop -/

@[simp] theorem State.withTop_top (s : State) (t : Top) : (s.withTop t).top = t := rfl
@[simp] theorem State.withTop_slot (s : State) (t : Top) : (s.withTop t).slot = s.slot := rfl
@[simp] theorem State.withTop_handlers (s : State) (t : Top) : (s.withTop t).handlers = s.handlers := rfl
@[simp] theorem State.withTop_halted (s : State) (t : Top) : (s.withTop t).halted = s.halted := rfl
@[simp] theorem State.withTop_faultCode (s : State) (t : Top) : (s.withTop t).faultCode = s.faultCode := rfl
@[simp] theorem State.withTop_log (s : State) (t : Top) : (s.withTop t).log = s.log := rfl
@[simp] theorem State.withTop_cfg (s : State) (t : Top) : (s.withTop t).cfg = s.cfg := rfl
@[simp] theorem State.withTop_control (s : State) (t : Top) : (s.withTop t).control = s.control := rfl
@[simp] theorem State.withTop_result (s : State) (t : Top) : (s.withTop t).result = s.result := rfl
@[simp] theorem State.withTop_trace (s : State) (t : Top) : (s.withTop t).trace = s.trace := rfl
@[simp] theorem State.withTop_inbox (s : State) (t : Top) : (s.withTop t).inbox = s.inbox := rfl
@[simp] theorem State.withTop_devIn (s : State) (t : Top) : (s.withTop t).devIn = s.devIn := rfl
@[simp] theorem State.withTop_clkIn (s : State) (t : Top) : (s.withTop t).clkIn = s.clkIn := rfl
@[simp] theorem State.withTop_nodeIn (s : State) (t : Top) : (s.withTop t).nodeIn = s.nodeIn := rfl
@[simp] theorem State.withTop_netIn (s : State) (t : Top) : (s.withTop t).netIn = s.netIn := rfl
@[simp] theorem State.withTop_bcastIn (s : State) (t : Top) : (s.withTop t).bcastIn = s.bcastIn := rfl
@[simp] theorem State.withTop_hostIn (s : State) (t : Top) : (s.withTop t).hostIn = s.hostIn := rfl
@[simp] theorem State.withTop_draws (s : State) (t : Top) : (s.withTop t).draws = s.draws := rfl

/-! ## withSlot -/

@[simp] theorem State.withSlot_top (s : State) (p : Packet) : (s.withSlot p).top = s.top := rfl
@[simp] theorem State.withSlot_slot (s : State) (p : Packet) : (s.withSlot p).slot = p := rfl
@[simp] theorem State.withSlot_handlers (s : State) (p : Packet) : (s.withSlot p).handlers = s.handlers := rfl
@[simp] theorem State.withSlot_halted (s : State) (p : Packet) : (s.withSlot p).halted = s.halted := rfl
@[simp] theorem State.withSlot_faultCode (s : State) (p : Packet) : (s.withSlot p).faultCode = s.faultCode := rfl
@[simp] theorem State.withSlot_log (s : State) (p : Packet) : (s.withSlot p).log = s.log := rfl
@[simp] theorem State.withSlot_cfg (s : State) (p : Packet) : (s.withSlot p).cfg = s.cfg := rfl
@[simp] theorem State.withSlot_control (s : State) (p : Packet) : (s.withSlot p).control = s.control := rfl
@[simp] theorem State.withSlot_result (s : State) (p : Packet) : (s.withSlot p).result = s.result := rfl
@[simp] theorem State.withSlot_trace (s : State) (p : Packet) : (s.withSlot p).trace = s.trace := rfl
@[simp] theorem State.withSlot_inbox (s : State) (p : Packet) : (s.withSlot p).inbox = s.inbox := rfl
@[simp] theorem State.withSlot_devIn (s : State) (p : Packet) : (s.withSlot p).devIn = s.devIn := rfl
@[simp] theorem State.withSlot_clkIn (s : State) (p : Packet) : (s.withSlot p).clkIn = s.clkIn := rfl
@[simp] theorem State.withSlot_nodeIn (s : State) (p : Packet) : (s.withSlot p).nodeIn = s.nodeIn := rfl
@[simp] theorem State.withSlot_netIn (s : State) (p : Packet) : (s.withSlot p).netIn = s.netIn := rfl
@[simp] theorem State.withSlot_bcastIn (s : State) (p : Packet) : (s.withSlot p).bcastIn = s.bcastIn := rfl
@[simp] theorem State.withSlot_hostIn (s : State) (p : Packet) : (s.withSlot p).hostIn = s.hostIn := rfl
@[simp] theorem State.withSlot_draws (s : State) (p : Packet) : (s.withSlot p).draws = s.draws := rfl

/-! ## withHandler -/

@[simp] theorem State.withHandler_top (s : State) (n : Nat) (h : Option Byte) : (s.withHandler n h).top = s.top := rfl
@[simp] theorem State.withHandler_slot (s : State) (n : Nat) (h : Option Byte) : (s.withHandler n h).slot = s.slot := rfl
@[simp] theorem State.withHandler_handlers (s : State) (n : Nat) (h : Option Byte) : (s.withHandler n h).handlers = s.handlers.set n h := rfl
@[simp] theorem State.withHandler_halted (s : State) (n : Nat) (h : Option Byte) : (s.withHandler n h).halted = s.halted := rfl
@[simp] theorem State.withHandler_faultCode (s : State) (n : Nat) (h : Option Byte) : (s.withHandler n h).faultCode = s.faultCode := rfl
@[simp] theorem State.withHandler_log (s : State) (n : Nat) (h : Option Byte) : (s.withHandler n h).log = s.log := rfl
@[simp] theorem State.withHandler_cfg (s : State) (n : Nat) (h : Option Byte) : (s.withHandler n h).cfg = s.cfg := rfl
@[simp] theorem State.withHandler_control (s : State) (n : Nat) (h : Option Byte) : (s.withHandler n h).control = s.control := rfl
@[simp] theorem State.withHandler_result (s : State) (n : Nat) (h : Option Byte) : (s.withHandler n h).result = s.result := rfl
@[simp] theorem State.withHandler_trace (s : State) (n : Nat) (h : Option Byte) : (s.withHandler n h).trace = s.trace := rfl
@[simp] theorem State.withHandler_inbox (s : State) (n : Nat) (h : Option Byte) : (s.withHandler n h).inbox = s.inbox := rfl
@[simp] theorem State.withHandler_devIn (s : State) (n : Nat) (h : Option Byte) : (s.withHandler n h).devIn = s.devIn := rfl
@[simp] theorem State.withHandler_clkIn (s : State) (n : Nat) (h : Option Byte) : (s.withHandler n h).clkIn = s.clkIn := rfl
@[simp] theorem State.withHandler_nodeIn (s : State) (n : Nat) (h : Option Byte) : (s.withHandler n h).nodeIn = s.nodeIn := rfl
@[simp] theorem State.withHandler_netIn (s : State) (n : Nat) (h : Option Byte) : (s.withHandler n h).netIn = s.netIn := rfl
@[simp] theorem State.withHandler_bcastIn (s : State) (n : Nat) (h : Option Byte) : (s.withHandler n h).bcastIn = s.bcastIn := rfl
@[simp] theorem State.withHandler_hostIn (s : State) (n : Nat) (h : Option Byte) : (s.withHandler n h).hostIn = s.hostIn := rfl
@[simp] theorem State.withHandler_draws (s : State) (n : Nat) (h : Option Byte) : (s.withHandler n h).draws = s.draws := rfl

/-! ## withInbox -/

@[simp] theorem State.withInbox_top (s : State) (q : List CommandFrame) : (s.withInbox q).top = s.top := rfl
@[simp] theorem State.withInbox_slot (s : State) (q : List CommandFrame) : (s.withInbox q).slot = s.slot := rfl
@[simp] theorem State.withInbox_handlers (s : State) (q : List CommandFrame) : (s.withInbox q).handlers = s.handlers := rfl
@[simp] theorem State.withInbox_halted (s : State) (q : List CommandFrame) : (s.withInbox q).halted = s.halted := rfl
@[simp] theorem State.withInbox_faultCode (s : State) (q : List CommandFrame) : (s.withInbox q).faultCode = s.faultCode := rfl
@[simp] theorem State.withInbox_log (s : State) (q : List CommandFrame) : (s.withInbox q).log = s.log := rfl
@[simp] theorem State.withInbox_cfg (s : State) (q : List CommandFrame) : (s.withInbox q).cfg = s.cfg := rfl
@[simp] theorem State.withInbox_control (s : State) (q : List CommandFrame) : (s.withInbox q).control = s.control := rfl
@[simp] theorem State.withInbox_result (s : State) (q : List CommandFrame) : (s.withInbox q).result = s.result := rfl
@[simp] theorem State.withInbox_trace (s : State) (q : List CommandFrame) : (s.withInbox q).trace = s.trace := rfl
@[simp] theorem State.withInbox_inbox (s : State) (q : List CommandFrame) : (s.withInbox q).inbox = q := rfl
@[simp] theorem State.withInbox_devIn (s : State) (q : List CommandFrame) : (s.withInbox q).devIn = s.devIn := rfl
@[simp] theorem State.withInbox_clkIn (s : State) (q : List CommandFrame) : (s.withInbox q).clkIn = s.clkIn := rfl
@[simp] theorem State.withInbox_nodeIn (s : State) (q : List CommandFrame) : (s.withInbox q).nodeIn = s.nodeIn := rfl
@[simp] theorem State.withInbox_netIn (s : State) (q : List CommandFrame) : (s.withInbox q).netIn = s.netIn := rfl
@[simp] theorem State.withInbox_bcastIn (s : State) (q : List CommandFrame) : (s.withInbox q).bcastIn = s.bcastIn := rfl
@[simp] theorem State.withInbox_hostIn (s : State) (q : List CommandFrame) : (s.withInbox q).hostIn = s.hostIn := rfl
@[simp] theorem State.withInbox_draws (s : State) (q : List CommandFrame) : (s.withInbox q).draws = s.draws := rfl

/-! ## suspend -/

@[simp] theorem State.suspend_top (s : State) (p : Pending) : (s.suspend p).top = s.top := rfl
@[simp] theorem State.suspend_slot (s : State) (p : Pending) : (s.suspend p).slot = s.slot := rfl
@[simp] theorem State.suspend_handlers (s : State) (p : Pending) : (s.suspend p).handlers = s.handlers := rfl
@[simp] theorem State.suspend_halted (s : State) (p : Pending) : (s.suspend p).halted = s.halted := rfl
@[simp] theorem State.suspend_faultCode (s : State) (p : Pending) : (s.suspend p).faultCode = s.faultCode := rfl
@[simp] theorem State.suspend_log (s : State) (p : Pending) : (s.suspend p).log = s.log := rfl
@[simp] theorem State.suspend_cfg (s : State) (p : Pending) : (s.suspend p).cfg = s.cfg := rfl
@[simp] theorem State.suspend_control (s : State) (p : Pending) : (s.suspend p).control = some p := rfl
@[simp] theorem State.suspend_result (s : State) (p : Pending) : (s.suspend p).result = s.result := rfl
@[simp] theorem State.suspend_trace (s : State) (p : Pending) : (s.suspend p).trace = s.trace := rfl
@[simp] theorem State.suspend_inbox (s : State) (p : Pending) : (s.suspend p).inbox = s.inbox := rfl
@[simp] theorem State.suspend_devIn (s : State) (p : Pending) : (s.suspend p).devIn = s.devIn := rfl
@[simp] theorem State.suspend_clkIn (s : State) (p : Pending) : (s.suspend p).clkIn = s.clkIn := rfl
@[simp] theorem State.suspend_nodeIn (s : State) (p : Pending) : (s.suspend p).nodeIn = s.nodeIn := rfl
@[simp] theorem State.suspend_netIn (s : State) (p : Pending) : (s.suspend p).netIn = s.netIn := rfl
@[simp] theorem State.suspend_bcastIn (s : State) (p : Pending) : (s.suspend p).bcastIn = s.bcastIn := rfl
@[simp] theorem State.suspend_hostIn (s : State) (p : Pending) : (s.suspend p).hostIn = s.hostIn := rfl
@[simp] theorem State.suspend_draws (s : State) (p : Pending) : (s.suspend p).draws = s.draws := rfl

/-! ## resumed -/

@[simp] theorem State.resumed_top (s : State) : s.resumed.top = s.top := rfl
@[simp] theorem State.resumed_slot (s : State) : s.resumed.slot = s.slot := rfl
@[simp] theorem State.resumed_handlers (s : State) : s.resumed.handlers = s.handlers := rfl
@[simp] theorem State.resumed_halted (s : State) : s.resumed.halted = s.halted := rfl
@[simp] theorem State.resumed_faultCode (s : State) : s.resumed.faultCode = s.faultCode := rfl
@[simp] theorem State.resumed_log (s : State) : s.resumed.log = s.log := rfl
@[simp] theorem State.resumed_cfg (s : State) : s.resumed.cfg = s.cfg := rfl
@[simp] theorem State.resumed_control (s : State) : s.resumed.control = none := rfl
@[simp] theorem State.resumed_result (s : State) : s.resumed.result = s.result := rfl
@[simp] theorem State.resumed_trace (s : State) : s.resumed.trace = s.trace := rfl
@[simp] theorem State.resumed_inbox (s : State) : s.resumed.inbox = s.inbox := rfl
@[simp] theorem State.resumed_devIn (s : State) : s.resumed.devIn = s.devIn := rfl
@[simp] theorem State.resumed_clkIn (s : State) : s.resumed.clkIn = s.clkIn := rfl
@[simp] theorem State.resumed_nodeIn (s : State) : s.resumed.nodeIn = s.nodeIn := rfl
@[simp] theorem State.resumed_netIn (s : State) : s.resumed.netIn = s.netIn := rfl
@[simp] theorem State.resumed_bcastIn (s : State) : s.resumed.bcastIn = s.bcastIn := rfl
@[simp] theorem State.resumed_hostIn (s : State) : s.resumed.hostIn = s.hostIn := rfl
@[simp] theorem State.resumed_draws (s : State) : s.resumed.draws = s.draws := rfl

/-! ## started -/

@[simp] theorem State.started_top (s : State) : s.started.top = s.top := rfl
@[simp] theorem State.started_slot (s : State) : s.started.slot = s.slot := rfl
@[simp] theorem State.started_handlers (s : State) : s.started.handlers = s.handlers := rfl
@[simp] theorem State.started_halted (s : State) : s.started.halted = s.halted := rfl
@[simp] theorem State.started_faultCode (s : State) : s.started.faultCode = s.faultCode := rfl
@[simp] theorem State.started_log (s : State) : s.started.log = s.log := rfl
@[simp] theorem State.started_cfg (s : State) : s.started.cfg = s.cfg := rfl
@[simp] theorem State.started_control (s : State) : s.started.control = none := rfl
@[simp] theorem State.started_result (s : State) : s.started.result = none := rfl
@[simp] theorem State.started_trace (s : State) : s.started.trace = s.trace := rfl
@[simp] theorem State.started_inbox (s : State) : s.started.inbox = s.inbox := rfl
@[simp] theorem State.started_devIn (s : State) : s.started.devIn = s.devIn := rfl
@[simp] theorem State.started_clkIn (s : State) : s.started.clkIn = s.clkIn := rfl
@[simp] theorem State.started_nodeIn (s : State) : s.started.nodeIn = s.nodeIn := rfl
@[simp] theorem State.started_netIn (s : State) : s.started.netIn = s.netIn := rfl
@[simp] theorem State.started_bcastIn (s : State) : s.started.bcastIn = s.bcastIn := rfl
@[simp] theorem State.started_hostIn (s : State) : s.started.hostIn = s.hostIn := rfl
@[simp] theorem State.started_draws (s : State) : s.started.draws = s.draws := rfl

/-! ## returned -/

@[simp] theorem State.returned_top (s : State) (v : Option Value) : (s.returned v).top = s.top := rfl
@[simp] theorem State.returned_slot (s : State) (v : Option Value) : (s.returned v).slot = s.slot := rfl
@[simp] theorem State.returned_handlers (s : State) (v : Option Value) : (s.returned v).handlers = s.handlers := rfl
@[simp] theorem State.returned_halted (s : State) (v : Option Value) : (s.returned v).halted = s.halted := rfl
@[simp] theorem State.returned_faultCode (s : State) (v : Option Value) : (s.returned v).faultCode = s.faultCode := rfl
@[simp] theorem State.returned_log (s : State) (v : Option Value) : (s.returned v).log = s.log := rfl
@[simp] theorem State.returned_cfg (s : State) (v : Option Value) : (s.returned v).cfg = s.cfg := rfl
@[simp] theorem State.returned_control (s : State) (v : Option Value) : (s.returned v).control = s.control := rfl
@[simp] theorem State.returned_result (s : State) (v : Option Value) : (s.returned v).result = v := rfl
@[simp] theorem State.returned_trace (s : State) (v : Option Value) : (s.returned v).trace = s.trace := rfl
@[simp] theorem State.returned_inbox (s : State) (v : Option Value) : (s.returned v).inbox = s.inbox := rfl
@[simp] theorem State.returned_devIn (s : State) (v : Option Value) : (s.returned v).devIn = s.devIn := rfl
@[simp] theorem State.returned_clkIn (s : State) (v : Option Value) : (s.returned v).clkIn = s.clkIn := rfl
@[simp] theorem State.returned_nodeIn (s : State) (v : Option Value) : (s.returned v).nodeIn = s.nodeIn := rfl
@[simp] theorem State.returned_netIn (s : State) (v : Option Value) : (s.returned v).netIn = s.netIn := rfl
@[simp] theorem State.returned_bcastIn (s : State) (v : Option Value) : (s.returned v).bcastIn = s.bcastIn := rfl
@[simp] theorem State.returned_hostIn (s : State) (v : Option Value) : (s.returned v).hostIn = s.hostIn := rfl
@[simp] theorem State.returned_draws (s : State) (v : Option Value) : (s.returned v).draws = s.draws := rfl

/-! ## drawn -/

@[simp] theorem State.drawn_top (s : State) : s.drawn.top = s.top := rfl
@[simp] theorem State.drawn_slot (s : State) : s.drawn.slot = s.slot := rfl
@[simp] theorem State.drawn_handlers (s : State) : s.drawn.handlers = s.handlers := rfl
@[simp] theorem State.drawn_halted (s : State) : s.drawn.halted = s.halted := rfl
@[simp] theorem State.drawn_faultCode (s : State) : s.drawn.faultCode = s.faultCode := rfl
@[simp] theorem State.drawn_log (s : State) : s.drawn.log = s.log := rfl
@[simp] theorem State.drawn_cfg (s : State) : s.drawn.cfg = s.cfg := rfl
@[simp] theorem State.drawn_control (s : State) : s.drawn.control = s.control := rfl
@[simp] theorem State.drawn_result (s : State) : s.drawn.result = s.result := rfl
@[simp] theorem State.drawn_trace (s : State) : s.drawn.trace = s.trace := rfl
@[simp] theorem State.drawn_inbox (s : State) : s.drawn.inbox = s.inbox := rfl
@[simp] theorem State.drawn_devIn (s : State) : s.drawn.devIn = s.devIn := rfl
@[simp] theorem State.drawn_clkIn (s : State) : s.drawn.clkIn = s.clkIn := rfl
@[simp] theorem State.drawn_nodeIn (s : State) : s.drawn.nodeIn = s.nodeIn := rfl
@[simp] theorem State.drawn_netIn (s : State) : s.drawn.netIn = s.netIn := rfl
@[simp] theorem State.drawn_bcastIn (s : State) : s.drawn.bcastIn = s.bcastIn := rfl
@[simp] theorem State.drawn_hostIn (s : State) : s.drawn.hostIn = s.hostIn := rfl
@[simp] theorem State.drawn_draws (s : State) : s.drawn.draws = s.draws + 1 := rfl

/-! ## afterRead -/

@[simp] theorem State.afterRead_top (s : State) (a : RegAddr) : (s.afterRead a).top = s.top := rfl
@[simp] theorem State.afterRead_slot (s : State) (a : RegAddr) : (s.afterRead a).slot = s.slot := rfl
@[simp] theorem State.afterRead_handlers (s : State) (a : RegAddr) : (s.afterRead a).handlers = s.handlers := rfl
@[simp] theorem State.afterRead_halted (s : State) (a : RegAddr) : (s.afterRead a).halted = s.halted := rfl
@[simp] theorem State.afterRead_faultCode (s : State) (a : RegAddr) : (s.afterRead a).faultCode = s.faultCode := rfl
@[simp] theorem State.afterRead_log (s : State) (a : RegAddr) : (s.afterRead a).log = s.log := rfl
@[simp] theorem State.afterRead_cfg (s : State) (a : RegAddr) : (s.afterRead a).cfg = s.cfg := rfl
@[simp] theorem State.afterRead_control (s : State) (a : RegAddr) : (s.afterRead a).control = s.control := rfl
@[simp] theorem State.afterRead_result (s : State) (a : RegAddr) : (s.afterRead a).result = s.result := rfl
@[simp] theorem State.afterRead_trace (s : State) (a : RegAddr) : (s.afterRead a).trace = s.trace ++ [.spi (readSteps s.cfg.busMode a (s.deviceAnswer a))] := rfl
@[simp] theorem State.afterRead_inbox (s : State) (a : RegAddr) : (s.afterRead a).inbox = s.inbox := rfl
@[simp] theorem State.afterRead_devIn (s : State) (a : RegAddr) : (s.afterRead a).devIn = s.devIn.tail := rfl
@[simp] theorem State.afterRead_clkIn (s : State) (a : RegAddr) : (s.afterRead a).clkIn = s.clkIn := rfl
@[simp] theorem State.afterRead_nodeIn (s : State) (a : RegAddr) : (s.afterRead a).nodeIn = s.nodeIn := rfl
@[simp] theorem State.afterRead_netIn (s : State) (a : RegAddr) : (s.afterRead a).netIn = s.netIn := rfl
@[simp] theorem State.afterRead_bcastIn (s : State) (a : RegAddr) : (s.afterRead a).bcastIn = s.bcastIn := rfl
@[simp] theorem State.afterRead_hostIn (s : State) (a : RegAddr) : (s.afterRead a).hostIn = s.hostIn := rfl
@[simp] theorem State.afterRead_draws (s : State) (a : RegAddr) : (s.afterRead a).draws = s.draws := rfl

/-! ## afterWrite -/

@[simp] theorem State.afterWrite_top (s : State) (a : RegAddr) (v : Byte) : (s.afterWrite a v).top = s.top := rfl
@[simp] theorem State.afterWrite_slot (s : State) (a : RegAddr) (v : Byte) : (s.afterWrite a v).slot = s.slot := rfl
@[simp] theorem State.afterWrite_handlers (s : State) (a : RegAddr) (v : Byte) : (s.afterWrite a v).handlers = s.handlers := rfl
@[simp] theorem State.afterWrite_halted (s : State) (a : RegAddr) (v : Byte) : (s.afterWrite a v).halted = s.halted := rfl
@[simp] theorem State.afterWrite_faultCode (s : State) (a : RegAddr) (v : Byte) : (s.afterWrite a v).faultCode = s.faultCode := rfl
@[simp] theorem State.afterWrite_log (s : State) (a : RegAddr) (v : Byte) : (s.afterWrite a v).log = s.log := rfl
@[simp] theorem State.afterWrite_cfg (s : State) (a : RegAddr) (v : Byte) : (s.afterWrite a v).cfg = s.cfg := rfl
@[simp] theorem State.afterWrite_control (s : State) (a : RegAddr) (v : Byte) : (s.afterWrite a v).control = s.control := rfl
@[simp] theorem State.afterWrite_result (s : State) (a : RegAddr) (v : Byte) : (s.afterWrite a v).result = s.result := rfl
@[simp] theorem State.afterWrite_trace (s : State) (a : RegAddr) (v : Byte) : (s.afterWrite a v).trace = s.trace ++ [.spi (writeSteps s.cfg.busMode a v)] := rfl
@[simp] theorem State.afterWrite_inbox (s : State) (a : RegAddr) (v : Byte) : (s.afterWrite a v).inbox = s.inbox := rfl
@[simp] theorem State.afterWrite_devIn (s : State) (a : RegAddr) (v : Byte) : (s.afterWrite a v).devIn = s.devIn := rfl
@[simp] theorem State.afterWrite_clkIn (s : State) (a : RegAddr) (v : Byte) : (s.afterWrite a v).clkIn = s.clkIn := rfl
@[simp] theorem State.afterWrite_nodeIn (s : State) (a : RegAddr) (v : Byte) : (s.afterWrite a v).nodeIn = s.nodeIn := rfl
@[simp] theorem State.afterWrite_netIn (s : State) (a : RegAddr) (v : Byte) : (s.afterWrite a v).netIn = s.netIn := rfl
@[simp] theorem State.afterWrite_bcastIn (s : State) (a : RegAddr) (v : Byte) : (s.afterWrite a v).bcastIn = s.bcastIn := rfl
@[simp] theorem State.afterWrite_hostIn (s : State) (a : RegAddr) (v : Byte) : (s.afterWrite a v).hostIn = s.hostIn := rfl
@[simp] theorem State.afterWrite_draws (s : State) (a : RegAddr) (v : Byte) : (s.afterWrite a v).draws = s.draws := rfl

/-! ## afterClock -/

@[simp] theorem State.afterClock_top (s : State) : s.afterClock.top = s.top := rfl
@[simp] theorem State.afterClock_slot (s : State) : s.afterClock.slot = s.slot := rfl
@[simp] theorem State.afterClock_handlers (s : State) : s.afterClock.handlers = s.handlers := rfl
@[simp] theorem State.afterClock_halted (s : State) : s.afterClock.halted = s.halted := rfl
@[simp] theorem State.afterClock_faultCode (s : State) : s.afterClock.faultCode = s.faultCode := rfl
@[simp] theorem State.afterClock_log (s : State) : s.afterClock.log = s.log := rfl
@[simp] theorem State.afterClock_cfg (s : State) : s.afterClock.cfg = s.cfg := rfl
@[simp] theorem State.afterClock_control (s : State) : s.afterClock.control = s.control := rfl
@[simp] theorem State.afterClock_result (s : State) : s.afterClock.result = s.result := rfl
@[simp] theorem State.afterClock_trace (s : State) : s.afterClock.trace = s.trace ++ [.clock s.clockNow] := rfl
@[simp] theorem State.afterClock_inbox (s : State) : s.afterClock.inbox = s.inbox := rfl
@[simp] theorem State.afterClock_devIn (s : State) : s.afterClock.devIn = s.devIn := rfl
@[simp] theorem State.afterClock_clkIn (s : State) : s.afterClock.clkIn = s.clkIn.tail := rfl
@[simp] theorem State.afterClock_nodeIn (s : State) : s.afterClock.nodeIn = s.nodeIn := rfl
@[simp] theorem State.afterClock_netIn (s : State) : s.afterClock.netIn = s.netIn := rfl
@[simp] theorem State.afterClock_bcastIn (s : State) : s.afterClock.bcastIn = s.bcastIn := rfl
@[simp] theorem State.afterClock_hostIn (s : State) : s.afterClock.hostIn = s.hostIn := rfl
@[simp] theorem State.afterClock_draws (s : State) : s.afterClock.draws = s.draws := rfl

/-! ## afterNode -/

@[simp] theorem State.afterNode_top (s : State) : s.afterNode.top = s.top := rfl
@[simp] theorem State.afterNode_slot (s : State) : s.afterNode.slot = s.slot := rfl
@[simp] theorem State.afterNode_handlers (s : State) : s.afterNode.handlers = s.handlers := rfl
@[simp] theorem State.afterNode_halted (s : State) : s.afterNode.halted = s.halted := rfl
@[simp] theorem State.afterNode_faultCode (s : State) : s.afterNode.faultCode = s.faultCode := rfl
@[simp] theorem State.afterNode_log (s : State) : s.afterNode.log = s.log := rfl
@[simp] theorem State.afterNode_cfg (s : State) : s.afterNode.cfg = s.cfg := rfl
@[simp] theorem State.afterNode_control (s : State) : s.afterNode.control = s.control := rfl
@[simp] theorem State.afterNode_result (s : State) : s.afterNode.result = s.result := rfl
@[simp] theorem State.afterNode_trace (s : State) : s.afterNode.trace = s.trace ++ [.nodeAddress s.nodeAnswer] := rfl
@[simp] theorem State.afterNode_inbox (s : State) : s.afterNode.inbox = s.inbox := rfl
@[simp] theorem State.afterNode_devIn (s : State) : s.afterNode.devIn = s.devIn := rfl
@[simp] theorem State.afterNode_clkIn (s : State) : s.afterNode.clkIn = s.clkIn := rfl
@[simp] theorem State.afterNode_nodeIn (s : State) : s.afterNode.nodeIn = s.nodeIn.tail := rfl
@[simp] theorem State.afterNode_netIn (s : State) : s.afterNode.netIn = s.netIn := rfl
@[simp] theorem State.afterNode_bcastIn (s : State) : s.afterNode.bcastIn = s.bcastIn := rfl
@[simp] theorem State.afterNode_hostIn (s : State) : s.afterNode.hostIn = s.hostIn := rfl
@[simp] theorem State.afterNode_draws (s : State) : s.afterNode.draws = s.draws := rfl

/-! ## afterNetwork -/

@[simp] theorem State.afterNetwork_top (s : State) : s.afterNetwork.top = s.top := rfl
@[simp] theorem State.afterNetwork_slot (s : State) : s.afterNetwork.slot = s.slot := rfl
@[simp] theorem State.afterNetwork_handlers (s : State) : s.afterNetwork.handlers = s.handlers := rfl
@[simp] theorem State.afterNetwork_halted (s : State) : s.afterNetwork.halted = s.halted := rfl
@[simp] theorem State.afterNetwork_faultCode (s : State) : s.afterNetwork.faultCode = s.faultCode := rfl
@[simp] theorem State.afterNetwork_log (s : State) : s.afterNetwork.log = s.log := rfl
@[simp] theorem State.afterNetwork_cfg (s : State) : s.afterNetwork.cfg = s.cfg := rfl
@[simp] theorem State.afterNetwork_control (s : State) : s.afterNetwork.control = s.control := rfl
@[simp] theorem State.afterNetwork_result (s : State) : s.afterNetwork.result = s.result := rfl
@[simp] theorem State.afterNetwork_trace (s : State) : s.afterNetwork.trace = s.trace ++ [.networkId s.networkAnswer] := rfl
@[simp] theorem State.afterNetwork_inbox (s : State) : s.afterNetwork.inbox = s.inbox := rfl
@[simp] theorem State.afterNetwork_devIn (s : State) : s.afterNetwork.devIn = s.devIn := rfl
@[simp] theorem State.afterNetwork_clkIn (s : State) : s.afterNetwork.clkIn = s.clkIn := rfl
@[simp] theorem State.afterNetwork_nodeIn (s : State) : s.afterNetwork.nodeIn = s.nodeIn := rfl
@[simp] theorem State.afterNetwork_netIn (s : State) : s.afterNetwork.netIn = s.netIn.tail := rfl
@[simp] theorem State.afterNetwork_bcastIn (s : State) : s.afterNetwork.bcastIn = s.bcastIn := rfl
@[simp] theorem State.afterNetwork_hostIn (s : State) : s.afterNetwork.hostIn = s.hostIn := rfl
@[simp] theorem State.afterNetwork_draws (s : State) : s.afterNetwork.draws = s.draws := rfl

/-! ## afterBroadcast -/

@[simp] theorem State.afterBroadcast_top (s : State) : s.afterBroadcast.top = s.top := rfl
@[simp] theorem State.afterBroadcast_slot (s : State) : s.afterBroadcast.slot = s.slot := rfl
@[simp] theorem State.afterBroadcast_handlers (s : State) : s.afterBroadcast.handlers = s.handlers := rfl
@[simp] theorem State.afterBroadcast_halted (s : State) : s.afterBroadcast.halted = s.halted := rfl
@[simp] theorem State.afterBroadcast_faultCode (s : State) : s.afterBroadcast.faultCode = s.faultCode := rfl
@[simp] theorem State.afterBroadcast_log (s : State) : s.afterBroadcast.log = s.log := rfl
@[simp] theorem State.afterBroadcast_cfg (s : State) : s.afterBroadcast.cfg = s.cfg := rfl
@[simp] theorem State.afterBroadcast_control (s : State) : s.afterBroadcast.control = s.control := rfl
@[simp] theorem State.afterBroadcast_result (s : State) : s.afterBroadcast.result = s.result := rfl
@[simp] theorem State.afterBroadcast_trace (s : State) : s.afterBroadcast.trace = s.trace ++ [.broadcastAddress s.broadcastAnswer] := rfl
@[simp] theorem State.afterBroadcast_inbox (s : State) : s.afterBroadcast.inbox = s.inbox := rfl
@[simp] theorem State.afterBroadcast_devIn (s : State) : s.afterBroadcast.devIn = s.devIn := rfl
@[simp] theorem State.afterBroadcast_clkIn (s : State) : s.afterBroadcast.clkIn = s.clkIn := rfl
@[simp] theorem State.afterBroadcast_nodeIn (s : State) : s.afterBroadcast.nodeIn = s.nodeIn := rfl
@[simp] theorem State.afterBroadcast_netIn (s : State) : s.afterBroadcast.netIn = s.netIn := rfl
@[simp] theorem State.afterBroadcast_bcastIn (s : State) : s.afterBroadcast.bcastIn = s.bcastIn.tail := rfl
@[simp] theorem State.afterBroadcast_hostIn (s : State) : s.afterBroadcast.hostIn = s.hostIn := rfl
@[simp] theorem State.afterBroadcast_draws (s : State) : s.afterBroadcast.draws = s.draws := rfl

/-! ## afterHost -/

@[simp] theorem State.afterHost_top (s : State) : s.afterHost.top = s.top := rfl
@[simp] theorem State.afterHost_slot (s : State) : s.afterHost.slot = s.slot := rfl
@[simp] theorem State.afterHost_handlers (s : State) : s.afterHost.handlers = s.handlers := rfl
@[simp] theorem State.afterHost_halted (s : State) : s.afterHost.halted = s.halted := rfl
@[simp] theorem State.afterHost_faultCode (s : State) : s.afterHost.faultCode = s.faultCode := rfl
@[simp] theorem State.afterHost_log (s : State) : s.afterHost.log = s.log := rfl
@[simp] theorem State.afterHost_cfg (s : State) : s.afterHost.cfg = s.cfg := rfl
@[simp] theorem State.afterHost_control (s : State) : s.afterHost.control = s.control := rfl
@[simp] theorem State.afterHost_result (s : State) : s.afterHost.result = s.result := rfl
@[simp] theorem State.afterHost_trace (s : State) : s.afterHost.trace = s.trace := rfl
@[simp] theorem State.afterHost_inbox (s : State) : s.afterHost.inbox = s.inbox := rfl
@[simp] theorem State.afterHost_devIn (s : State) : s.afterHost.devIn = s.devIn := rfl
@[simp] theorem State.afterHost_clkIn (s : State) : s.afterHost.clkIn = s.clkIn := rfl
@[simp] theorem State.afterHost_nodeIn (s : State) : s.afterHost.nodeIn = s.nodeIn := rfl
@[simp] theorem State.afterHost_netIn (s : State) : s.afterHost.netIn = s.netIn := rfl
@[simp] theorem State.afterHost_bcastIn (s : State) : s.afterHost.bcastIn = s.bcastIn := rfl
@[simp] theorem State.afterHost_hostIn (s : State) : s.afterHost.hostIn = s.hostIn.tail := rfl
@[simp] theorem State.afterHost_draws (s : State) : s.afterHost.draws = s.draws := rfl

end Sys2Proof.Machine
end

