-- ==== Sys2Proof/Laws/Ops.lean ====
section
/-!
SUPPORT. What each shared operation can do, said once: the flow combinators, the SPI port, the adapter operations, and
the runner of a command.
-/

namespace Sys2Proof.Machine

/-! ## The flow of a command -/

@[simp] theorem bind_done {α β : Type} (a : α) (s : State) (k : α → State → Flow β) :
    (Flow.done a s).bind k = k a s := rfl

@[simp] theorem bind_stop {α β : Type} (s : State) (k : α → State → Flow β) :
    (Flow.stop s : Flow α).bind k = .stop s := rfl

theorem bind_assoc {α β γ : Type} (f : Flow α) (k : α → State → Flow β) (l : β → State → Flow γ) :
    (f.bind k).bind l = f.bind fun a s => (k a s).bind l := by
  cases f <;> rfl

@[simp] theorem state_done {α : Type} (a : α) (s : State) : (Flow.done a s).state = s := rfl

@[simp] theorem state_stop {α : Type} (s : State) : (Flow.stop s : Flow α).state = s := rfl

@[simp] theorem finish_done (v : Option Value) (s : State) : (Flow.done v s).finish = s.returned v := rfl

@[simp] theorem finish_stop (s : State) : (Flow.stop s : Flow (Option Value)).finish = s := rfl

@[simp] theorem noResult_done (s : State) : (Flow.done () s).noResult = .done none s := rfl

@[simp] theorem noResult_stop (s : State) : (Flow.stop s : Flow Unit).noResult = .stop s := rfl

@[simp] theorem boolResult_done (b : Bool) (s : State) : (Flow.done b s).boolResult = .done (some (.bool b)) s := rfl

@[simp] theorem boolResult_stop (s : State) : (Flow.stop s : Flow Bool).boolResult = .stop s := rfl

@[simp] theorem raiseFatal_eq {α : Type} (c : FatalCode) (s : State) : (raiseFatal c s : Flow α) = .stop (s.halt c.code) :=
  rfl

/-- A command of a running engine performs its body (R165). -/
theorem command_running {body : Cmd} {s : State} (h : s.halted = false) :
    command body s = .next (body s.started).finish := by simp [command, h]

/-- A command of a halted engine is not performed (R224). -/
theorem command_halted {body : Cmd} {s : State} (h : s.halted = true) : command body s = .next s := by
  simp [command, h]

/-! ## The SPI port -/

/-- The events of the transactions, in the words of the statements (R100, R101, R103). -/
@[simp] theorem spi_readSteps (p : Params) (a : RegAddr) (v : Byte) :
    Event.spi (readSteps p.busMode a v) = readEvent p a v := rfl

@[simp] theorem spi_writeSteps (p : Params) (a : RegAddr) (v : Byte) :
    Event.spi (writeSteps p.busMode a v) = writeEvent p a v := rfl

theorem regOk_le {p : Params} {a : RegAddr} (h : regOk p a = true) : ¬ p.regAddrMax.toNat < a.toNat := by
  simpa [regOk] using h

/-- In the valid range a read is one transaction (R101). -/
theorem spiRead_ok {a : RegAddr} {s : State} (h : regOk s.cfg a = true) :
    spiRead a s = .done (s.deviceAnswer a) (s.afterRead a) := by
  simp [spiRead, checkReg, regOk_le h]

/-- In the valid range a write is one transaction (R100). -/
theorem spiWrite_ok {a : RegAddr} {v : Byte} {s : State} (h : regOk s.cfg a = true) :
    spiWrite a v s = .done () (s.afterWrite a v) := by
  simp [spiWrite, checkReg, regOk_le h]

/-- Beyond the valid range a read is a fatal assertion without bus activity (R102). -/
theorem spiRead_beyond {a : RegAddr} {s : State} (h : regOk s.cfg a = false) :
    spiRead a s = .stop (s.halt 0x01) := by
  have : s.cfg.regAddrMax.toNat < a.toNat := by simpa [regOk] using h
  simp [spiRead, checkReg, this, FatalCode.code]

/-- Beyond the valid range a write is a fatal assertion without bus activity (R102). -/
theorem spiWrite_beyond {a : RegAddr} {v : Byte} {s : State} (h : regOk s.cfg a = false) :
    spiWrite a v s = .stop (s.halt 0x01) := by
  have : s.cfg.regAddrMax.toNat < a.toNat := by simpa [regOk] using h
  simp [spiWrite, checkReg, this, FatalCode.code]

/-- The device's answer comes from the head of its list while it has one. -/
theorem deviceAnswer_cons {s : State} {v : Byte} {rest : List Byte} (h : s.devIn = v :: rest) (a : RegAddr) :
    s.deviceAnswer a = v := by simp [State.deviceAnswer, h]

theorem clockNow_cons {s : State} {t : Millis} {rest : List Millis} (h : s.clkIn = t :: rest) : s.clockNow = t := by
  simp [State.clockNow, h]

/-! ## The registers of a valid map -/

section
variable {p : Params} (h : regMapOk p = true)
include h

theorem regMapOk_fifo : regOk p p.regs.fifo = true := by simp [regMapOk] at h; simp [h]
theorem regMapOk_opMode : regOk p p.regs.opMode = true := by simp [regMapOk] at h; simp [h]
theorem regMapOk_rssiValue : regOk p p.regs.rssiValue = true := by simp [regMapOk] at h; simp [h]
theorem regMapOk_irqFlags1 : regOk p p.regs.irqFlags1 = true := by simp [regMapOk] at h; simp [h]
theorem regMapOk_irqFlags2 : regOk p p.regs.irqFlags2 = true := by simp [regMapOk] at h; simp [h]
theorem regMapOk_syncConfig : regOk p p.regs.syncConfig = true := by simp [regMapOk] at h; simp [h]
theorem regMapOk_packetConfig2 : regOk p p.regs.packetConfig2 = true := by simp [regMapOk] at h; simp [h]

theorem regMapOk_hpOn : p.hpOn.all (fun w => regOk p w.1) = true := by
  simp only [regMapOk, Bool.and_eq_true] at h
  exact h.1.1.2

theorem regMapOk_hpOff : p.hpOff.all (fun w => regOk p w.1) = true := by
  simp only [regMapOk, Bool.and_eq_true] at h
  exact h.1.2

theorem regMapOk_setters : (setterList p).all (setterRegsOk p) = true := by
  simp only [regMapOk, Bool.and_eq_true] at h
  exact h.2

theorem regMapOk_sync : p.regs.syncValue1.toNat + p.syncLen ≤ p.regAddrMax.toNat + 1 := by
  simp only [regMapOk, Bool.and_eq_true, decide_eq_true_eq] at h
  exact h.1.1.1.2

end

/-! ## Adapter operations on a valid map -/

section
variable {s : State} (h : regMapOk s.cfg = true)
include h

theorem setMode_ok (m : Mode) : setMode m s =
    .done () ((s.afterRead s.cfg.regs.opMode).afterWrite s.cfg.regs.opMode
      (withModeField s.cfg.regs (s.deviceAnswer s.cfg.regs.opMode) (modeCode s.cfg.modeCodes m))) := by
  rw [setMode, spiRead_ok (regMapOk_opMode h), bind_done]
  exact spiWrite_ok (regMapOk_opMode h)

theorem getMode_ok : getMode s =
    .done (modeField s.cfg.regs (s.deviceAnswer s.cfg.regs.opMode)) (s.afterRead s.cfg.regs.opMode) := by
  rw [getMode, spiRead_ok (regMapOk_opMode h), bind_done]
  rfl

theorem isModeReady_ok : isModeReady s =
    .done (modeReadyFlag s.cfg.regs (s.deviceAnswer s.cfg.regs.irqFlags1)) (s.afterRead s.cfg.regs.irqFlags1) := by
  rw [isModeReady, spiRead_ok (regMapOk_irqFlags1 h), bind_done]
  rfl

theorem isPayloadReady_ok : isPayloadReady s =
    .done (payloadReadyFlag s.cfg.regs (s.deviceAnswer s.cfg.regs.irqFlags2)) (s.afterRead s.cfg.regs.irqFlags2) := by
  rw [isPayloadReady, spiRead_ok (regMapOk_irqFlags2 h), bind_done]
  rfl

theorem isPacketSent_ok : isPacketSent s =
    .done (packetSentFlag s.cfg.regs (s.deviceAnswer s.cfg.regs.irqFlags2)) (s.afterRead s.cfg.regs.irqFlags2) := by
  rw [isPacketSent, spiRead_ok (regMapOk_irqFlags2 h), bind_done]
  rfl

theorem isFifoNotEmpty_ok : isFifoNotEmpty s =
    .done (fifoNotEmptyFlag s.cfg.regs (s.deviceAnswer s.cfg.regs.irqFlags2)) (s.afterRead s.cfg.regs.irqFlags2) := by
  rw [isFifoNotEmpty, spiRead_ok (regMapOk_irqFlags2 h), bind_done]
  rfl

theorem isFifoFull_ok : isFifoFull s =
    .done (fifoFullFlag s.cfg.regs (s.deviceAnswer s.cfg.regs.irqFlags2)) (s.afterRead s.cfg.regs.irqFlags2) := by
  rw [isFifoFull, spiRead_ok (regMapOk_irqFlags2 h), bind_done]
  rfl

theorem getRssi_ok : getRssi s =
    .done (rssiDbm s.cfg.rssiConv (s.deviceAnswer s.cfg.regs.rssiValue)) (s.afterRead s.cfg.regs.rssiValue) := by
  rw [getRssi, spiRead_ok (regMapOk_rssiValue h), bind_done]
  rfl

theorem restartRx_ok : restartRx s =
    .done () ((s.afterRead s.cfg.regs.packetConfig2).afterWrite s.cfg.regs.packetConfig2
      (withRestartRx s.cfg.regs (s.deviceAnswer s.cfg.regs.packetConfig2))) := by
  rw [restartRx, spiRead_ok (regMapOk_packetConfig2 h), bind_done]
  exact spiWrite_ok (regMapOk_packetConfig2 h)

end

/-- The state after whole-register writes in order. -/
def State.afterWrites (s : State) : List (RegAddr × Byte) → State
  | [] => s
  | (a, v) :: rest => (s.afterWrite a v).afterWrites rest

/-- Writes within the valid range all happen, in order. -/
theorem spiWriteAll_ok (w : List (RegAddr × Byte)) (s : State) (h : w.all (fun w => regOk s.cfg w.1) = true) :
    spiWriteAll w s = .done () (s.afterWrites w) := by
  induction w generalizing s with
  | nil => rfl
  | cons x rest ih =>
    obtain ⟨a, v⟩ := x
    simp only [List.all_cons, Bool.and_eq_true] at h
    rw [spiWriteAll, spiWrite_ok h.1, bind_done, ih _ (by simpa using h.2), State.afterWrites]

/-- What whole-register writes change: the port trace. -/
theorem afterWrites_eq (w : List (RegAddr × Byte)) (s : State) :
    s.afterWrites w = { s with trace := s.trace ++ w.map (fun x => writeEvent s.cfg x.1 x.2) } := by
  induction w generalizing s with
  | nil => simp [State.afterWrites]
  | cons x rest ih => simp [State.afterWrites, ih, State.afterWrite]

end Sys2Proof.Machine
end

