-- ==== Sys2Proof/Laws/Adapter.lean ====
section
/-!
SUPPORT. What the FIFO transfers, the setters, the sync word and a poll of the wait do under given answers, each said
once; the statements and their proofs cite these instead of unfolding a loop.
-/

namespace Sys2Proof.Machine

/-! ## Single operations under a given answer -/

section
variable {s : State} {v : Byte} {dev : List Byte} (hr : regMapOk s.cfg = true) (hd : s.devIn = v :: dev)
include hr hd

theorem setMode_answer (m : Mode) : setMode m s =
    .done () { s with devIn := dev, trace := s.trace ++ modeEvents s.cfg v (modeCode s.cfg.modeCodes m) } := by
  rw [setMode_ok hr]
  simp [State.afterRead, State.afterWrite, hd, deviceAnswer_cons hd, modeEvents]

theorem getMode_answer : getMode s =
    .done (modeField s.cfg.regs v) { s with devIn := dev, trace := s.trace ++ [readEvent s.cfg s.cfg.regs.opMode v] } := by
  rw [getMode_ok hr, deviceAnswer_cons hd]
  simp [State.afterRead, hd, deviceAnswer_cons hd]

theorem isModeReady_answer : isModeReady s =
    .done (modeReadyFlag s.cfg.regs v) { s with devIn := dev, trace := s.trace ++ [readEvent s.cfg s.cfg.regs.irqFlags1 v] } := by
  rw [isModeReady_ok hr, deviceAnswer_cons hd]
  simp [State.afterRead, hd, deviceAnswer_cons hd]

theorem isPayloadReady_answer : isPayloadReady s =
    .done (payloadReadyFlag s.cfg.regs v) { s with devIn := dev, trace := s.trace ++ [readEvent s.cfg s.cfg.regs.irqFlags2 v] } := by
  rw [isPayloadReady_ok hr, deviceAnswer_cons hd]
  simp [State.afterRead, hd, deviceAnswer_cons hd]

theorem isPacketSent_answer : isPacketSent s =
    .done (packetSentFlag s.cfg.regs v) { s with devIn := dev, trace := s.trace ++ [readEvent s.cfg s.cfg.regs.irqFlags2 v] } := by
  rw [isPacketSent_ok hr, deviceAnswer_cons hd]
  simp [State.afterRead, hd, deviceAnswer_cons hd]

theorem restartRx_answer : restartRx s = .done () { s with
    devIn := dev,
    trace := s.trace ++ [readEvent s.cfg s.cfg.regs.packetConfig2 v, writeEvent s.cfg s.cfg.regs.packetConfig2 (withRestartRx s.cfg.regs v)] } := by
  rw [restartRx_ok hr, deviceAnswer_cons hd]
  simp [State.afterRead, State.afterWrite, hd, deviceAnswer_cons hd]

end

/-- The high-power writes of a valid map (R137). -/
theorem setHighPowerSettings_ok {s : State} (hr : regMapOk s.cfg = true) (on : Bool) : setHighPowerSettings on s =
    .done () { s with trace := s.trace ++ highPowerEvents s.cfg on } := by
  have h : (if on then s.cfg.hpOn else s.cfg.hpOff).all (fun w => regOk s.cfg w.1) = true := by
    cases on
    · exact regMapOk_hpOff hr
    · exact regMapOk_hpOn hr
  rw [setHighPowerSettings, spiWriteAll_ok _ _ h, afterWrites_eq]
  rfl

/-! ## FIFO transfers -/

/-- A FIFO write under given answers (R119). -/
theorem writeToFifo_answers (buf flags dev : List Byte) (stop : Option Byte) (s : State) (hr : regMapOk s.cfg = true)
    (ha : fifoWriteAnswers s.cfg.regs buf.length flags stop) (hd : s.devIn = flags ++ stop.toList ++ dev) :
    writeToFifo buf s = .done flags.length { s with
      devIn := dev, trace := s.trace ++ fifoWriteEvents s.cfg buf flags stop, log := s.log ++ fifoWriteLog stop } := by
  induction buf generalizing flags s with
  | nil =>
    obtain ⟨-, ⟨rfl, hl⟩ | ⟨f, rfl, -, hl⟩⟩ := ha
    · obtain rfl := List.length_eq_zero_iff.1 hl
      simp at hd
      simp [writeToFifo, fifoWriteEvents, fifoWriteLog, ← hd]
    · simp at hl
  | cons b rest ih =>
    rw [writeToFifo, isFifoFull_ok hr, bind_done]
    cases flags with
    | nil =>
      obtain ⟨-, ⟨-, hl⟩ | ⟨f, rfl, hf, -⟩⟩ := ha
      · simp at hl
      · simp only [List.nil_append, Option.toList_some, List.cons_append] at hd
        rw [deviceAnswer_cons hd]
        simp [hf, State.afterRead, State.logDiag, State.logAt, Diag.level, Diag.code, fifoWriteEvents,
          fifoWriteLog, hd, deviceAnswer_cons hd]
    | cons f fs =>
      simp only [List.cons_append] at hd
      obtain ⟨hc, hstop⟩ := ha
      have hff : fifoFullFlag s.cfg.regs f = false := hc f (by simp)
      rw [deviceAnswer_cons hd]
      have hfr : regOk (s.afterRead s.cfg.regs.irqFlags2).cfg s.cfg.regs.fifo = true := regMapOk_fifo hr
      simp only [State.afterRead_cfg, hff, Bool.false_eq_true, if_false]
      rw [spiWrite_ok hfr, bind_done, ih fs _ (by simpa using hr)
        (by exact ⟨fun x hx => hc x (by simp [hx]), by simpa using hstop⟩) (by simp [State.afterRead, hd])]
      simp [State.afterRead, State.afterWrite, fifoWriteEvents, deviceAnswer_cons hd]

/-- A FIFO read under given answers (R120). -/
theorem readFromFifo_answers (n : Nat) (got : List (Byte × Byte)) (stop : Option Byte) (dev : List Byte) (s : State)
    (hr : regMapOk s.cfg = true) (ha : fifoReadAnswers s.cfg.regs n got stop)
    (hd : s.devIn = fifoReadScript got stop ++ dev) :
    readFromFifo n s = .done (got.map Prod.snd) { s with
      devIn := dev, trace := s.trace ++ fifoReadEvents s.cfg got stop, log := s.log ++ fifoReadLog stop } := by
  induction n generalizing got s with
  | zero =>
    obtain ⟨-, ⟨rfl, hl⟩ | ⟨f, rfl, -, hl⟩⟩ := ha
    · obtain rfl := List.length_eq_zero_iff.1 hl
      simp [fifoReadScript] at hd
      simp [readFromFifo, fifoReadEvents, fifoReadLog, ← hd]
    · simp at hl
  | succ n ih =>
    rw [readFromFifo, isFifoNotEmpty_ok hr, bind_done]
    cases got with
    | nil =>
      obtain ⟨-, ⟨-, hl⟩ | ⟨f, rfl, hf, -⟩⟩ := ha
      · simp at hl
      · simp only [fifoReadScript, List.flatMap_nil, List.nil_append, Option.toList_some, List.cons_append] at hd
        rw [deviceAnswer_cons hd]
        simp [hf, State.afterRead, State.logDiag, State.logAt, Diag.level, Diag.code, fifoReadEvents,
          fifoReadLog, hd, deviceAnswer_cons hd]
    | cons x xs =>
      obtain ⟨f, b⟩ := x
      obtain ⟨hc, hstop⟩ := ha
      have hd' : s.devIn = f :: b :: (fifoReadScript xs stop ++ dev) := by simpa [fifoReadScript] using hd
      have hff : fifoNotEmptyFlag s.cfg.regs f = true := hc (f, b) (by simp)
      have hfr : regOk (s.afterRead s.cfg.regs.irqFlags2).cfg (s.afterRead s.cfg.regs.irqFlags2).cfg.regs.fifo = true :=
        regMapOk_fifo hr
      have hb : (s.afterRead s.cfg.regs.irqFlags2).devIn = b :: (fifoReadScript xs stop ++ dev) := by
        simp [State.afterRead, hd']
      rw [deviceAnswer_cons hd', if_pos hff, spiRead_ok hfr, bind_done, deviceAnswer_cons hb,
        ih xs _ (by simpa using hr) (by exact ⟨fun y hy => hc y (by simp [hy]), by simpa using hstop⟩)
          (by simp [State.afterRead, hd'])]
      simp [State.afterRead, fifoReadEvents, State.deviceAnswer, hd']

/-! ## Setters -/

/-- The writes of a setter under given answers (R122). -/
theorem applyWrites_answers (l : List RegWrite) (answers dev : List Byte) (s : State)
    (hr : ∀ w ∈ l, regOk s.cfg w.reg = true) (hl : answers.length = setterReads l) (hd : s.devIn = answers ++ dev) :
    applyWrites l s = .done () { s with devIn := dev, trace := s.trace ++ setterEvents s.cfg l answers } := by
  induction l generalizing answers s with
  | nil =>
    obtain rfl := List.length_eq_zero_iff.1 hl
    simp at hd
    simp [applyWrites, setterEvents, ← hd]
  | cons w rest ih =>
    have hf : regOk s.cfg w.reg = true := hr w (by simp)
    have hrest : ∀ g ∈ rest, regOk s.cfg g.reg = true := fun g hg => hr g (by simp [hg])
    rw [applyWrites]
    by_cases hm : w.mask = 0xFF
    · rw [if_pos hm, spiWrite_ok hf, bind_done, ih answers _ (by simpa using hrest) (by simpa [setterReads, hm] using hl)
        (by simpa using hd)]
      simp [State.afterWrite, setterEvents, hm]
    · cases answers with
      | nil =>
        rw [setterReads, if_neg hm] at hl
        simp at hl
        omega
      | cons v more =>
        simp only [List.cons_append] at hd
        have hw : regOk (s.afterRead w.reg).cfg w.reg = true := hf
        rw [if_neg hm, spiRead_ok hf, bind_done, spiWrite_ok hw, bind_done, deviceAnswer_cons hd,
          ih more _ (by simpa using hrest) (by rw [setterReads, if_neg hm] at hl; simp at hl; omega)
            (by simp [State.afterRead, hd])]
        have hm' : ¬ w.mask = 255#8 := hm
        simp [State.afterRead, State.afterWrite, setterEvents, hm', mergeField, deviceAnswer_cons hd]

/-- The registers of a setter of a valid map are in range, whatever the argument. -/
theorem regMapOk_setter {p : Params} (h : regMapOk p = true) {spec : SetterSpec} (hs : spec ∈ setterList p)
    (arg : BitVec 32) : ∀ w ∈ encWrites spec.enc arg, regOk p w.reg = true := by
  have hall := List.all_eq_true.1 (regMapOk_setters h) spec hs
  cases he : spec.enc with
  | fields l =>
    simp only [setterRegsOk, he] at hall
    simpa [encWrites] using hall
  | table rows =>
    simp only [setterRegsOk, he, List.all_eq_true] at hall
    intro w hw
    simp only [encWrites, List.getD] at hw
    cases hrow : rows[arg.toNat]? with
    | none => simp [hrow] at hw
    | some row => exact hall row (List.mem_of_getElem? hrow) w (by simpa [hrow] using hw)

theorem argValid_iff (spec : SetterSpec) (n : Nat) : argValid spec n = true ↔ ∃ r ∈ spec.valid, r.1 ≤ n ∧ n ≤ r.2 := by
  simp [argValid]

/-- A setter with an argument that it accepts (R122). -/
theorem configure_ok {spec : SetterSpec} {arg : BitVec 32} {answers dev : List Byte} {s : State}
    (hr : ∀ w ∈ encWrites spec.enc arg, regOk s.cfg w.reg = true) (ha : argValid spec arg.toNat = true)
    (hl : answers.length = setterReads (encWrites spec.enc arg)) (hd : s.devIn = answers ++ dev) :
    configure spec arg s =
      .done () { s with devIn := dev, trace := s.trace ++ setterEvents s.cfg (encWrites spec.enc arg) answers } := by
  rw [configure, if_pos ha]
  exact applyWrites_answers _ answers dev s hr hl hd

/-- A setter with an argument out of its range is a fatal assertion without a transaction (R122). -/
theorem configure_beyond {spec : SetterSpec} {arg : BitVec 32} {s : State} (h : argValid spec arg.toNat = false) :
    configure spec arg s = .stop (s.halt 0x05) := by
  rw [configure, h]
  rfl

/-! ## The sync word -/

/-- The sync bytes go into the registers from RegSyncValue1 + i on (R128). -/
theorem writeSyncBytes_ok (i : Nat) (word : List Byte) (s : State)
    (h : s.cfg.regs.syncValue1.toNat + i + word.length ≤ s.cfg.regAddrMax.toNat + 1) :
    writeSyncBytes i word s = .done () { s with
      trace := s.trace ++ word.mapIdx (fun k b => writeEvent s.cfg (s.cfg.regs.syncValue1 + BitVec.ofNat 8 (i + k)) b) } := by
  induction word generalizing i s with
  | nil => simp [writeSyncBytes]
  | cons b rest ih =>
    have hmax := s.cfg.regAddrMax.isLt
    simp only [List.length_cons] at h
    have hlt : s.cfg.regs.syncValue1.toNat + i < 256 := by omega
    have hreg : syncValueReg s i = s.cfg.regs.syncValue1 + BitVec.ofNat 8 i := by
      rw [syncValueReg, if_pos hlt]
      apply BitVec.eq_of_toNat_eq
      simp
    have hok : regOk s.cfg (syncValueReg s i) = true := by
      rw [hreg]
      simp [regOk]
      omega
    rw [writeSyncBytes, spiWrite_ok hok, bind_done, ih (i + 1) _ (by simp; omega), hreg]
    have : ∀ k : Nat, i + 1 + k = i + (k + 1) := by omega
    simp [State.afterWrite, List.mapIdx_cons, this]

theorem syncWordOk_iff (s : State) (word : List Byte) :
    syncWordOk s word = true ↔ word.length = s.cfg.syncLen ∧ ∀ b ∈ word, b ≠ 0 := by
  simp [syncWordOk]

/-- A sync word that is accepted (R128). -/
theorem setSyncWord_ok {word : List Byte} {s : State} (hr : regMapOk s.cfg = true) (hw : syncWordOk s word = true) :
    setSyncWord word s = .done true { s with
      devIn := s.devIn.tail,
      trace := s.trace ++ [readEvent s.cfg s.cfg.regs.syncConfig (s.deviceAnswer s.cfg.regs.syncConfig),
        writeEvent s.cfg s.cfg.regs.syncConfig
          (withSyncSize s.cfg.regs (s.deviceAnswer s.cfg.regs.syncConfig) s.cfg.syncLen)] ++ syncEvents s.cfg word } := by
  have hlen := ((syncWordOk_iff s word).1 hw).1
  have hs := regMapOk_sync hr
  have h2 : regOk (s.afterRead s.cfg.regs.syncConfig).cfg (s.afterRead s.cfg.regs.syncConfig).cfg.regs.syncConfig = true :=
    regMapOk_syncConfig hr
  rw [setSyncWord, if_pos hw, spiRead_ok (regMapOk_syncConfig hr), bind_done, spiWrite_ok h2, bind_done,
    writeSyncBytes_ok 0 word _ (by simp [hlen]; omega), bind_done]
  simp [State.afterRead, State.afterWrite, syncEvents]

/-- A sync word that is rejected (R128). -/
theorem setSyncWord_bad {word : List Byte} {s : State} (hw : syncWordOk s word = false) :
    setSyncWord word s = .done false (s.logDiag .syncInvalid) := by
  simp [setSyncWord, hw]

/-! ## The wait -/

section
variable {w : WaitFrame} {k : Bool → Cmd} {v : Byte} {dev : List Byte} {s : State} (hr : regMapOk s.cfg = true)
  (hd : s.devIn = v :: dev)
include hr hd

/-- A poll that finds the flag set (R113). -/
theorem pollWait_ready (hv : modeReadyFlag s.cfg.regs v = true) : pollWait w k s =
    k true { s with devIn := dev, trace := s.trace ++ [readEvent s.cfg s.cfg.regs.irqFlags1 v] } := by
  rw [pollWait, isModeReady_ok hr, bind_done, deviceAnswer_cons hd, if_pos hv]
  simp [State.afterRead, hd, deviceAnswer_cons hd]

/-- A poll that finds the flag clear before the deadline (R113). -/
theorem pollWait_again {t : Millis} {clk : List Millis} (hc : s.clkIn = t :: clk) (hv : modeReadyFlag s.cfg.regs v = false)
    (ht : (t - w.start).toNat < w.timeout.toNat) : pollWait w k s =
    .stop { s with
      control := some (.wait w), devIn := dev, clkIn := clk,
      trace := s.trace ++ [readEvent s.cfg s.cfg.regs.irqFlags1 v, .clock t] } := by
  have hn : ¬ w.timeout.toNat ≤ (elapsed w.start t).toNat := by unfold elapsed; omega
  rw [pollWait, isModeReady_ok hr, bind_done, deviceAnswer_cons hd]
  simp [hv, now, State.clockNow, hc, hn, State.afterRead, State.afterClock, State.suspend, hd, deviceAnswer_cons hd]

/-- A poll that finds the flag clear at the deadline (R113). -/
theorem pollWait_late {t : Millis} {clk : List Millis} (hc : s.clkIn = t :: clk) (hv : modeReadyFlag s.cfg.regs v = false)
    (ht : w.timeout.toNat ≤ (t - w.start).toNat) : pollWait w k s =
    k false { s with
      devIn := dev, clkIn := clk, trace := s.trace ++ [readEvent s.cfg s.cfg.regs.irqFlags1 v, .clock t],
      log := s.log ++ [(.warning, 0x11)] } := by
  have hn : w.timeout.toNat ≤ (elapsed w.start t).toNat := ht
  rw [pollWait, isModeReady_ok hr, bind_done, deviceAnswer_cons hd]
  simp [hv, now, State.clockNow, hc, hn, State.afterRead, State.afterClock, State.logDiag, State.logAt, Diag.level,
    Diag.code, hd, deviceAnswer_cons hd]

end

/-- A wait reads its start time and polls (R113). -/
theorem waitForModeReady_eq {timeout t0 : Millis} {place : AfterWait} {k : Bool → Cmd} {clk : List Millis} {s : State}
    (hc : s.clkIn = t0 :: clk) : waitForModeReady timeout place k s =
    pollWait ⟨t0, timeout, place⟩ k { s with clkIn := clk, trace := s.trace ++ [.clock t0] } := by
  simp [waitForModeReady, now, State.clockNow, hc, State.afterClock]

end Sys2Proof.Machine
end

