-- ==== Sys2Proof/Laws/Decode.lean ====
section
/-!
SUPPORT. The decoder answers only well-formed instructions, and an operand written by the encoder is read back.
-/

namespace Sys2Proof

/-! ## What a decoder answers is well-formed -/

/-- Whatever a decoder answers, it is well-formed. -/
def Decoded.Ok (d : Decoded) : Prop := ∀ i rest, d = .ok (i, rest) → i.WellFormed = true

theorem Decoded.ok_ok {i : Instr} {rest : List Byte} (h : i.WellFormed = true) : Decoded.Ok (.ok (i, rest)) := by
  intro j r hj
  cases hj
  exact h

theorem Decoded.ok_error (e : DecodeError) : Decoded.Ok (.error e) := by
  intro j r hj
  cases hj

theorem takeByte_ok (f : Format) (c : Byte) (k : Byte → Instr) (h : ∀ b, (k b).WellFormed = true) (l : List Byte) :
    Decoded.Ok (takeByte f c k l) := by
  cases l with
  | nil => exact Decoded.ok_error _
  | cons b l => exact Decoded.ok_ok (h b)

theorem takeWord16_ok (f : Format) (c : Byte) (k : BitVec 16 → Instr) (h : ∀ b, (k b).WellFormed = true)
    (l : List Byte) : Decoded.Ok (takeWord16 f c k l) := by
  unfold takeWord16
  split
  · exact Decoded.ok_ok (h _)
  · exact Decoded.ok_error _

theorem takeWord24_ok (f : Format) (c : Byte) (k : BitVec 24 → Instr) (h : ∀ b, (k b).WellFormed = true)
    (l : List Byte) : Decoded.Ok (takeWord24 f c k l) := by
  unfold takeWord24
  split
  · exact Decoded.ok_ok (h _)
  · exact Decoded.ok_error _

theorem takeWord32_ok (f : Format) (c : Byte) (k : Millis → Instr) (h : ∀ b, (k b).WellFormed = true)
    (l : List Byte) : Decoded.Ok (takeWord32 f c k l) := by
  unfold takeWord32
  split
  · exact Decoded.ok_ok (h _)
  · exact Decoded.ok_error _

theorem takeBytes_ok (f : Format) (c : Byte) (k : List Byte → Instr)
    (h : ∀ b, byteSeqOk b = true → (k b).WellFormed = true) (l : List Byte) : Decoded.Ok (takeBytes f c k l) := by
  unfold takeBytes
  split
  · rename_i n rest
    split
    · refine Decoded.ok_ok (h _ ?_)
      have := n.isLt
      simp only [byteSeqOk, List.length_take, decide_eq_true_eq]
      omega
    · exact Decoded.ok_error _
  · exact Decoded.ok_error _

theorem takeContent_ok (f : Format) (c : Byte) (k : Content → Instr)
    (h : ∀ x : Content, x.operandOk = true → (k x).WellFormed = true) (l : List Byte) :
    Decoded.Ok (takeContent f c k l) := by
  unfold takeContent
  split
  · split
    · rename_i hle
      refine Decoded.ok_ok (h _ ?_)
      simp [Content.operandOk, Config.tsLen, hle]
    · exact Decoded.ok_error _
  · exact Decoded.ok_error _

theorem decodeSpi_ok (l : List Byte) : Decoded.Ok (decodeSpi l) := by
  unfold decodeSpi
  split
  · exact Decoded.ok_error _
  · exact Decoded.ok_error _
  · split
    · exact Decoded.ok_ok rfl
    · split
      · exact Decoded.ok_ok rfl
      · exact Decoded.ok_error _

theorem decodeHost_ok (l : List Byte) : Decoded.Ok (decodeHost l) := by
  unfold decodeHost
  split
  · exact Decoded.ok_error _
  · split
    · exact Decoded.ok_ok rfl
    · exact Decoded.ok_ok rfl
    · split
      · exact takeContent_ok _ _ _ (by intro x h; simpa [Instr.WellFormed] using h) _
      · exact Decoded.ok_error _
    · split
      · exact Decoded.ok_ok rfl
      · exact Decoded.ok_error _
    · exact takeByte_ok _ _ _ (fun _ => rfl) _
    · exact Decoded.ok_error _

theorem decodeOp_ok (l : List Byte) : Decoded.Ok (decodeOp l) := by
  unfold decodeOp
  split
  · exact Decoded.ok_error _
  · split <;>
      first
      | exact Decoded.ok_ok rfl
      | exact Decoded.ok_error _
      | exact takeByte_ok _ _ _ (fun _ => rfl) _
      | exact takeWord16_ok _ _ _ (fun _ => rfl) _
      | exact takeWord24_ok _ _ _ (fun _ => rfl) _
      | exact takeWord32_ok _ _ _ (fun _ => rfl) _
      | exact takeBytes_ok _ _ _ (by intro x h; simpa [Instr.WellFormed] using h) _
      | exact takeContent_ok _ _ _ (by intro x h; simpa [Instr.WellFormed] using h) _
      | skip
    split
    · exact takeContent_ok _ _ _ (by intro x h; simpa [Instr.WellFormed] using h) _
    · exact Decoded.ok_error _

theorem decodeState_ok (l : List Byte) : Decoded.Ok (decodeState l) := by
  unfold decodeState
  split
  · exact Decoded.ok_error _
  · split <;> first | exact Decoded.ok_ok rfl | exact Decoded.ok_error _

/-- A frame that decodes, decodes to a well-formed instruction. -/
theorem decode_wellFormed {frame : CommandFrame} {i : Instr} (h : decode frame = .ok i) : i.WellFormed = true := by
  have hs : Decoded.Ok (decodeStream frame.format frame.bytes) := by
    cases hf : frame.format with
    | spi => exact decodeSpi_ok _
    | host => exact decodeHost_ok _
    | op => exact decodeOp_ok _
    | state => exact decodeState_ok _
  unfold decode at h
  split at h
  · cases h
  · rename_i j hj
    cases h
    exact hs _ _ hj
  · cases h

/-- What the decoder of the `host` form answers is one of the five host commands (R84). -/
theorem decodeHost_command {l rest : List Byte} {i : Instr} (h : decodeHost l = .ok (i, rest)) :
    i = .init ∨ i = .update ∨ (∃ target ack cb c, i = .send target ack cb c) ∨
      (∃ type handler, i = .setHandler type handler) ∨ ∃ k, i = .event k := by
  unfold decodeHost at h
  split at h
  · cases h
  · split at h
    · cases h; exact .inl rfl
    · cases h; exact .inr (.inl rfl)
    · split at h
      · unfold takeContent at h
        split at h
        · split at h
          · cases h; exact .inr (.inr (.inl ⟨_, _, _, _, rfl⟩))
          · cases h
        · cases h
      · cases h
    · split at h
      · cases h; exact .inr (.inr (.inr (.inl ⟨_, _, rfl⟩)))
      · cases h
    · unfold takeByte at h
      split at h
      · cases h; exact .inr (.inr (.inr (.inr ⟨_, rfl⟩)))
      · cases h
    · cases h

/-- A frame of the `host` form that decodes is one of the five host commands (R84). -/
theorem decode_host {bytes : List Byte} {i : Instr} (h : decode ⟨.host, bytes⟩ = .ok i) :
    i = .init ∨ i = .update ∨ (∃ target ack cb c, i = .send target ack cb c) ∨
      (∃ type handler, i = .setHandler type handler) ∨ ∃ k, i = .event k := by
  unfold decode at h
  split at h
  · cases h
  · rename_i j hj
    cases h
    exact decodeHost_command hj
  · cases h

/-! ## Operands are read back -/

@[simp] theorem boolOfByte_byteOfBool (b : Bool) : boolOfByte (byteOfBool b) = b := by cases b <;> rfl

end Sys2Proof
end

