-- ==== Sys2Proof/Laws/Reach.lean ====
section
/-!
SUPPORT. What a step can do to the state, said once. Two relations between an earlier and a later state are followed
through every operation: `D` to a state an operation is done in, `S` to a state a command stops in. `Quiet`, `Calls` and
`Closed` list the updates that operations of the adapter, operations with upcalls, and whole commands make; `Step` adds
the relation `N` of a state to the next one. Relations that every update keeps are then kept by every operation,
instruction and step: an invariant or a frame of the machine is a choice of them and a few short facts about the updates.
-/

namespace Sys2Proof.Machine

/-- The updates the adapter's operations and the waits make. -/
structure Quiet (D S : State → State → Prop) : Prop where
  refl : ∀ s, D s s
  trans : ∀ {s t u}, D s t → D t u → D s u
  absorb : ∀ {s t u}, D s t → S t u → S s u
  logDiag : ∀ s d, D s (s.logDiag d)
  halt : ∀ s (c : FatalCode), S s (s.halt c.code)
  suspend : ∀ s p, Pending.ok p = true → S s (s.suspend p)
  afterRead : ∀ s a, D s (s.afterRead a)
  afterWrite : ∀ s a v, D s (s.afterWrite a v)
  afterClock : ∀ s, D s s.afterClock
  afterNode : ∀ s, D s s.afterNode
  afterNetwork : ∀ s, D s s.afterNetwork
  afterBroadcast : ∀ s, D s s.afterBroadcast

/-- The updates of staging, registering, upcalls and HandlePayload as well. -/
structure Calls (D S : State → State → Prop) : Prop extends Quiet D S where
  emit : ∀ s e, D s (s.emit e)
  afterHost : ∀ s, D s s.afterHost
  drawn : ∀ s, D s s.drawn
  withSlot : ∀ s p, slotOk p = true → D s (s.withSlot p)
  withHandler : ∀ s n h, h ≠ 0 → D s (s.withHandler n (some h))

/-- The updates of whole commands as well. -/
structure Closed (D S : State → State → Prop) : Prop extends Calls D S where
  withTop : ∀ s t, Top.entered t = true → D s (s.withTop t)

/-- A command from its start to the state it leaves, which `N` relates to the state before. -/
structure Runs (D S N : State → State → Prop) : Prop extends Closed D S where
  same : ∀ s, N s s
  started : ∀ s, s.halted = false → D s s.started
  resumed : ∀ s, s.halted = false → D s s.resumed
  returned : ∀ {s t} v, D s t → N s (t.returned v)
  stopped : ∀ {s t}, S s t → N s t

/-- A flow and the state it started from. -/
def Comes {α : Type} (D S : State → State → Prop) (s : State) : Flow α → Prop
  | .done _ t => D s t
  | .stop t => S s t

/-- An operation comes to a state that is related to the one it started from. -/
def Keeps {α : Type} (D S : State → State → Prop) (f : State → Flow α) : Prop := ∀ s, Comes D S s (f s)

variable {D S N : State → State → Prop}

theorem Quiet.after (hR : Quiet D S) {α : Type} {s t : State} {f : Flow α} (h : D s t) (hf : Comes D S t f) :
    Comes D S s f := by
  cases f with
  | done a u => exact hR.trans h hf
  | stop u => exact hR.absorb h hf

/-- A flow bound to operations that keep the relations keeps them. -/
theorem Quiet.bind (hR : Quiet D S) {α β : Type} {s : State} {f : Flow α} {k : α → State → Flow β}
    (hf : Comes D S s f) (hk : ∀ a, Keeps D S (k a)) : Comes D S s (f.bind k) := by
  cases f with
  | done a t => exact hR.after hf (hk a t)
  | stop t => exact hf

section
variable (hR : Quiet D S)
include hR

theorem keeps_done {α : Type} (a : α) : Keeps D S (fun s => Flow.done a s) := fun s => hR.refl s

theorem keeps_raiseFatal {α : Type} (c : FatalCode) : Keeps D S (fun s => (raiseFatal c s : Flow α)) :=
  fun s => hR.halt s c

theorem keeps_checkReg (a : RegAddr) : Keeps D S (checkReg a) := by
  intro s
  unfold checkReg
  split
  · exact keeps_raiseFatal hR _ s
  · exact hR.refl s

theorem keeps_spiRead (a : RegAddr) : Keeps D S (spiRead a) :=
  fun s => hR.bind (keeps_checkReg hR a s) fun _ t => hR.afterRead t a

theorem keeps_spiWrite (a : RegAddr) (v : Byte) : Keeps D S (spiWrite a v) :=
  fun s => hR.bind (keeps_checkReg hR a s) fun _ t => hR.afterWrite t a v

theorem keeps_spiWriteAll : (w : List (RegAddr × Byte)) → Keeps D S (spiWriteAll w)
  | [] => fun s => hR.refl s
  | (a, v) :: rest => fun s => hR.bind (keeps_spiWrite hR a v s) fun _ => keeps_spiWriteAll rest

/-- A register read whose answer is only converted. -/
theorem keeps_readThen {α : Type} (a : State → RegAddr) (k : State → Byte → α) :
    Keeps D S (fun s => (spiRead (a s) s).bind fun v t => .done (k t v) t) :=
  fun s => hR.bind (keeps_spiRead hR _ s) fun _ t => hR.refl t

theorem keeps_setMode (m : Mode) : Keeps D S (setMode m) :=
  fun s => hR.bind (keeps_spiRead hR _ s) fun _ t => keeps_spiWrite hR _ _ t

theorem keeps_setModeOperand (m : Byte) : Keeps D S (setModeOperand m) := by
  intro s
  unfold setModeOperand
  split
  · exact keeps_setMode hR _ s
  · exact keeps_raiseFatal hR _ s

theorem keeps_getMode : Keeps D S getMode := keeps_readThen hR (fun s => s.cfg.regs.opMode) fun s v => modeField s.cfg.regs v

theorem keeps_isModeReady : Keeps D S isModeReady :=
  keeps_readThen hR (fun s => s.cfg.regs.irqFlags1) fun s v => modeReadyFlag s.cfg.regs v

theorem keeps_isPayloadReady : Keeps D S isPayloadReady :=
  keeps_readThen hR (fun s => s.cfg.regs.irqFlags2) fun s v => payloadReadyFlag s.cfg.regs v

theorem keeps_isPacketSent : Keeps D S isPacketSent :=
  keeps_readThen hR (fun s => s.cfg.regs.irqFlags2) fun s v => packetSentFlag s.cfg.regs v

theorem keeps_isFifoNotEmpty : Keeps D S isFifoNotEmpty :=
  keeps_readThen hR (fun s => s.cfg.regs.irqFlags2) fun s v => fifoNotEmptyFlag s.cfg.regs v

theorem keeps_isFifoFull : Keeps D S isFifoFull :=
  keeps_readThen hR (fun s => s.cfg.regs.irqFlags2) fun s v => fifoFullFlag s.cfg.regs v

theorem keeps_getRssi : Keeps D S getRssi :=
  keeps_readThen hR (fun s => s.cfg.regs.rssiValue) fun s v => rssiDbm s.cfg.rssiConv v

theorem keeps_writeToFifo : (b : List Byte) → Keeps D S (writeToFifo b)
  | [] => fun s => hR.refl s
  | b :: rest => by
    intro s
    unfold writeToFifo
    refine hR.bind (keeps_isFifoFull hR s) fun full t => ?_
    split
    · exact hR.logDiag t _
    · exact hR.bind (keeps_spiWrite hR _ _ t) fun _ u =>
        hR.bind (keeps_writeToFifo rest u) fun _ w => hR.refl w

theorem keeps_readFromFifo : (n : Nat) → Keeps D S (readFromFifo n)
  | 0 => fun s => hR.refl s
  | n + 1 => by
    intro s
    unfold readFromFifo
    refine hR.bind (keeps_isFifoNotEmpty hR s) fun notEmpty t => ?_
    split
    · exact hR.bind (keeps_spiRead hR _ t) fun _ u =>
        hR.bind (keeps_readFromFifo n u) fun _ w => hR.refl w
    · exact hR.logDiag t _

theorem keeps_restartRx : Keeps D S restartRx :=
  fun s => hR.bind (keeps_spiRead hR _ s) fun _ t => keeps_spiWrite hR _ _ t

theorem keeps_setHighPowerSettings (on : Bool) : Keeps D S (setHighPowerSettings on) :=
  fun s => keeps_spiWriteAll hR _ s

theorem keeps_applyWrites : (l : List RegWrite) → Keeps D S (applyWrites l)
  | [] => fun s => hR.refl s
  | w :: rest => by
    intro s
    unfold applyWrites
    refine hR.bind ?_ fun _ => keeps_applyWrites rest
    split
    · exact keeps_spiWrite hR _ _ s
    · exact hR.bind (keeps_spiRead hR _ s) fun _ t => keeps_spiWrite hR _ _ t

theorem keeps_configure (spec : State → SetterSpec) (arg : BitVec 32) : Keeps D S (fun s => configure (spec s) arg s) := by
  intro s
  simp only [configure]
  split
  · exact keeps_applyWrites hR _ s
  · exact keeps_raiseFatal hR _ s

theorem keeps_writeSyncBytes : (i : Nat) → (w : List Byte) → Keeps D S (writeSyncBytes i w)
  | _, [] => fun s => hR.refl s
  | i, _ :: rest => fun s => hR.bind (keeps_spiWrite hR _ _ s) fun _ => keeps_writeSyncBytes (i + 1) rest

theorem keeps_setSyncWord (w : List Byte) : Keeps D S (setSyncWord w) := by
  intro s
  unfold setSyncWord
  split
  · exact hR.bind (keeps_spiRead hR _ s) fun _ t => hR.bind (keeps_spiWrite hR _ _ t) fun _ u =>
      hR.bind (keeps_writeSyncBytes hR 0 w u) fun _ v => hR.refl v
  · exact hR.logDiag s _

theorem keeps_noResult {f : State → Flow Unit} (h : Keeps D S f) : Keeps D S (fun s => (f s).noResult) :=
  fun s => hR.bind (h s) fun _ t => hR.refl t

theorem keeps_boolResult {f : State → Flow Bool} (h : Keeps D S f) : Keeps D S (fun s => (f s).boolResult) :=
  fun s => hR.bind (h s) fun _ t => hR.refl t

/-! ## Staging, handlers and upcalls -/

theorem keeps_isReadyToSend : Keeps D S isReadyToSend := by
  intro s
  unfold isReadyToSend
  split
  · exact hR.refl s
  · split
    · exact hR.refl s
    · exact hR.bind (keeps_getRssi hR s) fun _ t => hR.refl t

end

/-- The total size of a content of at most CONTENT_DATA_MAX bytes is 13 + size (R151). -/
theorem totalSizeOf_toNat {c : Content} (h : contentSizeOk c = true) : (totalSizeOf c).toNat = 13 + c.size.toNat := by
  have h20 : c.size.toNat ≤ 20 := by simpa [contentSizeOk] using h
  have hlt : 5 + 8 + c.size.toNat < 256 := by omega
  simp only [totalSizeOf, Config.hdrLen, Config.metaLen, if_pos hlt, BitVec.toNat_ofNat]
  omega

theorem padData_length (d : List Byte) : (padData d).length = 20 := by simp [padData]

theorem padData_drop_zero (d : List Byte) (n : Nat) (h : d.length ≤ n) :
    ((padData d).drop n).all (fun b => b == 0) = true := by
  simp only [padData, List.drop_take, List.drop_append, List.drop_eq_nil_of_le h, List.nil_append, List.drop_replicate,
    List.take_replicate, List.all_eq_true]
  intro x hx
  simp [List.eq_of_mem_replicate hx]

theorem hostId_ne_zero (b : Byte) : hostId b ≠ some 0 := by
  unfold hostId
  split <;> simp_all

/-- A staged packet has the shape R25 to R27 give it. -/
theorem slotOk_staged {target : Byte} {ack : Bool} {c : Content} {cb : Option Byte} {source : Byte}
    (hc : c.operandOk = true) (hs : contentSizeOk c = true) (hcb : cb ≠ some 0) :
    slotOk (stagedPacket target ack c cb source) = true := by
  simp only [Content.operandOk, Bool.and_eq_true, beq_iff_eq] at hc
  have h20 : c.size.toNat ≤ 20 := by simpa [contentSizeOk] using hs
  have hd := padData_drop_zero (c.data.take c.size.toNat) c.size.toNat (by simp)
  simp only [slotOk, stagedPacket, totalSizeOf_toNat hs, padData_length, hc.1, hd, Config.hdrLen, Config.metaLen]
  simp [h20, show ¬ cb = some 0#8 from hcb]

theorem slotOk_zeroFrame : slotOk zeroFrame = true := by simp [slotOk]

section
variable (hR : Calls D S)
include hR

theorem keeps_stage {target : Byte} {ack : Bool} {c : Content} {cb : Option Byte}
    (hc : c.operandOk = true) (hs : contentSizeOk c = true) (hcb : cb ≠ some 0) :
    Keeps D S (stage target ack c cb) :=
  fun s => hR.trans (hR.afterNode s) (hR.withSlot _ _ (slotOk_staged hc hs hcb))

theorem keeps_sendPacket {target : Byte} {ack : Bool} {c : Content} {cb : Option Byte}
    (hc : c.operandOk = true) (hcb : cb ≠ some 0) : Keeps D S (sendPacket target ack c cb) := by
  intro s
  unfold sendPacket
  split
  · rename_i hs
    refine hR.bind (keeps_isReadyToSend hR.toQuiet s) fun ready t => ?_
    split
    · exact hR.bind (keeps_stage hR hc hs hcb t) fun _ u => hR.refl u
    · exact hR.logDiag t _
  · exact hR.logDiag s _

theorem keeps_sendCommand {target : Byte} {ack : Bool} {cb : Byte} {c : Content} (hc : c.operandOk = true) :
    Keeps D S (sendCommand target ack cb c) :=
  fun s => hR.bind (keeps_sendPacket hR hc (hostId_ne_zero cb) s) fun _ t => hR.emit t _

theorem keeps_setPacketHandler (h : Byte) (type : Byte) : Keeps D S (setPacketHandler (hostId h) type) := by
  intro s
  unfold setPacketHandler
  split
  · exact keeps_raiseFatal hR.toQuiet _ s
  · split
    · exact keeps_raiseFatal hR.toQuiet _ s
    · rename_i _ _ k hk
      exact hR.withHandler s _ _ (fun h0 => hostId_ne_zero h (by rw [hk, h0]))

theorem keeps_nestedCommand (bytes : List Byte) : Keeps D S (nestedCommand bytes) := by
  intro s
  unfold nestedCommand
  split
  · rename_i h
    exact hR.bind (keeps_sendCommand hR (decode_wellFormed h) s) fun _ t => hR.refl t
  · exact keeps_setPacketHandler hR _ _ s
  · rename_i i hs hh hd
    refine hR.suspend s _ ?_
    rcases decode_host hd with rfl | rfl | ⟨t, a, cb, c, rfl⟩ | ⟨t, h, rfl⟩ | ⟨k, rfl⟩
    · rfl
    · rfl
    · exact absurd rfl (hs t a cb c)
    · exact absurd rfl (hh t h)
    · rfl
  · exact hR.suspend s _ rfl

theorem keeps_nestedCommands : (l : List (List Byte)) → Keeps D S (nestedCommands l)
  | [] => fun s => hR.refl s
  | b :: rest => fun s => hR.bind (keeps_nestedCommand hR b s) fun _ => keeps_nestedCommands rest

theorem keeps_hostRuns : Keeps D S hostRuns := by
  intro s
  refine hR.after (hR.afterHost s) (hR.bind (keeps_nestedCommands hR _ _) fun _ t => ?_)
  split
  · exact hR.refl t
  · exact hR.suspend t _ rfl

theorem keeps_callHandler (h : Byte) (frame : Header × Content) : Keeps D S (callHandler h frame) :=
  fun s => hR.after (hR.emit s _) <| hR.bind (keeps_hostRuns hR _) fun _ t => hR.emit t _

theorem keeps_callCallback (cb : Byte) : Keeps D S (callCallback cb) :=
  fun s => hR.after (hR.emit s _) <| hR.bind (keeps_hostRuns hR _) fun _ t => hR.refl t

theorem keeps_dispatchFrame (frame : Header × Content) : Keeps D S (dispatchFrame frame) := by
  intro s
  unfold dispatchFrame
  split
  · exact hR.logDiag s _
  · split
    · exact hR.logDiag s _
    · exact keeps_callHandler hR _ _ s

theorem keeps_rssiSample : Keeps D S rssiSample := by
  intro s
  unfold rssiSample
  split
  · exact hR.bind (keeps_getRssi hR.toQuiet s) fun _ t => hR.refl t
  · exact hR.refl s

theorem keeps_handleFrame (b : List Byte) : Keeps D S (handleFrame b) := by
  intro s
  unfold handleFrame
  refine hR.bind (keeps_rssiSample hR s) fun stamp t => ?_
  split
  · exact hR.logDiag t _
  · exact hR.after (hR.drawn t) (keeps_dispatchFrame hR _ _)

theorem keeps_handlePayload : Keeps D S handlePayload := by
  intro s
  unfold handlePayload
  refine hR.bind (keeps_readFromFifo hR.toQuiet 1 s) fun l t => ?_
  cases l with
  | nil => exact hR.logDiag t _
  | cons n _ =>
    dsimp only
    split
    · exact hR.logDiag t _
    · exact hR.bind (keeps_readFromFifo hR.toQuiet _ t) fun _ u => keeps_handleFrame hR _ u

end

section
variable (hR : Closed D S)
include hR

/-! ## Waits -/

theorem keeps_pollWait (w : WaitFrame) {k : Bool → Cmd} (hk : ∀ b, Keeps D S (k b)) : Keeps D S (pollWait w k) := by
  intro s
  unfold pollWait
  refine hR.bind (keeps_isModeReady hR.toQuiet s) fun ready t => ?_
  split
  · exact hk true t
  · refine hR.bind (hR.afterClock t) fun _ u => ?_
    split
    · exact hR.after (hR.logDiag u _) (hk false _)
    · exact hR.suspend u _ rfl

theorem keeps_waitForModeReady (timeout : Millis) (place : AfterWait) {k : Bool → Cmd} (hk : ∀ b, Keeps D S (k b)) :
    Keeps D S (waitForModeReady timeout place k) :=
  fun s => hR.bind (hR.afterClock s) fun _ t => keeps_pollWait hR _ hk t

theorem keeps_afterTickWait (ready : Bool) {rest : Cmd} (hrest : Keeps D S rest) : Keeps D S (afterTickWait ready rest) := by
  intro s
  unfold afterTickWait
  split
  · exact hrest s
  · split
    · exact hrest s
    · exact hR.refl s
    · exact hR.withTop s _ rfl

theorem keeps_afterListenRearm (ready : Bool) : Keeps D S (afterListenRearm ready) :=
  keeps_afterTickWait hR ready fun s => hR.refl s

theorem keeps_afterListenPayload (ready : Bool) : Keeps D S (afterListenPayload ready) :=
  keeps_afterTickWait hR ready fun s => hR.bind (keeps_handlePayload hR.toCalls s) fun _ t =>
    hR.bind (keeps_setMode hR.toQuiet _ t) fun _ u => keeps_waitForModeReady hR _ _ (keeps_afterListenRearm hR) u

omit hR in
theorem homeTop_entered (p : Params) : (homeTop p).entered = true := by
  unfold homeTop
  split <;> rfl

theorem keeps_afterWait (place : AfterWait) (ready : Bool) : Keeps D S (afterWait place ready) := by
  cases place with
  | operation => exact fun s => hR.refl s
  | init => exact fun s => hR.refl s
  | listenInit => exact keeps_afterTickWait hR ready fun s => hR.withTop s _ rfl
  | listenPayload => exact keeps_afterListenPayload hR ready
  | listenRearm => exact keeps_afterListenRearm hR ready
  | sleep => exact fun s => hR.withTop s _ rfl
  | wakeup =>
    intro s
    simp only [afterWait]
    split
    · exact hR.withTop s _ (homeTop_entered _)
    · exact hR.refl s

/-! ## Init, ticks and commands -/

theorem keeps_configureAll : Keeps D S configureAll := fun s =>
  hR.bind (keeps_configure hR.toQuiet (fun s => s.cfg.setters.carrierFrequency) _ s) fun _ s =>
  hR.bind (keeps_configure hR.toQuiet (fun s => s.cfg.setters.bitRate) _ s) fun _ s =>
  hR.bind (keeps_configure hR.toQuiet (fun s => s.cfg.setters.modulationType) _ s) fun _ s =>
  hR.bind (keeps_configure hR.toQuiet (fun s => s.cfg.setters.powerLevel) _ s) fun _ s =>
  hR.bind (hR.afterNetwork s) fun w s =>
  hR.bind (keeps_setSyncWord hR.toQuiet w s) fun _ s =>
  hR.bind (hR.afterNode s) fun _ s =>
  hR.bind (keeps_configure hR.toQuiet (fun s => s.cfg.setters.nodeAddress) _ s) fun _ s =>
  hR.bind (hR.afterBroadcast s) fun _ s =>
  hR.bind (keeps_configure hR.toQuiet (fun s => s.cfg.setters.broadcastAddress) _ s) fun _ s =>
  hR.bind (keeps_configure hR.toQuiet (fun s => s.cfg.setters.addressFiltering) _ s) fun _ s =>
  hR.bind (keeps_configure hR.toQuiet (fun s => s.cfg.setters.packetFormat) _ s) fun _ s =>
  hR.bind (keeps_configure hR.toQuiet (fun s => s.cfg.setters.crc) _ s) fun _ s =>
  hR.bind (keeps_configure hR.toQuiet (fun s => s.cfg.setters.crcAutoClear) _ s) fun _ s =>
  keeps_configure hR.toQuiet (fun s => s.cfg.setters.fifoThresholdCondition) _ s

theorem keeps_initEngine : Keeps D S initEngine := fun s =>
  hR.bind (keeps_configureAll hR s) fun _ t =>
  hR.bind (hR.after (hR.withSlot t _ slotOk_zeroFrame) (hR.after (hR.withTop _ _ (homeTop_entered _)) (keeps_setMode hR.toQuiet _ _)))
    fun _ u => keeps_waitForModeReady hR _ _ (keeps_afterWait hR .init) u

theorem keeps_tickNotInitialized : Keeps D S tickNotInitialized :=
  fun s => hR.after (hR.logDiag s _) (keeps_initEngine hR _)

theorem keeps_tickIdle : Keeps D S tickIdle := by
  intro s
  unfold tickIdle
  split
  · exact hR.withTop s _ rfl
  · exact hR.refl s

theorem keeps_tickListeningInit : Keeps D S tickListeningInit := by
  intro s
  unfold tickListeningInit
  refine hR.bind (keeps_isPayloadReady hR.toQuiet s) fun stale t => hR.bind ?_ fun _ u =>
    hR.bind (keeps_setHighPowerSettings hR.toQuiet _ u) fun _ v => hR.bind (keeps_setMode hR.toQuiet _ v) fun _ w =>
    keeps_waitForModeReady hR _ _ (keeps_afterWait hR .listenInit) w
  split
  · exact keeps_restartRx hR.toQuiet t
  · exact hR.refl t

theorem keeps_tickListeningWaiting : Keeps D S tickListeningWaiting := by
  intro s
  unfold tickListeningWaiting
  refine hR.bind (keeps_isPayloadReady hR.toQuiet s) fun payload t => ?_
  split
  · exact hR.bind (keeps_setMode hR.toQuiet _ t) fun _ u => keeps_waitForModeReady hR _ _ (keeps_afterWait hR .listenPayload) u
  · exact hR.refl t

theorem keeps_tickListeningSendAck : Keeps D S tickListeningSendAck := by
  intro s
  unfold tickListeningSendAck
  refine hR.bind (keeps_isModeReady hR.toQuiet s) fun ready t => ?_
  dsimp only [Comes]
  split
  · exact hR.withTop t _ rfl
  · exact hR.refl t

theorem keeps_tickSendingInit : Keeps D S tickSendingInit :=
  fun s => hR.bind (keeps_setMode hR.toQuiet _ s) fun _ t => hR.withTop t _ rfl

theorem keeps_tickSendingWriting : Keeps D S tickSendingWriting := by
  intro s
  unfold tickSendingWriting
  refine hR.bind (keeps_isModeReady hR.toQuiet s) fun ready t => ?_
  split
  · exact hR.bind (keeps_writeToFifo hR.toQuiet _ t) fun _ u => hR.bind (keeps_writeToFifo hR.toQuiet _ u) fun _ v =>
      hR.bind (keeps_setMode hR.toQuiet _ v) fun _ w => hR.bind (keeps_setHighPowerSettings hR.toQuiet _ w) fun _ x => hR.withTop x _ rfl
  · exact hR.refl t

/-- The slot is zeroed and the engine Idle. -/
theorem keeps_slotToIdle (s : State) : D s ((s.withSlot zeroFrame).withTop .idle) :=
  hR.trans (hR.withSlot s _ slotOk_zeroFrame) (hR.withTop _ _ rfl)

theorem keeps_tickSendingTransmitting : Keeps D S tickSendingTransmitting := by
  intro s
  unfold tickSendingTransmitting
  refine hR.bind (keeps_isPacketSent hR.toQuiet s) fun sent t => ?_
  split
  · split
    · exact hR.bind (keeps_setMode hR.toQuiet _ t) fun _ u => hR.bind (keeps_setHighPowerSettings hR.toQuiet _ u) fun _ v =>
        hR.withTop v _ rfl
    · refine hR.bind ?_ fun _ u => keeps_slotToIdle hR u
      split
      · exact keeps_callCallback hR.toCalls _ t
      · exact hR.refl t
  · exact hR.refl t

theorem keeps_tickSendingWaitForAck : Keeps D S tickSendingWaitForAck := by
  intro s
  unfold tickSendingWaitForAck
  refine hR.bind (keeps_isPayloadReady hR.toQuiet s) fun payload t => ?_
  split
  · exact hR.bind (keeps_handlePayload hR.toCalls t) fun _ u => hR.bind (keeps_setMode hR.toQuiet _ u) fun _ v => keeps_slotToIdle hR v
  · exact hR.refl t

theorem keeps_tickSleeping : Keeps D S tickSleeping := by
  intro s
  unfold tickSleeping
  split
  · exact hR.refl s
  · refine hR.bind (keeps_getMode hR.toQuiet s) fun code t => ?_
    split
    · exact hR.refl t
    · refine hR.bind (keeps_isModeReady hR.toQuiet t) fun ready u => ?_
      split
      · exact hR.bind (keeps_setMode hR.toQuiet _ u) fun _ v => hR.refl v
      · exact hR.refl u

theorem keeps_updateEngine : Keeps D S updateEngine := by
  intro s
  unfold updateEngine
  split
  · exact keeps_tickNotInitialized hR s
  · exact keeps_tickIdle hR s
  · exact keeps_tickListeningInit hR s
  · exact keeps_tickListeningWaiting hR s
  · exact hR.refl s
  · exact keeps_tickListeningSendAck hR s
  · exact hR.refl s
  · exact keeps_tickSendingInit hR s
  · exact keeps_tickSendingWriting hR s
  · exact keeps_tickSendingTransmitting hR s
  · exact keeps_tickSendingWaitForAck hR s
  · exact hR.refl s
  · exact keeps_tickSleeping hR s

theorem keeps_eventSleep : Keeps D S eventSleep := by
  intro s
  unfold eventSleep
  split
  · exact hR.bind (keeps_updateEngine hR s) fun _ t => hR.suspend t _ rfl
  · exact hR.bind (keeps_setMode hR.toQuiet _ s) fun _ t => keeps_waitForModeReady hR _ _ (keeps_afterWait hR .sleep) t

theorem keeps_eventHandler (kind : Byte) : Keeps D S (eventHandler kind) := by
  intro s
  unfold eventHandler
  split
  · exact keeps_eventSleep hR s
  · exact hR.bind (keeps_setMode hR.toQuiet _ s) fun _ t => keeps_waitForModeReady hR _ _ (keeps_afterWait hR .wakeup) t
  · exact hR.refl s

/-! ## The instructions and the step -/

/-- An operation whose value is only wrapped. -/
theorem keeps_value {α : Type} {f : State → Flow α} (h : Keeps D S f) (v : α → Option Value) :
    Keeps D S (fun s => (f s).bind fun a t => .done (v a) t) :=
  fun s => hR.bind (h s) fun _ t => hR.refl t

/-- An operation that only reads the engine's own state. -/
theorem keeps_pure (v : State → Option Value) : Keeps D S (fun s => Flow.done (v s) s) := fun s => hR.refl s

theorem keeps_decodeFrameAlone (b : List Byte) : Keeps D S (decodeFrameAlone b) := fun s => hR.drawn s

end

section
variable (hR : Runs D S N)
include hR

theorem next_finish {s : State} {f : Flow (Option Value)} (h : Comes D S s f) : N s f.finish := by
  cases f with
  | done v t => exact hR.returned v h
  | stop t => exact hR.stopped h

theorem next_command {body : Cmd} (hb : Keeps D S body) {s t : State} (h : command body s = .next t) : N s t := by
  unfold command at h
  cases h
  split
  · exact hR.same s
  · rename_i hh
    exact next_finish hR (hR.after (hR.started s (by simpa using hh)) (hb s.started))

/-- A well-formed instruction relates the state to the next one. -/
theorem exec_closed {i : Instr} (hi : i.WellFormed = true) {s t : State} (h : exec i s = .next t) : N s t := by
  cases i with
  | spiWrite a d => exact next_command hR (keeps_value hR.toClosed (keeps_spiWrite hR.toQuiet _ _) _) h
  | spiRead a => exact next_command hR (keeps_value hR.toClosed (keeps_spiRead hR.toQuiet _) _) h
  | init => exact next_command hR (keeps_initEngine hR.toClosed) h
  | update => exact next_command hR (keeps_updateEngine hR.toClosed) h
  | send target ack cb content => exact next_command hR (keeps_boolResult hR.toQuiet (keeps_sendCommand hR.toCalls hi)) h
  | setHandler type handler => exact next_command hR (keeps_noResult hR.toQuiet (keeps_setPacketHandler hR.toCalls _ _)) h
  | event kind => exact next_command hR (keeps_eventHandler hR.toClosed _) h
  | setMode m => exact next_command hR (keeps_noResult hR.toQuiet (keeps_setModeOperand hR.toQuiet _)) h
  | getMode => exact next_command hR (keeps_value hR.toClosed (keeps_getMode hR.toQuiet) _) h
  | waitForModeReady timeoutMs =>
    exact next_command hR (keeps_waitForModeReady hR.toClosed _ _ (keeps_afterWait hR.toClosed .operation)) h
  | isModeReady => exact next_command hR (keeps_boolResult hR.toQuiet (keeps_isModeReady hR.toQuiet)) h
  | isPayloadReady => exact next_command hR (keeps_boolResult hR.toQuiet (keeps_isPayloadReady hR.toQuiet)) h
  | isPacketSent => exact next_command hR (keeps_boolResult hR.toQuiet (keeps_isPacketSent hR.toQuiet)) h
  | isFifoNotEmpty => exact next_command hR (keeps_boolResult hR.toQuiet (keeps_isFifoNotEmpty hR.toQuiet)) h
  | isFifoFull => exact next_command hR (keeps_boolResult hR.toQuiet (keeps_isFifoFull hR.toQuiet)) h
  | writeToFifo buf => exact next_command hR (keeps_value hR.toClosed (keeps_writeToFifo hR.toQuiet _) _) h
  | readFromFifo maxLength => exact next_command hR (keeps_value hR.toClosed (keeps_readFromFifo hR.toQuiet _) _) h
  | getRssi => exact next_command hR (keeps_value hR.toClosed (keeps_getRssi hR.toQuiet) _) h
  | restartRx => exact next_command hR (keeps_noResult hR.toQuiet (keeps_restartRx hR.toQuiet)) h
  | setHighPowerSettings on => exact next_command hR (keeps_noResult hR.toQuiet (keeps_setHighPowerSettings hR.toQuiet _)) h
  | setCarrierFrequency frf =>
    exact next_command hR (keeps_noResult hR.toQuiet (keeps_configure hR.toQuiet (fun s => s.cfg.setters.carrierFrequency) _)) h
  | setBitRate br => exact next_command hR (keeps_noResult hR.toQuiet (keeps_configure hR.toQuiet (fun s => s.cfg.setters.bitRate) _)) h
  | setModulationType m =>
    exact next_command hR (keeps_noResult hR.toQuiet (keeps_configure hR.toQuiet (fun s => s.cfg.setters.modulationType) _)) h
  | setPowerLevel p =>
    exact next_command hR (keeps_noResult hR.toQuiet (keeps_configure hR.toQuiet (fun s => s.cfg.setters.powerLevel) _)) h
  | setSyncWord word => exact next_command hR (keeps_boolResult hR.toQuiet (keeps_setSyncWord hR.toQuiet _)) h
  | setNodeAddress a =>
    exact next_command hR (keeps_noResult hR.toQuiet (keeps_configure hR.toQuiet (fun s => s.cfg.setters.nodeAddress) _)) h
  | setBroadcastAddress a =>
    exact next_command hR (keeps_noResult hR.toQuiet (keeps_configure hR.toQuiet (fun s => s.cfg.setters.broadcastAddress) _)) h
  | setAddressFiltering f =>
    exact next_command hR (keeps_noResult hR.toQuiet (keeps_configure hR.toQuiet (fun s => s.cfg.setters.addressFiltering) _)) h
  | setPacketFormat f =>
    exact next_command hR (keeps_noResult hR.toQuiet (keeps_configure hR.toQuiet (fun s => s.cfg.setters.packetFormat) _)) h
  | setCrc on => exact next_command hR (keeps_noResult hR.toQuiet (keeps_configure hR.toQuiet (fun s => s.cfg.setters.crc) _)) h
  | setCrcAutoClear on =>
    exact next_command hR (keeps_noResult hR.toQuiet (keeps_configure hR.toQuiet (fun s => s.cfg.setters.crcAutoClear) _)) h
  | setFifoThresholdCondition c =>
    exact next_command hR (keeps_noResult hR.toQuiet (keeps_configure hR.toQuiet (fun s => s.cfg.setters.fifoThresholdCondition) _)) h
  | setPreambleLength n =>
    exact next_command hR (keeps_noResult hR.toQuiet (keeps_configure hR.toQuiet (fun s => s.cfg.setters.preambleLength) _)) h
  | validateContentSize content => exact next_command hR (keeps_done hR.toQuiet _) h
  | computeTotalSize content => exact next_command hR (keeps_done hR.toQuiet _) h
  | encodeFrame header content => exact next_command hR (keeps_done hR.toQuiet _) h
  | decodeFrame bytes => exact next_command hR (keeps_value hR.toClosed (keeps_decodeFrameAlone hR.toClosed _) _) h
  | packetToSend => exact next_command hR (keeps_pure hR.toClosed fun s => some (.bool s.packetStaged)) h
  | isReadyToSend => exact next_command hR (keeps_boolResult hR.toQuiet (keeps_isReadyToSend hR.toQuiet)) h
  | isActive => exact next_command hR (keeps_pure hR.toClosed fun s => some (.bool s.active)) h
  | handlePayload => exact next_command hR (keeps_boolResult hR.toQuiet (keeps_handlePayload hR.toCalls)) h
  | tickNotInitialized => exact next_command hR (keeps_tickNotInitialized hR.toClosed) h
  | tickIdle => exact next_command hR (keeps_tickIdle hR.toClosed) h
  | tickListeningInit => exact next_command hR (keeps_tickListeningInit hR.toClosed) h
  | tickListeningWaiting => exact next_command hR (keeps_tickListeningWaiting hR.toClosed) h
  | tickListeningReceiving => exact next_command hR (keeps_pure hR.toClosed fun _ => none) h
  | tickListeningSendAck => exact next_command hR (keeps_tickListeningSendAck hR.toClosed) h
  | tickListeningDone => exact next_command hR (keeps_pure hR.toClosed fun _ => none) h
  | tickSendingInit => exact next_command hR (keeps_tickSendingInit hR.toClosed) h
  | tickSendingWriting => exact next_command hR (keeps_tickSendingWriting hR.toClosed) h
  | tickSendingTransmitting => exact next_command hR (keeps_tickSendingTransmitting hR.toClosed) h
  | tickSendingWaitForAck => exact next_command hR (keeps_tickSendingWaitForAck hR.toClosed) h
  | tickSendingDone => exact next_command hR (keeps_pure hR.toClosed fun _ => none) h
  | tickSleeping => exact next_command hR (keeps_tickSleeping hR.toClosed) h

/-- A command in progress relates the state to the next one. -/
theorem goOn_closed {p : Pending} {s t : State} (hs : s.halted = false) (h : goOn p s = .next t) : N s t := by
  cases p with
  | wait w =>
    cases h
    exact next_finish hR (hR.after (hR.resumed s hs) (keeps_pollWait hR.toClosed _ (keeps_afterWait hR.toClosed _) _))
  | drain =>
    cases h
    exact next_finish hR (hR.after (hR.resumed s hs) (keeps_eventSleep hR.toClosed _))
  | refusal r => cases h
  | held =>
    cases h
    exact hR.same s

/-- A frame relates the state it runs from to the next one. -/
theorem runFrame_closed {frame : CommandFrame} {s t : State} (h : runFrame frame s = .next t) : N s t := by
  unfold runFrame at h
  split at h
  · rename_i hd
    exact exec_closed hR (decode_wellFormed hd) h
  · unfold rejectFrame at h
    split at h
    · exact next_command hR (keeps_raiseFatal hR.toQuiet _) h
    · cases h

/-- Every step relates the state to the next one, if taking a frame from the queue does. -/
theorem step_closed (hI : ∀ {s t} f rest, s.inbox = f :: rest → N (s.withInbox rest) t → N s t) {s t : State}
    (h : step s = .next t) : N s t := by
  unfold step at h
  split at h
  · cases h
    exact hR.same s
  · rename_i hh
    split at h
    · split at h
      · exact goOn_closed hR (by simpa using hh) h
      · unfold takeCommand at h
        split at h
        · cases h
          exact hR.same s
        · rename_i hi
          exact hI _ _ hi (runFrame_closed hR h)
    · cases h

end

end Sys2Proof.Machine
end

