-- ==== Sys2Proof/Laws/Frame.lean ====
section
/-!
SUPPORT. What decoding a received frame gives, and what a staged packet looks like on the air.
-/

namespace Sys2Proof.Machine

theorem frameWellFormed_iff (b : List Byte) : frameWellFormed b = true ↔ frameLengthsOk b := by
  simp [frameWellFormed, frameLengthsOk, Config.hdrLen, Config.metaLen, Config.contentDataMax, and_assoc]

/-- A frame that passes the length checks decodes to its fields, and nothing is drawn (R154, R155). -/
theorem decodeFrameBytes_ok {b : List Byte} (h : frameLengthsOk b) (p : Params) (stamp : Option Byte)
    (missing : Nat → Byte) : decodeFrameBytes stamp missing b =
    ({ receivedHeader p none b with rssi := stamp.getD (b.getD 4 0) }, receivedContent b) := by
  rw [decodeFrameBytes, if_pos ((frameWellFormed_iff b).2 h)]
  obtain ⟨h1, h2, h3⟩ := h
  simp only [decodeHeader, decodeContent, receivedHeader, receivedContent, boolOfByte]
  generalize hn : (b.getD 12 0).toNat = n at h2 h3 ⊢
  have hl : ((b.drop 13).take n).length = n := by
    simp only [List.length_take, List.length_drop]
    omega
  simp only [padData, Config.contentDataMax, List.take_append, hl, List.take_replicate]
  rw [List.take_of_length_le (i := 20) (l := (b.drop 13).take n) (by omega)]
  simp

theorem byteOrDrawn_of_some {missing : Nat → Byte} {b : List Byte} {i : Nat} {x : Byte} (h : b[i]? = some x) :
    byteOrDrawn missing b i = x := by simp [byteOrDrawn, h]

/-- A frame that fails the length checks decodes to a header and content that carry what it has (R154, U18). -/
theorem decodeFrameBytes_loose {b : List Byte} (h : ¬ frameLengthsOk b) (p : Params) (sample : Option Byte)
    (missing : Nat → Byte) : ∃ (hd : Header) (c : Content),
    decodeFrameBytes (sample.map fun v => saturateI8 (rssiDbm p.rssiConv v)) missing b = (hd, c) ∧
      carriesReceived p sample b hd c := by
  refine ⟨_, _, by rw [decodeFrameBytes, if_neg (mt (frameWellFormed_iff b).1 h)], ?_⟩
  refine ⟨fun _ => byteOrDrawn_of_some, fun _ => byteOrDrawn_of_some, fun _ => byteOrDrawn_of_some,
    fun x hx => ?_, fun x hs hx => ?_, fun v hv => ?_, by simp [looseContent, Config.tsLen], fun i x hi hx => ?_,
    fun _ => byteOrDrawn_of_some, fun x hx h20 => ?_, by simp [looseContent, Config.contentDataMax], fun i x hi hx => ?_⟩
  · simp [looseHeader, boolOfByte, byteOrDrawn_of_some hx]
  · simp [looseHeader, hs, byteOrDrawn_of_some hx]
  · simp [looseHeader, hv]
  · simp [looseContent, Config.tsLen, hi, byteOrDrawn_of_some hx]
  · simp [looseContent, sizeOrDrawn, Config.contentDataMax, hx, h20, byteOrDrawn_of_some hx]
  · simp [looseContent, Config.contentDataMax, hi, byteOrDrawn_of_some hx]

/-- The bytes of a staged packet pass the length checks and carry its header and content (R152, R155, R156). -/
theorem staged_received {p : Packet} (h : slotOk p = true) (hz : p ≠ zeroFrame) (c : Params) :
    frameLengthsOk (headerBytes p.header ++ contentBytes p.content) ∧
      receivedHeader c none (headerBytes p.header ++ contentBytes p.content) = p.header ∧
      receivedContent (headerBytes p.header ++ contentBytes p.content) = p.content := by
  obtain ⟨⟨ts, tg, so, ack, rs⟩, ⟨tm, ty, sz, da⟩, cb⟩ := p
  simp only [slotOk, hz, decide_false, Bool.false_or, Bool.and_eq_true, decide_eq_true_eq, Config.tsLen,
    Config.contentDataMax, List.all_eq_true, beq_iff_eq] at h
  obtain ⟨⟨⟨⟨⟨⟨h1, h2⟩, h3⟩, -⟩, -⟩, h6⟩, -⟩ := h
  have hdrop : da.drop sz.toNat = List.replicate (20 - sz.toNat) 0 := by
    rw [List.eq_replicate_iff]
    exact ⟨by simp [h2], h6⟩
  have hd : da.take sz.toNat ++ List.replicate (20 - sz.toNat) 0 = da := by rw [← hdrop, List.take_append_drop]
  match tm, h1 with
  | [a, b, c', d, e, f], _ =>
    refine ⟨?_, ?_, ?_⟩
    · simp [frameLengthsOk, headerBytes, contentBytes, Config.tsLen, h2]
      omega
    · cases ack <;> simp [receivedHeader, headerBytes, contentBytes, byteOfBool]
    · simp only [receivedContent, headerBytes, contentBytes, Config.tsLen]
      simpa [List.take_take] using hd

end Sys2Proof.Machine
end

