-- ==== Sys2Proof/Laws/PerInstr.lean ====
section
/-!
SUPPORT. Statements made for every instruction, one lemma per constructor.
-/

namespace Sys2Proof.Laws

/-- The first bytes of an encoded instruction fix its length, so a stream of frames can be cut without a separator
(R83, R89). -/
def EncodedLength.Statement (i : Instr) : Prop :=
  i.WellFormed = true → instrLength (encode i).format (encode i).bytes = (encode i).bytes.length

/-- The length of an encoded content, whose size byte is the eighth of it. -/
theorem encodedLength_content {c : Content} (h : c.operandOk = true) :
    (bytesContent c).length = 8 + ((bytesContent c).getD 7 0).toNat := by
  obtain ⟨ts, type, size, data⟩ := c
  simp only [Content.operandOk, Config.tsLen, Bool.and_eq_true, beq_iff_eq] at h
  obtain ⟨hts, hd⟩ := h
  simp [bytesContent, List.getElem?_append, hts, hd]
  omega

/-- The count byte before a byte sequence says its length. -/
theorem encodedLength_counted {b : List Byte} (h : byteSeqOk b = true) :
    (BitVec.ofNat 8 b.length).toNat = b.length := by
  have h' : b.length < 256 := by simpa [byteSeqOk] using h
  simp only [BitVec.toNat_ofNat]
  omega

theorem EncodedLength.spiWrite (a : BitVec 7) (d : Byte) :
    EncodedLength.Statement (.spiWrite a d) := fun _ => rfl

theorem EncodedLength.spiRead (a : BitVec 7) :
    EncodedLength.Statement (.spiRead a) := fun _ => rfl

theorem EncodedLength.init :
    EncodedLength.Statement .init := fun _ => rfl

theorem EncodedLength.update :
    EncodedLength.Statement .update := fun _ => rfl

theorem EncodedLength.send (target : Byte) (requestAck : Bool) (callback : Byte) (content : Content) :
    EncodedLength.Statement (.send target requestAck callback content) := fun h => by
  change 12 + ((bytesContent content).getD 7 0).toNat = (bytesContent content).length + 4
  rw [encodedLength_content h]
  omega

theorem EncodedLength.setHandler (type handler : Byte) :
    EncodedLength.Statement (.setHandler type handler) := fun _ => rfl

theorem EncodedLength.event (kind : Byte) :
    EncodedLength.Statement (.event kind) := fun _ => rfl

theorem EncodedLength.setMode (m : Byte) :
    EncodedLength.Statement (.setMode m) := fun _ => rfl

theorem EncodedLength.getMode :
    EncodedLength.Statement .getMode := fun _ => rfl

theorem EncodedLength.waitForModeReady (timeoutMs : Millis) :
    EncodedLength.Statement (.waitForModeReady timeoutMs) := fun _ => rfl

theorem EncodedLength.isModeReady :
    EncodedLength.Statement .isModeReady := fun _ => rfl

theorem EncodedLength.isPayloadReady :
    EncodedLength.Statement .isPayloadReady := fun _ => rfl

theorem EncodedLength.isPacketSent :
    EncodedLength.Statement .isPacketSent := fun _ => rfl

theorem EncodedLength.isFifoNotEmpty :
    EncodedLength.Statement .isFifoNotEmpty := fun _ => rfl

theorem EncodedLength.isFifoFull :
    EncodedLength.Statement .isFifoFull := fun _ => rfl

theorem EncodedLength.writeToFifo (buf : List Byte) :
    EncodedLength.Statement (.writeToFifo buf) := fun h => by
  change 2 + (BitVec.ofNat 8 buf.length).toNat = buf.length + 1 + 1
  rw [encodedLength_counted h]
  omega

theorem EncodedLength.readFromFifo (maxLength : Byte) :
    EncodedLength.Statement (.readFromFifo maxLength) := fun _ => rfl

theorem EncodedLength.getRssi :
    EncodedLength.Statement .getRssi := fun _ => rfl

theorem EncodedLength.restartRx :
    EncodedLength.Statement .restartRx := fun _ => rfl

theorem EncodedLength.setHighPowerSettings (on : Bool) :
    EncodedLength.Statement (.setHighPowerSettings on) := fun _ => rfl

theorem EncodedLength.setCarrierFrequency (frf : BitVec 24) :
    EncodedLength.Statement (.setCarrierFrequency frf) := fun _ => rfl

theorem EncodedLength.setBitRate (br : BitVec 16) :
    EncodedLength.Statement (.setBitRate br) := fun _ => rfl

theorem EncodedLength.setModulationType (m : Byte) :
    EncodedLength.Statement (.setModulationType m) := fun _ => rfl

theorem EncodedLength.setPowerLevel (p : Byte) :
    EncodedLength.Statement (.setPowerLevel p) := fun _ => rfl

theorem EncodedLength.setSyncWord (word : List Byte) :
    EncodedLength.Statement (.setSyncWord word) := fun h => by
  change 2 + (BitVec.ofNat 8 word.length).toNat = word.length + 1 + 1
  rw [encodedLength_counted h]
  omega

theorem EncodedLength.setNodeAddress (a : Byte) :
    EncodedLength.Statement (.setNodeAddress a) := fun _ => rfl

theorem EncodedLength.setBroadcastAddress (a : Byte) :
    EncodedLength.Statement (.setBroadcastAddress a) := fun _ => rfl

theorem EncodedLength.setAddressFiltering (f : Byte) :
    EncodedLength.Statement (.setAddressFiltering f) := fun _ => rfl

theorem EncodedLength.setPacketFormat (f : Byte) :
    EncodedLength.Statement (.setPacketFormat f) := fun _ => rfl

theorem EncodedLength.setCrc (on : Bool) :
    EncodedLength.Statement (.setCrc on) := fun _ => rfl

theorem EncodedLength.setCrcAutoClear (on : Bool) :
    EncodedLength.Statement (.setCrcAutoClear on) := fun _ => rfl

theorem EncodedLength.setFifoThresholdCondition (c : Byte) :
    EncodedLength.Statement (.setFifoThresholdCondition c) := fun _ => rfl

theorem EncodedLength.setPreambleLength (n : BitVec 16) :
    EncodedLength.Statement (.setPreambleLength n) := fun _ => rfl

theorem EncodedLength.validateContentSize (content : Content) :
    EncodedLength.Statement (.validateContentSize content) := fun h => by
  change 9 + ((bytesContent content).getD 7 0).toNat = (bytesContent content).length + 1
  rw [encodedLength_content h]
  omega

theorem EncodedLength.computeTotalSize (content : Content) :
    EncodedLength.Statement (.computeTotalSize content) := fun h => by
  change 9 + ((bytesContent content).getD 7 0).toNat = (bytesContent content).length + 1
  rw [encodedLength_content h]
  omega

theorem EncodedLength.encodeFrame (header : Header) (content : Content) :
    EncodedLength.Statement (.encodeFrame header content) := fun h => by
  change 14 + ((bytesContent content).getD 7 0).toNat = (bytesContent content).length + 6
  rw [encodedLength_content h]
  omega

theorem EncodedLength.decodeFrame (bytes : List Byte) :
    EncodedLength.Statement (.decodeFrame bytes) := fun h => by
  change 2 + (BitVec.ofNat 8 bytes.length).toNat = bytes.length + 1 + 1
  rw [encodedLength_counted h]
  omega

theorem EncodedLength.packetToSend :
    EncodedLength.Statement .packetToSend := fun _ => rfl

theorem EncodedLength.isReadyToSend :
    EncodedLength.Statement .isReadyToSend := fun _ => rfl

theorem EncodedLength.isActive :
    EncodedLength.Statement .isActive := fun _ => rfl

theorem EncodedLength.handlePayload :
    EncodedLength.Statement .handlePayload := fun _ => rfl

theorem EncodedLength.tickNotInitialized :
    EncodedLength.Statement .tickNotInitialized := fun _ => rfl

theorem EncodedLength.tickIdle :
    EncodedLength.Statement .tickIdle := fun _ => rfl

theorem EncodedLength.tickListeningInit :
    EncodedLength.Statement .tickListeningInit := fun _ => rfl

theorem EncodedLength.tickListeningWaiting :
    EncodedLength.Statement .tickListeningWaiting := fun _ => rfl

theorem EncodedLength.tickListeningReceiving :
    EncodedLength.Statement .tickListeningReceiving := fun _ => rfl

theorem EncodedLength.tickListeningSendAck :
    EncodedLength.Statement .tickListeningSendAck := fun _ => rfl

theorem EncodedLength.tickListeningDone :
    EncodedLength.Statement .tickListeningDone := fun _ => rfl

theorem EncodedLength.tickSendingInit :
    EncodedLength.Statement .tickSendingInit := fun _ => rfl

theorem EncodedLength.tickSendingWriting :
    EncodedLength.Statement .tickSendingWriting := fun _ => rfl

theorem EncodedLength.tickSendingTransmitting :
    EncodedLength.Statement .tickSendingTransmitting := fun _ => rfl

theorem EncodedLength.tickSendingWaitForAck :
    EncodedLength.Statement .tickSendingWaitForAck := fun _ => rfl

theorem EncodedLength.tickSendingDone :
    EncodedLength.Statement .tickSendingDone := fun _ => rfl

theorem EncodedLength.tickSleeping :
    EncodedLength.Statement .tickSleeping := fun _ => rfl

end Sys2Proof.Laws
end

