-- ==== Sys2Proof/Laws/Receive.lean ====
section
/-!
SUPPORT. What HandlePayload does under given answers, said once up to the dispatch, and what the dispatch does.
-/

namespace Sys2Proof.Machine

/-- The length byte of a frame that is there (R208, R209). -/
theorem readLength_answers {s : State} {f n : Byte} {dev : List Byte} (hr : regMapOk s.cfg = true)
    (hd : s.devIn = f :: n :: dev) (hf : fifoNotEmptyFlag s.cfg.regs f = true) : readFromFifo 1 s = .done [n] { s with
      devIn := dev,
      trace := s.trace ++ [readEvent s.cfg s.cfg.regs.irqFlags2 f, readEvent s.cfg s.cfg.regs.fifo n] } := by
  rw [readFromFifo_answers 1 [(f, n)] none dev s hr ⟨by simpa using hf, by simp⟩ (by simpa [fifoReadScript] using hd)]
  simp [fifoReadEvents, fifoReadLog]

/-- The local sample under RSSI_STAMP (R210). -/
theorem rssiSample_answers {s : State} {sample : Option Byte} {dev : List Byte} (hr : regMapOk s.cfg = true)
    (hs : s.cfg.rssiStamp = sample.isSome) (hd : s.devIn = sample.toList ++ dev) : rssiSample s =
    .done (sample.map fun v => saturateI8 (rssiDbm s.cfg.rssiConv v)) { s with
      devIn := dev, trace := s.trace ++ sample.toList.map (readEvent s.cfg s.cfg.regs.rssiValue) } := by
  cases sample with
  | none =>
    simp at hd hs
    simp [rssiSample, hs, ← hd]
  | some v =>
    simp at hd hs
    simp [rssiSample, hs, getRssi_ok hr, deviceAnswer_cons hd, State.afterRead, hd]

/-- No length byte (R208). -/
theorem handlePayload_empty {s : State} {f : Byte} {dev : List Byte} (hr : regMapOk s.cfg = true)
    (hd : s.devIn = f :: dev) (hf : fifoNotEmptyFlag s.cfg.regs f = false) : handlePayload s = .done false { s with
      devIn := dev, trace := s.trace ++ [readEvent s.cfg s.cfg.regs.irqFlags2 f],
      log := s.log ++ [(.error, 0x13), (.error, 0x1A)] } := by
  rw [handlePayload, readFromFifo_answers 1 [] (some f) dev s hr ⟨by simp, Or.inr ⟨f, rfl, hf, by simp⟩⟩
    (by simpa [fifoReadScript] using hd)]
  simp [State.logDiag, State.logAt, Diag.level, Diag.code, fifoReadEvents, fifoReadLog]

/-- An oversized length byte (R209). -/
theorem handlePayload_oversize {s : State} {f n : Byte} {dev : List Byte} (hr : regMapOk s.cfg = true)
    (hd : s.devIn = f :: n :: dev) (hf : fifoNotEmptyFlag s.cfg.regs f = true) (hn : s.cfg.fifoSize < n.toNat + 1) :
    handlePayload s = .done false { s with
      devIn := dev, trace := s.trace ++ [readEvent s.cfg s.cfg.regs.irqFlags2 f, readEvent s.cfg s.cfg.regs.fifo n],
      log := s.log ++ [(.error, 0x14)] } := by
  rw [handlePayload, readLength_answers hr hd hf]
  simp only [bind_done, if_pos hn]
  simp [State.logDiag, State.logAt, Diag.level, Diag.code]

/-- The state HandlePayload is in once the frame is read (R208 to R210). -/
def State.afterFrame (s : State) (f n : Byte) (got : List (Byte × Byte)) (stop sample : Option Byte) (dev : List Byte) :
    State :=
  { s with
    devIn := dev,
    trace := s.trace ++ [readEvent s.cfg s.cfg.regs.irqFlags2 f, readEvent s.cfg s.cfg.regs.fifo n]
      ++ fifoReadEvents s.cfg got stop ++ sample.toList.map (readEvent s.cfg s.cfg.regs.rssiValue),
    log := s.log ++ fifoReadLog stop }

/-- A frame within the FIFO's size: the length checks, then the dispatch (R208 to R211). -/
theorem handlePayload_frame {s : State} {f n : Byte} {got : List (Byte × Byte)} {stop sample : Option Byte}
    {dev : List Byte} (hr : regMapOk s.cfg = true) (hs : s.cfg.rssiStamp = sample.isSome) (hf : fifoNotEmptyFlag s.cfg.regs f = true)
    (hn : n.toNat + 1 ≤ s.cfg.fifoSize) (ha : fifoReadAnswers s.cfg.regs n.toNat got stop)
    (hd : s.devIn = f :: n :: (fifoReadScript got stop ++ sample.toList ++ dev)) :
    handlePayload s =
      if s.cfg.rxStrict && !frameWellFormed (n :: got.map Prod.snd) then
        .done false ((s.afterFrame f n got stop sample dev).logDiag .rxMalformed)
      else
        dispatchFrame
          (decodeFrameBytes (sample.map fun v => saturateI8 (rssiDbm s.cfg.rssiConv v)) (Config.missingByte s.draws)
            (n :: got.map Prod.snd))
          (s.afterFrame f n got stop sample dev).drawn := by
  have hn' : ¬ s.cfg.fifoSize < n.toNat + 1 := by omega
  rw [handlePayload, readLength_answers hr hd hf]
  simp only [bind_done, if_neg hn']
  rw [readFromFifo_answers n.toNat got stop (sample.toList ++ dev) _ (by exact hr) (by exact ha) (by simp)]
  simp only [bind_done, handleFrame]
  rw [rssiSample_answers (sample := sample) (dev := dev) (by exact hr) (by exact hs) (by rfl)]
  rfl

/-- What the host does at an upcall, given its answer (R175, R186): its nested commands, then its return, or nothing
more. -/
theorem hostRuns_answer {s : State} {nested : List (List Byte)} {result : Option Bool} {host : List HostAnswer}
    (hh : s.hostIn = ⟨nested, result⟩ :: host) : hostRuns s =
    (nestedCommands nested { s with hostIn := host }).bind fun _ t =>
      match result with
      | some r => .done r t
      | none => .stop { t with control := some .held } := by
  simp only [hostRuns, State.hostAnswerNow, State.afterHost, hh, List.headD_cons, List.tail_cons]
  rfl

/-- A frame whose type has a handler is one upcall of it (R211). -/
theorem dispatchFrame_upcall {s : State} {h : Header} {c : Content} {hid : Byte}
    (ht : s.handlers[c.type.toNat]? = some (some hid)) : dispatchFrame (h, c) s = callHandler hid (h, c) s := by
  have hlt : ¬ s.handlers.length ≤ c.type.toNat := by
    intro hc
    rw [List.getElem?_eq_none hc] at ht
    cases ht
  simp only [dispatchFrame, State.numTypes, if_neg hlt, List.getD, ht, Option.getD_some]

/-- A frame whose type has a handler, which issues no command before it answers (R175, R211). -/
theorem dispatchFrame_handler {s : State} {h : Header} {c : Content} {hid : Byte} {r : Bool} {host : List HostAnswer}
    (ht : s.handlers[c.type.toNat]? = some (some hid)) (hh : s.hostIn = ⟨[], some r⟩ :: host) :
    dispatchFrame (h, c) s = .done r { s with
      hostIn := host, trace := s.trace ++ [.handlerCall hid h c, .handlerReturn r] } := by
  rw [dispatchFrame_upcall ht, callHandler, hostRuns_answer (by exact hh)]
  simp [State.emit, nestedCommands]

/-- A frame whose type has no handler (R211). -/
theorem dispatchFrame_noHandler {s : State} {h : Header} {c : Content} (ht : s.handlers[c.type.toNat]? = some none) :
    dispatchFrame (h, c) s = .done false (s.logDiag .noHandler) := by
  have hlt : ¬ s.handlers.length ≤ c.type.toNat := by
    intro hc
    rw [List.getElem?_eq_none hc] at ht
    cases ht
  simp only [dispatchFrame, State.numTypes, if_neg hlt, List.getD, ht, Option.getD_some]

/-- A frame whose type is out of range (R211). -/
theorem dispatchFrame_range {s : State} {h : Header} {c : Content} (ht : s.numTypes ≤ c.type.toNat) :
    dispatchFrame (h, c) s = .done false (s.logDiag .typeRange) := by
  simp [dispatchFrame, ht]

end Sys2Proof.Machine
end

