-- ==== Sys2Proof/Tests/Slice0.lean ====
section
/-!
SUPPORT. Tests: ill-formed terms that WellFormed refuses; words written out from the encodings of 30_encoding.md, one for
every constructor; one-step tests with the values of 95_test_vectors.md (its ids stand before each); and, for every
statement with hypotheses, a concrete state and operands that meet them, clause by clause.
-/

namespace Sys2Proof.Tests

open Sys2Proof.Machine

/-! ## WellFormed -/

/-- A content with six timestamp bytes and as many data bytes as it says. -/
def contentOf (type : Byte) (data : List Byte) : Content :=
  ⟨[0, 0, 0, 0, 0, 0], type, BitVec.ofNat 8 data.length, data⟩

theorem test_wellFormed_timestamp : (Instr.send 5 false 0 ⟨[0, 0, 0, 0, 0], 2, 1, [1]⟩).WellFormed = false := by decide
theorem test_wellFormed_data : (Instr.send 5 false 0 ⟨[0, 0, 0, 0, 0, 0], 2, 2, [1]⟩).WellFormed = false := by decide
theorem test_wellFormed_contents :
    (Instr.validateContentSize ⟨[], 2, 0, []⟩).WellFormed = false ∧
    (Instr.computeTotalSize ⟨[0, 0, 0, 0, 0, 0], 2, 0, [1]⟩).WellFormed = false ∧
    (Instr.encodeFrame ⟨0, 0, 0, false, 0⟩ ⟨[0, 0, 0, 0, 0, 0, 0], 2, 0, []⟩).WellFormed = false := by decide
theorem test_wellFormed_writeToFifo : (Instr.writeToFifo (List.replicate 256 0)).WellFormed = false := by
  simp only [Instr.WellFormed, byteSeqOk, List.length_replicate]
  decide
theorem test_wellFormed_setSyncWord : (Instr.setSyncWord (List.replicate 256 1)).WellFormed = false := by
  simp only [Instr.WellFormed, byteSeqOk, List.length_replicate]
  decide
theorem test_wellFormed_decodeFrame : (Instr.decodeFrame (List.replicate 256 0)).WellFormed = false := by
  simp only [Instr.WellFormed, byteSeqOk, List.length_replicate]
  decide
theorem test_wellFormed_accepts : (Instr.send 5 false 7 (contentOf 2 [1, 2, 3, 4])).WellFormed = true := by decide

/-! ## Decoding

The words of R71 (the flag bit, seven address bits, eight data bits), R80, R84 and R85. -/

theorem test_decode_spi :
    decode ⟨.spi, [0b1_0000001#8, 0b00000100#8]⟩ = .ok (.spiWrite 0b0000001#7 0x04) ∧
    decode ⟨.spi, [0b0_0100111#8, 0b00000000#8]⟩ = .ok (.spiRead 0b0100111#7) ∧
    decode ⟨.spi, [0b0_0100111#8, 0b00000001#8]⟩ = .error (.readWithData 1) := by decide

theorem test_decode_host :
    decode ⟨.host, [0x01]⟩ = .ok .init ∧
    decode ⟨.host, [0x02]⟩ = .ok .update ∧
    decode ⟨.host, [0x03, 0x05, 0x7F, 0x07, 1, 2, 3, 4, 5, 6, 0x02, 0x03, 0xA, 0xB, 0xC]⟩
      = .ok (.send 0x05 true 0x07 ⟨[1, 2, 3, 4, 5, 6], 0x02, 0x03, [0xA, 0xB, 0xC]⟩) ∧
    decode ⟨.host, [0x04, 0x02, 0x01]⟩ = .ok (.setHandler 0x02 0x01) ∧
    decode ⟨.host, [0x05, 0x01]⟩ = .ok (.event 0x01) := by decide

theorem test_decode_host_refuses :
    decode ⟨.host, []⟩ = .error .emptyFrame ∧
    decode ⟨.host, [0x00]⟩ = .error (.unknownCode .host 0x00) ∧
    decode ⟨.host, [0x06]⟩ = .error (.unknownCode .host 0x06) ∧
    decode ⟨.host, [0x04, 0x02]⟩ = .error (.wrongLength .host 0x04) ∧
    decode ⟨.host, [0x01, 0x00]⟩ = .error (.wrongLength .host 0x01) ∧
    decode ⟨.host, [0x03, 5, 0, 0, 0, 0, 0, 0, 0, 0, 2, 2, 1]⟩ = .error (.wrongLength .host 0x03) := by decide

theorem test_decode_op_adapter :
    decode ⟨.op, [0x20, 0x04]⟩ = .ok (.setMode 0x04) ∧
    decode ⟨.op, [0x21]⟩ = .ok .getMode ∧
    decode ⟨.op, [0x22, 0x01, 0x02, 0x03, 0x04]⟩ = .ok (.waitForModeReady 0x01020304) ∧
    decode ⟨.op, [0x23]⟩ = .ok .isModeReady ∧
    decode ⟨.op, [0x24]⟩ = .ok .isPayloadReady ∧
    decode ⟨.op, [0x25]⟩ = .ok .isPacketSent ∧
    decode ⟨.op, [0x26]⟩ = .ok .isFifoNotEmpty ∧
    decode ⟨.op, [0x27]⟩ = .ok .isFifoFull ∧
    decode ⟨.op, [0x28, 0x02, 0x0E, 0x05]⟩ = .ok (.writeToFifo [0x0E, 0x05]) ∧
    decode ⟨.op, [0x29, 0x03]⟩ = .ok (.readFromFifo 0x03) ∧
    decode ⟨.op, [0x2A]⟩ = .ok .getRssi ∧
    decode ⟨.op, [0x2B]⟩ = .ok .restartRx ∧
    decode ⟨.op, [0x2C, 0x01]⟩ = .ok (.setHighPowerSettings true) := by decide

theorem test_decode_op_setters :
    decode ⟨.op, [0x30, 0xD9, 0x00, 0x01]⟩ = .ok (.setCarrierFrequency 0xD90001) ∧
    decode ⟨.op, [0x31, 0x0D, 0x05]⟩ = .ok (.setBitRate 0x0D05) ∧
    decode ⟨.op, [0x32, 0x01]⟩ = .ok (.setModulationType 0x01) ∧
    decode ⟨.op, [0x33, 0x1A]⟩ = .ok (.setPowerLevel 0x1A) ∧
    decode ⟨.op, [0x34, 0x02, 0x2D, 0xD4]⟩ = .ok (.setSyncWord [0x2D, 0xD4]) ∧
    decode ⟨.op, [0x35, 0x05]⟩ = .ok (.setNodeAddress 0x05) ∧
    decode ⟨.op, [0x36, 0xFF]⟩ = .ok (.setBroadcastAddress 0xFF) ∧
    decode ⟨.op, [0x37, 0x02]⟩ = .ok (.setAddressFiltering 0x02) ∧
    decode ⟨.op, [0x38, 0x01]⟩ = .ok (.setPacketFormat 0x01) ∧
    decode ⟨.op, [0x39, 0x00]⟩ = .ok (.setCrc false) ∧
    decode ⟨.op, [0x3A, 0x01]⟩ = .ok (.setCrcAutoClear true) ∧
    decode ⟨.op, [0x3B, 0x01]⟩ = .ok (.setFifoThresholdCondition 0x01) ∧
    decode ⟨.op, [0x3C, 0x12, 0x34]⟩ = .ok (.setPreambleLength 0x1234) := by decide

theorem test_decode_op_framing :
    decode ⟨.op, [0x40, 0, 0, 0, 0, 0, 0, 0x02, 0x00]⟩ = .ok (.validateContentSize (contentOf 0x02 [])) ∧
    decode ⟨.op, [0x41, 0, 0, 0, 0, 0, 0, 0x02, 0x01, 0x0A]⟩ = .ok (.computeTotalSize (contentOf 0x02 [0x0A])) ∧
    decode ⟨.op, [0x42, 0x0E, 0x05, 0x02, 0x01, 0x00, 0, 0, 0, 0, 0, 0, 0x02, 0x01, 0x0A]⟩
      = .ok (.encodeFrame ⟨0x0E, 0x05, 0x02, true, 0x00⟩ (contentOf 0x02 [0x0A])) ∧
    decode ⟨.op, [0x43, 0x02, 0x0D, 0x05]⟩ = .ok (.decodeFrame [0x0D, 0x05]) := by decide

theorem test_decode_op_engine :
    decode ⟨.op, [0x50]⟩ = .ok .packetToSend ∧
    decode ⟨.op, [0x51]⟩ = .ok .isReadyToSend ∧
    decode ⟨.op, [0x52]⟩ = .ok .isActive ∧
    decode ⟨.op, [0x53]⟩ = .ok .handlePayload ∧
    decode ⟨.op, [0x54]⟩ = .error (.unknownCode .op 0x54) ∧
    decode ⟨.op, [0x2D]⟩ = .error (.unknownCode .op 0x2D) := by decide

theorem test_decode_state :
    decode ⟨.state, [0x00]⟩ = .ok .tickNotInitialized ∧
    decode ⟨.state, [0x10]⟩ = .ok .tickIdle ∧
    decode ⟨.state, [0x20]⟩ = .ok .tickListeningInit ∧
    decode ⟨.state, [0x21]⟩ = .ok .tickListeningWaiting ∧
    decode ⟨.state, [0x22]⟩ = .ok .tickListeningReceiving ∧
    decode ⟨.state, [0x23]⟩ = .ok .tickListeningSendAck ∧
    decode ⟨.state, [0x24]⟩ = .ok .tickListeningDone ∧
    decode ⟨.state, [0x30]⟩ = .ok .tickSendingInit ∧
    decode ⟨.state, [0x31]⟩ = .ok .tickSendingWriting ∧
    decode ⟨.state, [0x32]⟩ = .ok .tickSendingTransmitting ∧
    decode ⟨.state, [0x33]⟩ = .ok .tickSendingWaitForAck ∧
    decode ⟨.state, [0x34]⟩ = .ok .tickSendingDone ∧
    decode ⟨.state, [0x40]⟩ = .ok .tickSleeping ∧
    decode ⟨.state, [0x25]⟩ = .error (.unknownCode .state 0x25) := by decide

theorem test_table_words :
    decodeTableWord 16 0x8104 = some (.spiWrite 0x01 0x04) ∧
    decodeTableWord 16 0x2700 = some (.spiRead 0x27) ∧
    decodeTableWord 8 0x01 = some .init ∧
    decodeTableWord 8 0x53 = some .handlePayload ∧
    decodeTableWord 8 0x10 = some .tickIdle := by decide

/-! ## One step -/

/-- The transaction that sends an address byte and takes an answer, on the reference bus mode. -/
def rd (address answer : Byte) : Event :=
  .spi [.select, .setBusMode ⟨false, false, true, true⟩, .shiftOut address, .shiftIn 0x00 answer, .deselect]

/-- The transaction that sends an address byte and a value byte, on the reference bus mode. -/
def wr (address value : Byte) : Event :=
  .spi [.select, .setBusMode ⟨false, false, true, true⟩, .shiftOut address, .shiftOut value, .deselect]

/-- The state after an instruction, for one that has a next state. -/
def after (i : Instr) (s : State) : State :=
  match exec i s with
  | .next t => t
  | .fault _ | .refused _ => s

/-- The result of an instruction, and what happened at the ports. -/
def seen (i : Instr) (s : State) : Option Value × List Event := ((after i s).result, (after i s).trace)

/-- What an instruction logged, and its result. -/
def logged (i : Instr) (s : State) : List (Level × Byte) × Option Value := ((after i s).log, (after i s).result)

/-- The state after reset, with answers of the device given. -/
def device (dev : List Byte) : State := { State.reset with devIn := dev }

/-- An engine in a state, with answers of the device and of the clock given. -/
def engine (t : Top) (dev : List Byte) (clk : List Millis) : State := { device dev with top := t, clkIn := clk }

-- V-X1; R102 for a write
theorem test_spiWrite : seen (.spiWrite 0x01 0x04) (device []) = (none, [wr 0x81 0x04]) := by decide
theorem test_spiWrite_range : (after (.spiWrite 0x72 0x04) (device [])).faultCode = 0x01 := by decide
-- V-X3, V-X5
theorem test_spiRead : seen (.spiRead 0x27) (device [0x80]) = (some (.byte 0x80), [rd 0x27 0x80]) := by decide
theorem test_spiRead_range : (after (.spiRead 0x72) (device [])).trace = [] := by decide
-- V-A1, V-A3 (operand order: log 14)
theorem test_setMode : seen (.setMode 4) (device [0x04]) = (none, [rd 0x01 0x04, wr 0x81 0x10]) := by decide
theorem test_setMode_keeps_bits :
    (after (.setMode 3) (device [0x84])).trace = [rd 0x01 0x84, wr 0x81 0x8C] := by decide
-- V-A6, V-A7
theorem test_getMode : (after .getMode (device [0x10])).result = some (.modeCode 0b100) := by decide
theorem test_getMode_reserved : (after .getMode (device [0x1C])).result = some (.modeCode 0b111) := by decide
-- V-A11, V-A13
theorem test_waitForModeReady_wrap :
    logged (.waitForModeReady 10) { device [0x00] with clkIn := [0xFFFFFFFA, 0x00000004] }
      = ([(.warning, 0x11)], some (.bool false)) := by decide
theorem test_waitForModeReady_zero :
    seen (.waitForModeReady 0) { device [0x80] with clkIn := [7] }
      = (some (.bool true), [.clock 7, rd 0x27 0x80]) := by decide
-- V-P1 to V-P10
theorem test_isModeReady : (after .isModeReady (device [0xD8])).result = some (.bool true) := by decide
theorem test_isModeReady_clear : (after .isModeReady (device [0x7F])).result = some (.bool false) := by decide
theorem test_isPayloadReady : (after .isPayloadReady (device [0x04])).result = some (.bool true) := by decide
theorem test_isPayloadReady_clear : (after .isPayloadReady (device [0xFB])).result = some (.bool false) := by decide
theorem test_isPacketSent : (after .isPacketSent (device [0x08])).result = some (.bool true) := by decide
theorem test_isPacketSent_clear : (after .isPacketSent (device [0xF7])).result = some (.bool false) := by decide
theorem test_isFifoNotEmpty : (after .isFifoNotEmpty (device [0x40])).result = some (.bool true) := by decide
theorem test_isFifoNotEmpty_clear : (after .isFifoNotEmpty (device [0xBF])).result = some (.bool false) := by decide
theorem test_isFifoFull : (after .isFifoFull (device [0x80])).result = some (.bool true) := by decide
theorem test_isFifoFull_clear : (after .isFifoFull (device [0x7F])).result = some (.bool false) := by decide
-- V-F2, V-F1
theorem test_writeToFifo_full :
    logged (.writeToFifo [0x0E, 0x05]) (device [0x00, 0x80]) = ([(.error, 0x12)], some (.count 1)) := by decide
theorem test_writeToFifo :
    seen (.writeToFifo [0x0E, 0x05]) (device [0x00, 0x00])
      = (some (.count 2), [rd 0x28 0, wr 0x80 0x0E, rd 0x28 0, wr 0x80 0x05]) := by decide
-- V-F6, V-F7
theorem test_readFromFifo_empty :
    logged (.readFromFifo 3) (device [0x40, 0xAA, 0x40, 0xBB, 0x00])
      = ([(.error, 0x13)], some (.bytes [0xAA, 0xBB])) := by decide
theorem test_readFromFifo :
    seen (.readFromFifo 2) (device [0x40, 0xAA, 0x40, 0xBB])
      = (some (.bytes [0xAA, 0xBB]), [rd 0x28 0x40, rd 0x00 0xAA, rd 0x28 0x40, rd 0x00 0xBB]) := by
  decide
-- V-R1, V-R3
theorem test_getRssi : (after .getRssi (device [0xB4])).result = some (.dBm (-90)) := by decide
theorem test_getRssi_lowest : (after .getRssi (device [0xFF])).result = some (.dBm (-127)) := by decide
-- V-C25 to V-C27
theorem test_restartRx : (after .restartRx (device [0x02])).trace = [rd 0x3D 0x02, wr 0xBD 0x06] := by decide
theorem test_setHighPowerSettings :
    (after (.setHighPowerSettings true) (device [])).trace = [wr 0xDA 0x5D, wr 0xDC 0x7C] := by decide
theorem test_setHighPowerSettings_off :
    (after (.setHighPowerSettings false) (device [])).trace = [wr 0xDA 0x55, wr 0xDC 0x70] := by decide
-- V-C2, V-C3, V-C4
theorem test_setCarrierFrequency :
    (after (.setCarrierFrequency 0xE4C000) (device [])).trace
      = [wr 0x87 0xE4, wr 0x88 0xC0, wr 0x89 0x00] := by decide
theorem test_setBitRate :
    (after (.setBitRate 0x0D05) (device [])).trace = [wr 0x83 0x0D, wr 0x84 0x05] := by decide
theorem test_setBitRate_zero : (after (.setBitRate 0) (device [])).faultCode = 0x05 := by decide
-- V-C6, V-C7
theorem test_setModulationType :
    (after (.setModulationType 1) (device [0x00])).trace = [rd 0x02 0x00, wr 0x82 0x08] := by decide
theorem test_setModulationType_range : (after (.setModulationType 2) (device [])).log = [(.critical, 0x05)] := by decide
-- V-C8, V-C9
theorem test_setPowerLevel :
    (after (.setPowerLevel 0x1A) (device [0x9F])).trace = [rd 0x11 0x9F, wr 0x91 0x9A] := by decide
theorem test_setPowerLevel_range : (after (.setPowerLevel 32) (device [])).halted = true := by decide
-- S4
theorem test_setSyncWord :
    seen (.setSyncWord [0x2D, 0xD4]) (device [0x98])
      = (some (.bool true), [rd 0x2E 0x98, wr 0xAE 0x88, wr 0xAF 0x2D, wr 0xB0 0xD4]) := by decide
theorem test_setSyncWord_zero :
    logged (.setSyncWord [0x2D, 0x00]) (device []) = ([(.error, 0x16)], some (.bool false)) := by decide
-- V-C11, V-C12
theorem test_setNodeAddress : (after (.setNodeAddress 0x05) (device [])).trace = [wr 0xB9 0x05] := by decide
theorem test_setBroadcastAddress : (after (.setBroadcastAddress 0xFF) (device [])).trace = [wr 0xBA 0xFF] := by decide
-- V-C13, V-C14
theorem test_setAddressFiltering :
    (after (.setAddressFiltering 2) (device [0x90])).trace = [rd 0x37 0x90, wr 0xB7 0x94] := by decide
theorem test_setAddressFiltering_range : (after (.setAddressFiltering 3) (device [])).faultCode = 0x05 := by decide
-- V-C15, V-C16
theorem test_setPacketFormat :
    (after (.setPacketFormat 1) (device [0x10])).trace = [rd 0x37 0x10, wr 0xB7 0x90] := by decide
theorem test_setPacketFormat_fixed :
    (after (.setPacketFormat 0) (device [0x94])).trace = [rd 0x37 0x94, wr 0xB7 0x14] := by decide
-- V-C17 to V-C20
theorem test_setCrc : (after (.setCrc true) (device [0x80])).trace = [rd 0x37 0x80, wr 0xB7 0x90] := by decide
theorem test_setCrc_off : (after (.setCrc false) (device [0x94])).trace = [rd 0x37 0x94, wr 0xB7 0x84] := by decide
theorem test_setCrcAutoClear :
    (after (.setCrcAutoClear true) (device [0x98])).trace = [rd 0x37 0x98, wr 0xB7 0x90] := by decide
theorem test_setCrcAutoClear_off :
    (after (.setCrcAutoClear false) (device [0x90])).trace = [rd 0x37 0x90, wr 0xB7 0x98] := by decide
-- V-C21, V-C22
theorem test_setFifoThresholdCondition :
    (after (.setFifoThresholdCondition 1) (device [0x0F])).trace = [rd 0x3C 0x0F, wr 0xBC 0x8F] := by decide
theorem test_setFifoThresholdCondition_range :
    (after (.setFifoThresholdCondition 2) (device [])).faultCode = 0x05 := by decide
-- V-C24
theorem test_setPreambleLength :
    (after (.setPreambleLength 0x1234) (device [])).trace = [wr 0xAC 0x12, wr 0xAD 0x34] := by decide
-- V-M1 to V-M4, V-M12
theorem test_validateContentSize :
    (after (.validateContentSize ⟨[], 0, 20, []⟩) (device [])).result = some (.bool true) := by decide
theorem test_validateContentSize_large :
    (after (.validateContentSize ⟨[], 0, 21, []⟩) (device [])).result = some (.bool false) := by decide
theorem test_computeTotalSize :
    (after (.computeTotalSize (contentOf 2 [1, 2, 3, 4])) (device [])).result = some (.totalSize 17) := by decide
theorem test_encodeFrame :
    (after (.encodeFrame ⟨0x11, 0x05, 0x02, false, 0⟩ (contentOf 2 [1, 2, 3, 4])) (device [])).result
      = some (.wire [0x11, 0x05, 0x02, 0x00, 0x00] [0, 0, 0, 0, 0, 0, 0x02, 0x04, 1, 2, 3, 4]) := by decide
theorem test_decodeFrame :
    (after (.decodeFrame [0x0D, 0x02, 0x05, 0x7F, 0xA6, 0, 0, 0, 0, 0, 0, 0x01, 0x00]) (device [])).result
      = some (.frame ⟨0x0D, 0x02, 0x05, true, 0xA6⟩ ⟨[0, 0, 0, 0, 0, 0], 0x01, 0, List.replicate 20 0⟩) := by decide

/-! ### Commands -/

/-- The packet that the SEND of V-H1 stages. -/
def staged (ack : Bool) : Packet :=
  ⟨⟨17, 0x05, 0x02, ack, 0⟩, ⟨[0, 0, 0, 0, 0, 0], 2, 4, [1, 2, 3, 4] ++ List.replicate 16 0⟩, some 7⟩

/-- An engine with that packet staged. -/
def staging (t : Top) (ack : Bool) (dev : List Byte) : State := { engine t dev [] with slot := staged ack }

-- V-H1, V-H2
theorem test_send :
    (after (.send 5 false 7 (contentOf 2 [1, 2, 3, 4])) { engine .idle [0xC8] [] with nodeIn := [0x02] }).slot
      = staged false := by decide
theorem test_send_busy :
    logged (.send 5 false 7 (contentOf 2 [1, 2, 3, 4])) (engine .idle [0xB4] [])
      = ([(.debug, 0x1B)], some (.bool false)) := by decide
-- V-H8, V-H11
theorem test_setHandler : (after (.setHandler 2 1) (device [])).handlers = [none, none, some 1, none] := by decide
theorem test_setHandler_type_first : (after (.setHandler 5 0) (device [])).faultCode = 0x03 := by decide
-- V-H15, V-H17
theorem test_event_sleep :
    ((after (.event 1) (engine .notInitialized [0x04, 0x80] [0])).top,
      (after (.event 1) (engine .notInitialized [0x04, 0x80] [0])).trace)
      = (.sleeping, [rd 0x01 0x04, wr 0x81 0x00, .clock 0, rd 0x27 0x80]) := by decide
theorem test_event_wakeup : (after (.event 2) (engine .sleeping [0x00, 0x80] [0])).top = .idle := by decide
-- The Init trace of Part 3; V-H20
theorem test_init :
    (after .init { device [0x00, 0x9F, 0x98, 0x10, 0x14, 0x94, 0x94, 0x0F, 0x04, 0x80] with
      clkIn := [0], netIn := [[0x2D, 0xD4]], nodeIn := [0x02], bcastIn := [0xFF] }).trace
      = [wr 0x87 0xD9, wr 0x88 0x00, wr 0x89 0x00, wr 0x83 0x0D, wr 0x84 0x05,
        rd 0x02 0x00, wr 0x82 0x00, rd 0x11 0x9F, wr 0x91 0x9F, .networkId [0x2D, 0xD4],
        rd 0x2E 0x98, wr 0xAE 0x88, wr 0xAF 0x2D, wr 0xB0 0xD4, .nodeAddress 0x02,
        wr 0xB9 0x02, .broadcastAddress 0xFF, wr 0xBA 0xFF, rd 0x37 0x10, wr 0xB7 0x14,
        rd 0x37 0x14, wr 0xB7 0x94, rd 0x37 0x94, wr 0xB7 0x94, rd 0x37 0x94,
        wr 0xB7 0x94, rd 0x3C 0x0F, wr 0xBC 0x8F, rd 0x01 0x04, wr 0x81 0x04, .clock 0,
        rd 0x27 0x80] := by decide
theorem test_init_power_range :
    (after .update { device [0x00] with cfg := { Config.reference with cfgPower := 32 } }).log
      = [(.warning, 0x10), (.critical, 0x05)] := by decide
-- V-T25 through UPDATE
theorem test_update : (after .update (engine .sleeping [0x00] [])).trace = [rd 0x01 0x00] := by decide
-- R29, R168, R179
theorem test_packetToSend : (after .packetToSend (staging .idle false [])).result = some (.bool true) := by decide
theorem test_packetToSend_zero : (after .packetToSend (device [])).result = some (.bool false) := by decide
theorem test_isReadyToSend : (after .isReadyToSend (engine .idle [0xC8] [])).result = some (.bool true) := by decide
theorem test_isReadyToSend_threshold : (after .isReadyToSend (engine .idle [0xB4] [])).result = some (.bool false) := by decide
theorem test_isActive : (after .isActive (engine (.sending .done) [] [])).result = some (.bool true) := by decide
theorem test_isActive_listening : (after .isActive (engine (.listening .waiting) [] [])).result = some (.bool false) := by
  decide

/-- The answers of a device whose FIFO holds the bytes and then gets empty. -/
def fifoHolds (bytes : List Byte) : List Byte := bytes.flatMap (fun b => [0x40, b]) ++ [0x00]

-- V-D3, V-D5
theorem test_handlePayload :
    (after .handlePayload { device (fifoHolds [0x11, 5, 2, 0, 0, 0, 0, 0, 0, 0, 0, 2, 4, 1, 2, 3, 4]) with
      handlers := [none, none, some 1, none], hostIn := [⟨[], some true⟩] }).trace.drop 35
      = [.handlerCall 1 (staged false).header (staged false).content, .handlerReturn true] := by decide
theorem test_handlePayload_malformed :
    (after .handlePayload (device (fifoHolds [0x0C, 5, 2, 0, 0, 0, 0, 0, 0, 0, 0, 2, 4]))).log = [(.warning, 0x18)] := by
  decide

/-! ### Ticks -/

-- V-T1 (an invalid sync word: V-H18)
theorem test_tickNotInitialized :
    (after .tickNotInitialized { device [0x00, 0x9F, 0x10, 0x14, 0x94, 0x94, 0x0F, 0x04, 0x80] with
      clkIn := [0], netIn := [[0x2D, 0x00]], nodeIn := [0x02], bcastIn := [0xFF] }).log
      = [(.warning, 0x10), (.error, 0x16)] := by decide
-- V-T2, V-T3
theorem test_tickIdle : (after .tickIdle (engine .idle [] [])).top = .idle := by decide
theorem test_tickIdle_staged : (after .tickIdle (staging .idle false [])).top = .sending .init := by decide
-- V-T5, V-T6 (Proceed)
theorem test_tickListeningInit :
    (after .tickListeningInit (engine (.listening .init) [0x04, 0x02, 0x04, 0x80] [0])).trace
      = [rd 0x28 0x04, rd 0x3D 0x02, wr 0xBD 0x06, wr 0xDA 0x55, wr 0xDC 0x70,
        rd 0x01 0x04, wr 0x81 0x10, .clock 0, rd 0x27 0x80] := by decide
theorem test_tickListeningInit_wait_fails :
    (after .tickListeningInit (engine (.listening .init) [0x00, 0x04, 0x00] [0, 10])).top = .listening .waiting := by decide
-- V-T8, and step 7 of P3
theorem test_tickListeningWaiting_stall :
    (after .tickListeningWaiting { engine (.listening .waiting) [0x04, 0x10, 0x00] [0, 10] with
      cfg := { Config.reference with waitFail := .stall } }).trace
      = [rd 0x28 0x04, rd 0x01 0x10, wr 0x81 0x04, .clock 0, rd 0x27 0x00, .clock 10] := by decide
theorem test_tickListeningWaiting_length :
    (after .tickListeningWaiting
      (engine (.listening .waiting) [0x44, 0x10, 0x80, 0x40, 0x50, 0x04, 0x80] [4, 5])).trace
      = [rd 0x28 0x44, rd 0x01 0x10, wr 0x81 0x04, .clock 4, rd 0x27 0x80, rd 0x28 0x40,
        rd 0x00 0x50, rd 0x01 0x04, wr 0x81 0x10, .clock 5, rd 0x27 0x80] := by decide
-- V-T9 to V-T12
theorem test_tickListeningReceiving : (after .tickListeningReceiving (engine (.listening .receiving) [] [])).trace = [] := by
  decide
theorem test_tickListeningSendAck :
    (after .tickListeningSendAck (engine (.listening .sendAck) [0x80] [])).top = .listening .init := by decide
theorem test_tickListeningSendAck_waits :
    (after .tickListeningSendAck (engine (.listening .sendAck) [0x00] [])).top = .listening .sendAck := by decide
theorem test_tickListeningDone : (after .tickListeningDone (engine (.listening .done) [] [])).top = .listening .done := by
  decide
-- V-T13
theorem test_tickSendingInit :
    (after .tickSendingInit (staging (.sending .init) false [0x10])).trace = [rd 0x01 0x10, wr 0x81 0x04] := by
  decide
-- V-T16, V-T15
theorem test_tickSendingWriting_full :
    ((after .tickSendingWriting (staging (.sending .writing) false [0x80, 0x80, 0x80, 0x04])).top,
      (after .tickSendingWriting (staging (.sending .writing) false [0x80, 0x80, 0x80, 0x04])).trace)
      = (.sending .transmitting, [rd 0x27 0x80, rd 0x28 0x80, rd 0x28 0x80, rd 0x01 0x04,
          wr 0x81 0x0C, wr 0xDA 0x5D, wr 0xDC 0x7C]) := by decide
theorem test_tickSendingWriting_waits :
    (after .tickSendingWriting (staging (.sending .writing) false [0x00])).trace = [rd 0x27 0x00] := by decide
-- V-T19, V-T21
theorem test_tickSendingTransmitting_callback :
    (after .tickSendingTransmitting { staging (.sending .transmitting) false [0x08] with hostIn := [⟨[], some true⟩] }).trace
      = [rd 0x28 0x08, .callback 7 true] := by decide
theorem test_tickSendingTransmitting_ack :
    (after .tickSendingTransmitting (staging (.sending .transmitting) true [0x08, 0x0C])).trace
      = [rd 0x28 0x08, rd 0x01 0x0C, wr 0x81 0x10, wr 0xDA 0x55, wr 0xDC 0x70] := by decide
-- V-T23
theorem test_tickSendingWaitForAck :
    ((after .tickSendingWaitForAck (staging (.sending .waitForAck) true [0x44, 0x40, 0x50, 0x10])).slot,
      (after .tickSendingWaitForAck (staging (.sending .waitForAck) true [0x44, 0x40, 0x50, 0x10])).trace)
      = (zeroFrame, [rd 0x28 0x44, rd 0x28 0x40, rd 0x00 0x50, rd 0x01 0x10, wr 0x81 0x04]) := by
  decide
-- V-T24, V-T26, V-T27
theorem test_tickSendingDone : (after .tickSendingDone (engine (.sending .done) [] [])).top = .sending .done := by decide
theorem test_tickSleeping_not_ready :
    (after .tickSleeping (engine .sleeping [0x04, 0x00] [])).trace = [rd 0x01 0x04, rd 0x27 0x00] := by decide
theorem test_tickSleeping :
    (after .tickSleeping (engine .sleeping [0x04, 0x80, 0x04] [])).trace
      = [rd 0x01 0x04, rd 0x27 0x80, rd 0x01 0x04, wr 0x81 0x00] := by decide

/-! ## Witnesses: the hypotheses of the statements

Each theorem gives a concrete state and operands that meet the hypotheses of the statement it names, and the condition of
each of its clauses. -/

theorem ready_of_reference {s : State} (h : s.halted = false) (hc : s.cfg = Config.reference) : s.Ready := by
  refine ⟨h, ?_⟩
  rw [hc]
  decide

theorem test_witness_StepRunsTheNextFrame :
    State.reset.BetweenCommands ∧ decode ⟨.host, [0x02]⟩ = .ok .update ∧
    { State.reset with inbox := [⟨.host, [0x02]⟩] }.BetweenCommands ∧
    decodeTableWord 16 0x8104 = some (.spiWrite 0x01 0x04) ∧ State.reset.inbox = [] :=
  ⟨⟨rfl, by decide, rfl⟩, by decide, ⟨rfl, by decide, rfl⟩, by decide, rfl⟩

theorem test_witness_StepsEndOnlyInNamedRefusals :
    controlOk State.reset = true ∧
    controlOk { State.reset with control := some (.refusal (.reentrantCommand (.event 7))) } = true ∧
    controlOk { State.reset with control := some (.refusal (.badFrame .emptyFrame)) } = true ∧
    controlOk { State.reset with control := some (.refusal (.reentrantCommand .getMode)) } = false ∧
    controlOk { State.reset with control := some (.refusal .invalidInstance) } = false := by decide

theorem test_witness_HaltedEngineHasNoSuccessor : (State.reset.fatal 0x03).halted = true := rfl

theorem test_witness_FramesThatAreNoCommand :
    ({ State.reset with inbox := [⟨.host, [0x06, 0x00]⟩] } : State).BetweenCommands ∧ 6 ≤ (0x06 : Byte).toNat ∧
    ([0x00] : List Byte).length ≠ 0 ∧
    (([5, 0, 0, 0, 0, 0, 0, 0, 0, 2, 2, 1] : List Byte).length + 1
      ≠ 12 + (([5, 0, 0, 0, 0, 0, 0, 0, 0, 2, 2, 1] : List Byte).getD 10 0).toNat) ∧
    ([0x02] : List Byte).length ≠ 2 ∧ ([] : List Byte).length ≠ 1 ∧
    (0x25 : Byte) ∉ ([0x00, 0x10, 0x20, 0x21, 0x22, 0x23, 0x24, 0x30, 0x31, 0x32, 0x33, 0x34, 0x40] : List Byte) ∧
    ({ State.reset with inbox := [⟨.state, [0x25]⟩] } : State).BetweenCommands :=
  ⟨⟨rfl, by decide, rfl⟩, by decide, by decide, by decide, by decide, by decide, by decide, ⟨rfl, by decide, rfl⟩⟩

theorem test_witness_EncodeDecodeRoundTrip :
    (Instr.send 5 true 7 (contentOf 2 [1, 2, 3, 4])).WellFormed = true ∧ (Instr.setSyncWord []).WellFormed = true ∧
    (Instr.spiRead 0x7F).WellFormed = true := by decide

theorem test_witness_TransactionAndStateFramesEncodeBack :
    decode ⟨.spi, [0xFF, 0x80]⟩ = .ok (.spiWrite 0x7F 0x80) ∧ decode ⟨.spi, [0x7F, 0x00]⟩ = .ok (.spiRead 0x7F) ∧
    decode ⟨.state, [0x40]⟩ = .ok .tickSleeping := by decide

theorem test_witness_WriteRegister :
    State.reset.halted = false ∧ (0x71 : BitVec 7).toNat ≤ State.reset.cfg.regAddrMax.toNat ∧
    State.reset.cfg.regAddrMax.toNat < (0x72 : BitVec 7).toNat := by decide

theorem test_witness_ReadRegister :
    State.reset.halted = false ∧ (0x71 : BitVec 7).toNat ≤ State.reset.cfg.regAddrMax.toNat ∧
    State.reset.cfg.regAddrMax.toNat < (0x72 : BitVec 7).toNat := by decide

theorem test_witness_SetModeRewritesTheModeField :
    State.reset.Ready ∧
    ((4, 4) : Byte × BitVec 3) ∈ ([(0, State.reset.cfg.modeCodes.sleep), (1, State.reset.cfg.modeCodes.standby),
      (2, State.reset.cfg.modeCodes.fs), (3, State.reset.cfg.modeCodes.transmitter),
      (4, State.reset.cfg.modeCodes.receiver)] : List (Byte × BitVec 3)) ∧ 5 ≤ (5 : Byte).toNat :=
  ⟨ready_of_reference rfl rfl, by decide, by decide⟩

theorem test_witness_ModeAndSignalStrengthReads : State.reset.Ready := ready_of_reference rfl rfl

theorem test_witness_StatusPredicatesReadOneFlag :
    (device [0x80]).Ready ∧ (0x80 : Byte) = (device [0x80]).deviceAnswer (device [0x80]).cfg.regs.irqFlags1 ∧
    (0x80 : Byte) = (device [0x80]).deviceAnswer (device [0x80]).cfg.regs.irqFlags2 :=
  ⟨ready_of_reference rfl rfl, by decide, by decide⟩

theorem test_witness_WriteToFifo :
    (device ([0x00, 0x00] ++ (none : Option Byte).toList ++ [0x01])).Ready ∧
    ([0x0E, 0x05] : List Byte).length < 256 ∧ fifoWriteAnswers Config.referenceRegs 2 [0x00, 0x00] none ∧
    fifoWriteAnswers Config.referenceRegs 2 [0x00] (some 0x80) ∧ fifoWriteAnswers Config.referenceRegs 0 [] none :=
  ⟨ready_of_reference rfl rfl, by decide, ⟨by decide, .inl ⟨rfl, rfl⟩⟩,
    ⟨by decide, .inr ⟨0x80, rfl, by decide, by decide⟩⟩, ⟨by decide, .inl ⟨rfl, rfl⟩⟩⟩

theorem test_witness_ReadFromFifo :
    (device (fifoReadScript [(0x40, 0xAA)] (some 0x00) ++ [0x01])).Ready ∧
    fifoReadAnswers Config.referenceRegs (2 : Byte).toNat [(0x40, 0xAA)] (some 0x00) ∧
    fifoReadAnswers Config.referenceRegs (2 : Byte).toNat [(0x40, 0xAA), (0x40, 0xBB)] none ∧
    fifoReadAnswers Config.referenceRegs (0 : Byte).toNat [] none :=
  ⟨ready_of_reference rfl rfl, ⟨by simp; rfl, .inr ⟨0x00, rfl, by decide, by decide⟩⟩,
    ⟨by simp; rfl, .inl ⟨rfl, rfl⟩⟩, ⟨by simp, .inl ⟨rfl, rfl⟩⟩⟩

theorem test_witness_RestartAndHighPower : State.reset.Ready := ready_of_reference rfl rfl

/-- The writes of SetPowerLevel(31). -/
def powerWrites : List RegWrite := encWrites Config.referenceSetters.powerLevel.enc 31

/-- A setter whose valid arguments are no interval and whose writes are no shifted fields. -/
def tableSetter : SetterSpec :=
  ⟨[(0, 0), (2, 2)], .table [[⟨0x11, 0x1F, 0x07⟩], [], [⟨0x11, 0x1F, 0x1A⟩, ⟨0x13, 0xFF, 0x0F⟩]]⟩

/-- An engine with that power-level setter. -/
def tableEngine : State :=
  { device [0x9F] with cfg := { Config.reference with setters := { Config.referenceSetters with powerLevel := tableSetter } } }

theorem test_setter_table :
    (after (.setPowerLevel 2) tableEngine).trace = [rd 0x11 0x9F, wr 0x91 0x9A, wr 0x93 0x0F] ∧
    (after (.setPowerLevel 1) tableEngine).faultCode = 0x05 := by decide

theorem test_witness_SettersFollowTheCommonRule :
    (device ([0x9F] ++ [0x01])).Ready ∧
    setterOf State.reset.cfg (.setPowerLevel 31) = some (Config.referenceSetters.powerLevel, 31) ∧
    ((∃ r ∈ Config.referenceSetters.powerLevel.valid, r.1 ≤ (31 : BitVec 32).toNat ∧ (31 : BitVec 32).toNat ≤ r.2) ∧
      ([0x9F] : List Byte).length = setterReads powerWrites) ∧
    setterOf State.reset.cfg (.setPowerLevel 32) = some (Config.referenceSetters.powerLevel, 32) ∧
    (∀ r ∈ Config.referenceSetters.powerLevel.valid, (32 : BitVec 32).toNat < r.1 ∨ r.2 < (32 : BitVec 32).toNat) ∧
    setterOf State.reset.cfg (.setBitRate 0) = some (Config.referenceSetters.bitRate, 0) ∧
    (∀ r ∈ Config.referenceSetters.bitRate.valid, (0 : BitVec 32).toNat < r.1 ∨ r.2 < (0 : BitVec 32).toNat) ∧
    tableEngine.Ready :=
  ⟨ready_of_reference rfl rfl, by decide, by decide, by decide, by decide, by decide, by decide, rfl, by decide⟩

theorem test_witness_WholeRegisterSetters :
    State.reset.Ready ∧ State.reset.cfg.setters = Config.referenceSetters ∧ (1 : BitVec 16) ≠ 0 :=
  ⟨ready_of_reference rfl rfl, rfl, by decide⟩

theorem test_witness_FieldSetters :
    (device [0x90]).Ready ∧ (device [0x90]).cfg.setters = Config.referenceSetters ∧ (device [0x90]).devIn = [0x90] ∧
    (1 : Byte).toNat ≤ 1 ∧ 1 < (2 : Byte).toNat ∧ (31 : Byte).toNat ≤ 31 ∧ 31 < (32 : Byte).toNat ∧
    (2 : Byte).toNat ≤ 2 ∧ 2 < (3 : Byte).toNat :=
  ⟨ready_of_reference rfl rfl, rfl, rfl, by decide⟩

theorem test_witness_SetSyncWord :
    (device [0x98]).Ready ∧ (0x98 : Byte) = (device [0x98]).deviceAnswer (device [0x98]).cfg.regs.syncConfig ∧
    (([0x2D, 0xD4] : List Byte).length = State.reset.cfg.syncLen ∧ ∀ b ∈ ([0x2D, 0xD4] : List Byte), b ≠ 0) ∧
    ([0x2D] : List Byte).length ≠ State.reset.cfg.syncLen ∧ (0 : Byte) ∈ ([0x2D, 0x00] : List Byte) :=
  ⟨ready_of_reference rfl rfl, by decide⟩

theorem test_witness_WaitForModeReadyFirstPoll :
    (engine .idle [0x80] [100]).Ready ∧ modeReadyFlag Config.referenceRegs 0x80 = true ∧ (engine .idle [0x00] [100, 110]).Ready ∧
    modeReadyFlag Config.referenceRegs 0x00 = false ∧ (10 : Millis).toNat ≤ ((110 : Millis) - 100).toNat ∧
    ((109 : Millis) - 100).toNat < (10 : Millis).toNat :=
  ⟨ready_of_reference rfl rfl, by decide, ready_of_reference rfl rfl, by decide⟩

theorem test_witness_WaitForModeReadyRunsToItsEnd :
    (engine .idle [0x00, 0x80] [100, 103]).Ready ∧ (engine .idle [0x00, 0x80] [100, 103]).validInstance = true ∧
    (∀ p ∈ ([(0x00, 103)] : List (Byte × Millis)), modeReadyFlag Config.referenceRegs p.1 = false ∧
      (p.2 - 100).toNat < (10 : Millis).toNat) ∧
    modeReadyFlag Config.referenceRegs 0x80 = true ∧ modeReadyFlag Config.referenceRegs 0x00 = false ∧
    (10 : Millis).toNat ≤ ((110 : Millis) - 100).toNat :=
  ⟨ready_of_reference rfl rfl, by decide, by simp; decide, by decide, by decide, by decide⟩

/-- An engine in the middle of a wait. -/
def waiting (place : AfterWait) (t : Top) (dev : List Byte) (clk : List Millis) : State :=
  { engine t dev clk with control := some (.wait ⟨100, 10, place⟩) }

/-- A poll that finds the flag clear at 109, before the deadline of a wait from 100 for 10. -/
theorem poll_goes_on (s : State) (h : s.cfg = Config.reference) (hd : s.devIn = [0x00]) (hc : s.clkIn = [109]) :
    ∃ t, pollGoesOn 100 10 s t :=
  ⟨_, 0x00, [], 109, [], hd, hc, by rw [h]; decide, by decide, rfl⟩

/-- A poll that finds the flag set. -/
theorem poll_ready (s : State) (h : s.cfg = Config.reference) (hd : s.devIn = [0x80]) :
    ∃ t, pollEnds 100 10 s true t :=
  ⟨_, 0x80, [], hd, .inl ⟨rfl, by rw [h]; decide, rfl⟩⟩

/-- A poll that finds the flag clear at 110, the deadline. -/
theorem poll_late (s : State) (h : s.cfg = Config.reference) (hd : s.devIn = [0x00]) (hc : s.clkIn = [110]) :
    ∃ t, pollEnds 100 10 s false t :=
  ⟨_, 0x00, [], hd, .inr ⟨110, [], hc, rfl, by rw [h]; decide, by decide, rfl⟩⟩

theorem test_witness_WaitGoesOnAtItsPlace : ∀ place : AfterWait,
    (waiting place .sleeping [0x00] [109]).Ready ∧ (waiting place .sleeping [0x00] [109]).validInstance = true ∧
    (waiting place .sleeping [0x00] [109]).result = none ∧
    (∃ t, pollGoesOn 100 10 (waiting place .sleeping [0x00] [109]) t) ∧
    (∃ t, pollEnds 100 10 { waiting place .sleeping [0x80] [] with control := none } true t) ∧
    (∃ t, pollEnds 100 10 { waiting place .sleeping [0x00] [110] with control := none } false t) :=
  fun place => ⟨ready_of_reference rfl rfl, by cases place <;> decide, rfl, poll_goes_on _ rfl rfl rfl,
    poll_ready _ rfl rfl, poll_late _ rfl rfl rfl⟩

theorem test_witness_FramingOperations :
    State.reset.halted = false ∧ (contentOf 2 [1, 2, 3, 4]).size.toNat ≤ 242 := by decide

/-- The wire frame of V-M4. -/
def wireFrame : List Byte := [0x11, 5, 2, 0, 0, 0, 0, 0, 0, 0, 0, 2, 4, 1, 2, 3, 4]

theorem test_witness_DecodeFrameReadsTheFields :
    State.reset.halted = false ∧ frameLengthsOk wireFrame ∧ State.reset.cfg.rssiStamp = false :=
  ⟨rfl, ⟨by decide, by decide, by decide⟩, rfl⟩

theorem test_witness_FrameRoundTrip :
    State.reset.halted = false ∧ State.reset.cfg.rssiStamp = false ∧ slotOk (staged true) = true ∧
    staged true ≠ zeroFrame := by decide

/-- The answers that carry the bytes of a frame after its length byte. -/
def answersOf (bytes : List Byte) : List (Byte × Byte) := bytes.map (fun b => (0x40, b))

theorem answersOf_flags (bytes : List Byte) :
    ∀ x ∈ answersOf bytes, fifoNotEmptyFlag Config.referenceRegs x.1 = true := by
  intro x hx
  obtain ⟨b, -, rfl⟩ := List.mem_map.1 hx
  show fifoNotEmptyFlag Config.referenceRegs 0x40 = true
  decide

/-- An engine with a handler for the READING type and an answer of the host. -/
def receiving (dev : List Byte) : State :=
  { device dev with handlers := [none, none, some 1, none], hostIn := [⟨[], some true⟩] }

/-- An engine in whose FIFO the wire frame of V-M4 waits for its handler, which answers as given. -/
def upcalled (answer : HostAnswer) (t : Top) (more : List Byte) : State :=
  { engine t (fifoHolds wireFrame ++ more) [] with handlers := [none, none, some 1, none], hostIn := [answer] }

-- R175: an upcall that never returns; R186: nested commands; R154: a frame that lacks bytes
theorem test_upcall_held :
    let s := after .handlePayload (upcalled ⟨[], none⟩ .idle [])
    s.control = some .held ∧ step s = .next s := ⟨by decide, rfl⟩
theorem test_upcall_nested :
    (after .handlePayload (upcalled ⟨[[0x04, 0, 9], [0x04, 2, 8]], some true⟩ .idle [])).handlers
      = [some 9, none, some 8, none] ∧
    (after .handlePayload (upcalled ⟨[[0x04, 4, 9], [0x04, 2, 8]], some true⟩ .idle [])).faultCode = 0x03 ∧
    (after .handlePayload (upcalled ⟨[[0x02]], some true⟩ .idle [])).control
      = some (.refusal (.reentrantCommand .update)) := by decide
theorem test_decode_loose :
    (decodeFrameBytes none (fun i => BitVec.ofNat 8 (100 + i)) [0x05, 5, 2, 0, 0, 7]).2
      = ⟨[7, 106, 107, 108, 109, 110], 111, 112, (List.range 20).map (fun i => BitVec.ofNat 8 (113 + i))⟩ := by decide

/-- The states and answers of the second half of the Listening(Waiting) tick: HandlePayload stops no command here, and its
second wait is ready, unfinished or late. -/
theorem test_witness_payloadWaitEnds :
    (∃ t, exec .handlePayload (engine (.listening .waiting) [0x40, 0x50, 0x04, 0x80] [5]) = .next t ∧
      t.halted = false ∧ t.control = none ∧ t.devIn = [0x04, 0x80] ∧ t.clkIn = [5]) ∧
    (∃ t, exec .handlePayload (upcalled ⟨[], none⟩ (.listening .waiting) []) = .next t ∧ t.control ≠ none) ∧
    (∃ x, pollEnds 100 10 (engine (.listening .waiting) [0x80] []) true x) ∧
    (∃ x, pollEnds 100 10 (engine (.listening .waiting) [0x00] [110]) false x) ∧
    (∃ x, pollGoesOn 100 10 (engine (.listening .waiting) [0x00] [109]) x) :=
  ⟨⟨_, rfl, by decide, by decide, by decide, by decide⟩, ⟨_, rfl, by decide⟩, poll_ready _ rfl rfl,
    poll_late _ rfl rfl rfl, poll_goes_on _ rfl rfl rfl⟩

theorem test_witness_SentFrameIsDelivered :
    (receiving ([0x40, 0x11] ++ fifoReadScript ((List.replicate 16 0x40).zip (wireFrame.drop 1)) (some 0x00))).Ready ∧
    State.reset.cfg.rssiStamp = false ∧ 34 ≤ State.reset.cfg.fifoSize ∧ slotOk (staged false) = true ∧
    staged false ≠ zeroFrame ∧ (staged false).content.type.toNat < (receiving []).numTypes ∧
    (receiving []).handlers[(staged false).content.type.toNat]? = some (some 1) ∧
    (headerBytes (staged false).header ++ contentBytes (staged false).content) = wireFrame ∧
    (List.replicate 16 (0x40 : Byte)).length = 12 + (staged false).content.size.toNat ∧
    (∀ f ∈ List.replicate 16 (0x40 : Byte), fifoNotEmptyFlag Config.referenceRegs f = true) ∧ fifoNotEmptyFlag Config.referenceRegs 0x00 = false ∧
    (receiving []).hostIn = [⟨[], some true⟩] :=
  ⟨ready_of_reference rfl rfl, by decide⟩

theorem test_witness_EnginePredicates :
    (engine .idle [] []).halted = false ∧ (engine .idle [0xC8] []).Ready ∧ (engine .sleeping [] []).Ready ∧
    (engine .sleeping [] []).top ≠ .idle ∧ (engine .idle [0xC8] []).cfg.stagePolicy = .overwrite ∧
    (engine .idle [0xC8] []).slot.header.target = 0 :=
  ⟨rfl, ready_of_reference rfl rfl, ready_of_reference rfl rfl, by decide, rfl, rfl⟩

theorem test_witness_SendStagesThePacket :
    ({ engine .idle [0xC8] [] with nodeIn := [0x02] } : State).Ready ∧
    (contentOf 2 (List.replicate 20 7)).operandOk = true ∧ (contentOf 2 (List.replicate 20 7)).size.toNat ≤ 20 ∧
    (engine .idle [0xC8] []).cfg.stagePolicy = .overwrite ∧
    (0xC8 : Byte) = (engine .idle [0xC8] []).deviceAnswer (engine .idle [0xC8] []).cfg.regs.rssiValue ∧
    rssiDbm (engine .idle [0xC8] []).cfg.rssiConv 0xC8 < (engine .idle [0xC8] []).cfg.rssiThreshold :=
  ⟨ready_of_reference rfl rfl, by decide⟩

theorem test_witness_SendRejects :
    (engine .idle [0xB4] []).Ready ∧ 20 < (contentOf 2 (List.replicate 21 7)).size.toNat ∧
    (contentOf 2 (List.replicate 20 7)).size.toNat ≤ 20 ∧ (engine .sleeping [0xB4] []).Ready ∧
    (engine .sleeping [0xB4] []).top ≠ .idle ∧ (engine .idle [0xB4] []).slot.header.target = 0 ∧
    (0xB4 : Byte) = (engine .idle [0xB4] []).deviceAnswer (engine .idle [0xB4] []).cfg.regs.rssiValue ∧
    (engine .idle [0xB4] []).cfg.rssiThreshold ≤ rssiDbm (engine .idle [0xB4] []).cfg.rssiConv 0xB4 :=
  ⟨ready_of_reference rfl rfl, by decide, by decide, ready_of_reference rfl rfl, by decide⟩

theorem test_witness_SetHandlerWritesOneEntry :
    State.reset.halted = false ∧ (3 : Byte).toNat < State.reset.handlers.length ∧ (1 : Byte) ≠ 0 ∧
    State.reset.handlers.length ≤ (4 : Byte).toNat := by decide

theorem test_witness_NestedCommands :
    (engine (.listening .waiting) [] []).halted = false ∧ (engine (.listening .waiting) [] []).control = none ∧
    (engine (.listening .waiting) [] []).result = none ∧ (contentOf 2 [1]).operandOk = true ∧
    (engine (.listening .waiting) [] []).top ≠ .idle ∧
    (3 : Byte).toNat < (engine (.listening .waiting) [] []).handlers.length ∧ (1 : Byte) ≠ 0 ∧
    (engine (.listening .waiting) [] []).handlers.length ≤ (4 : Byte).toNat ∧
    (engine (.listening .waiting) [] []).validInstance = true ∧
    ({ State.reset with control := some .held } : State).validInstance = true := by decide

theorem test_witness_HandlePayloadRejectsTheLength :
    (device [0x00]).Ready ∧ fifoNotEmptyFlag Config.referenceRegs 0x00 = false ∧ (device [0x40, 0x42]).Ready ∧
    fifoNotEmptyFlag Config.referenceRegs 0x40 = true ∧ (device [0x40, 0x42]).cfg.fifoSize < (0x42 : Byte).toNat + 1 :=
  ⟨ready_of_reference rfl rfl, by decide, ready_of_reference rfl rfl, by decide⟩

theorem test_witness_HandlePayloadDispatches :
    (receiving (0x40 :: 0x11 :: (fifoReadScript (answersOf (wireFrame.drop 1)) (some 0x00)))).Ready ∧
    (receiving []).cfg.rssiStamp = (none : Option Byte).isSome ∧ fifoNotEmptyFlag Config.referenceRegs 0x40 = true ∧
    (0x11 : Byte).toNat + 1 ≤ (receiving []).cfg.fifoSize ∧
    fifoReadAnswers Config.referenceRegs (0x11 : Byte).toNat (answersOf (wireFrame.drop 1)) (some 0x00) ∧
    frameLengthsOk (0x11 :: (answersOf (wireFrame.drop 1)).map Prod.snd) ∧
    (receiving []).handlers[(wireFrame.getD 11 0).toNat]? = some (some 1) ∧
    fifoReadAnswers Config.referenceRegs (0x05 : Byte).toNat (answersOf [5, 2, 0, 0, 0]) none ∧
    ¬ frameLengthsOk [5, 5, 2, 0, 0, 0] ∧ (receiving []).cfg.rxStrict = true ∧
    frameLengthsOk [0x0D, 2, 5, 0, 0, 0, 0, 0, 0, 0, 0, 7, 0] ∧
    (receiving []).numTypes ≤ (([0x0D, 2, 5, 0, 0, 0, 0, 0, 0, 0, 0, 7, 0] : List Byte).getD 11 0).toNat ∧
    frameLengthsOk [0x0D, 2, 5, 0, 0, 0, 0, 0, 0, 0, 0, 1, 0] ∧
    (receiving []).handlers[(([0x0D, 2, 5, 0, 0, 0, 0, 0, 0, 0, 0, 1, 0] : List Byte).getD 11 0).toNat]? = some none :=
  ⟨ready_of_reference rfl rfl, by decide, by decide, by decide,
    ⟨answersOf_flags _, .inr ⟨0x00, rfl, by decide, by decide⟩⟩, by unfold frameLengthsOk; decide, by decide,
    ⟨answersOf_flags _, .inl ⟨rfl, rfl⟩⟩, by unfold frameLengthsOk; decide, rfl, by unfold frameLengthsOk; decide, by decide,
    by unfold frameLengthsOk; decide, by decide⟩

/-- Frames that fail the length checks under RX_STRICT = false, and upcalls with nested commands, one of which is a fatal
assertion, or that never return. -/
theorem test_witness_HandlePayloadDispatches_loose_and_nested :
    ({ receiving (0x40 :: 0x0B :: (fifoReadScript (answersOf [5, 2, 0, 0, 0, 0, 0, 0, 0, 0, 2]) none)) with
      cfg := { Config.reference with rxStrict := false } } : State).Ready ∧
    fifoReadAnswers Config.referenceRegs (0x0B : Byte).toNat (answersOf [5, 2, 0, 0, 0, 0, 0, 0, 0, 0, 2]) none ∧
    ¬ frameLengthsOk (0x0B :: [5, 2, 0, 0, 0, 0, 0, 0, 0, 0, 2]) ∧
    (∃ w, nestedCommands [[0x04, 0, 9]] (receiving []) = .done () w) ∧
    (∃ w, nestedCommands [[0x04, 4, 9]] (receiving []) = .stop w) ∧
    (upcalled ⟨[[0x04, 0, 9]], none⟩ .idle []).Ready :=
  ⟨⟨rfl, by decide⟩, ⟨answersOf_flags _, .inl ⟨rfl, rfl⟩⟩, by unfold frameLengthsOk; decide, ⟨_, rfl⟩, ⟨_, rfl⟩,
    ready_of_reference rfl rfl⟩

theorem test_witness_TickIdleStartsSending :
    (staging .idle false []).halted = false ∧ (staging .idle false []).slot.header.target ≠ 0 ∧
    (staging .idle false []).top = .idle ∧ (engine .idle [] []).slot.header.target = 0 := by decide

theorem test_witness_EmptyTicks : (engine (.sending .done) [] []).halted = false := by decide

theorem test_witness_SendAckAndSendingInitTicks :
    (engine (.listening .sendAck) [0x80] []).Ready ∧
    (0x80 : Byte) = (engine (.listening .sendAck) [0x80] []).deviceAnswer 0x27 :=
  ⟨ready_of_reference rfl rfl, by decide⟩

theorem test_witness_TickSendingWritingSendsTheFrame :
    (staging (.sending .writing) false [0x00]).Ready ∧ modeReadyFlag Config.referenceRegs 0x00 = false ∧
    (staging (.sending .writing) false (0x80 :: (List.replicate 5 0 ++ [] ++ [0] ++ [0x80] ++ [0x04]))).Ready ∧
    modeReadyFlag Config.referenceRegs 0x80 = true ∧ fifoWriteAnswers Config.referenceRegs 5 (List.replicate 5 0) none ∧
    fifoWriteAnswers Config.referenceRegs (contentBytes (staged false).content).length [0] (some 0x80) ∧
    fifoWriteAnswers Config.referenceRegs (contentBytes (staged false).content).length (List.replicate 12 0) none :=
  ⟨ready_of_reference rfl rfl, by decide, ready_of_reference rfl rfl, by decide, ⟨by decide, .inl ⟨rfl, rfl⟩⟩,
    ⟨by decide, .inr ⟨0x80, rfl, by decide, by decide⟩⟩, ⟨by decide, .inl ⟨rfl, rfl⟩⟩⟩

theorem test_witness_TickSendingTransmittingEnds :
    (staging (.sending .transmitting) false [0x00]).Ready ∧ packetSentFlag Config.referenceRegs 0x00 = false ∧
    (staging (.sending .transmitting) true [0x08, 0x0C]).Ready ∧ packetSentFlag Config.referenceRegs 0x08 = true ∧
    (staged true).header.ackRequested = true ∧ (staged false).header.ackRequested = false ∧
    (staged false).callback = some 7 ∧ zeroFrame.callback = none ∧
    ({ staging (.sending .transmitting) false [0x08] with hostIn := [⟨[], some true⟩] } : State).Ready ∧
    (∃ w, nestedCommands [[0x04, 0, 9]] (staging (.sending .transmitting) false []) = .done () w) ∧
    (∃ w, nestedCommands [[0x04, 4, 9]] (staging (.sending .transmitting) false []) = .stop w) ∧
    (staging (.sending .transmitting) false []).handlers.length ≤ (4 : Byte).toNat :=
  ⟨ready_of_reference rfl rfl, by decide, ready_of_reference rfl rfl, by decide, rfl, rfl, rfl, rfl,
    ready_of_reference rfl rfl, ⟨_, rfl⟩, ⟨_, rfl⟩, by decide⟩

/-- The state in which the wait for an ACK handles a payload whose length byte is oversized. -/
def handling : State :=
  { staging (.sending .waitForAck) true [0x40, 0x50, 0x10] with trace := [readEvent Config.reference 0x28 0x44] }

theorem test_witness_TickWaitForAckEndsOnAnyPayload :
    (staging (.sending .waitForAck) true [0x44, 0x40, 0x50, 0x10]).Ready ∧ payloadReadyFlag Config.referenceRegs 0x00 = false ∧
    payloadReadyFlag Config.referenceRegs 0x44 = true ∧ fifoNotEmptyFlag Config.referenceRegs 0x40 = true ∧
    State.reset.cfg.fifoSize < (0x50 : Byte).toNat + 1 ∧
    ∃ t, exec .handlePayload handling = .next t ∧ t.halted = false ∧ t.control = none :=
  ⟨ready_of_reference rfl rfl, by decide, by decide, by decide, by decide, _, rfl, by decide, by decide⟩

theorem test_witness_TickSleepingKeepsTheDeviceAsleep :
    (engine .sleeping [0x04, 0x80, 0x04] []).Ready ∧ (engine (.sending .done) [] []).Ready ∧
    (∀ ss, (engine .sleeping [] []).top ≠ .sending ss) ∧ (engine .sleeping [] []).top ≠ .listening .receiving ∧
    modeField Config.referenceRegs 0x00 = State.reset.cfg.modeCodes.sleep ∧
    modeField Config.referenceRegs 0x04 ≠ State.reset.cfg.modeCodes.sleep ∧ modeReadyFlag Config.referenceRegs 0x00 = false ∧
    modeReadyFlag Config.referenceRegs 0x80 = true :=
  ⟨ready_of_reference rfl rfl, ready_of_reference rfl rfl, fun ss h => (by cases h), by decide⟩

theorem test_witness_TickListeningInitArmsTheReceiver :
    (engine (.listening .init) (0x04 :: ([0x02] ++ [0x04, 0x80])) [0]).Ready ∧ payloadReadyFlag Config.referenceRegs 0x04 = true ∧
    payloadReadyFlag Config.referenceRegs 0x00 = false ∧ modeReadyFlag Config.referenceRegs 0x80 = true ∧ modeReadyFlag Config.referenceRegs 0x00 = false ∧
    State.reset.cfg.timeoutMs.toNat ≤ ((10 : Millis) - 0).toNat ∧
    ((9 : Millis) - 0).toNat < State.reset.cfg.timeoutMs.toNat :=
  ⟨ready_of_reference rfl rfl, by decide⟩

theorem test_witness_TickListeningWaitingHandlesThePayload :
    (engine (.listening .waiting) [0x40] []).Ready ∧ payloadReadyFlag Config.referenceRegs 0x40 = false ∧
    (engine (.listening .waiting) [0x44, 0x10, 0x80, 0x40, 0x50, 0x04, 0x80] [4, 5]).Ready ∧
    payloadReadyFlag Config.referenceRegs 0x44 = true ∧ modeReadyFlag Config.referenceRegs 0x80 = true ∧
    fifoNotEmptyFlag Config.referenceRegs 0x40 = true ∧ State.reset.cfg.fifoSize < (0x50 : Byte).toNat + 1 ∧
    ({ engine (.listening .waiting) ([0x44, 0x10, 0x80] ++ fifoHolds wireFrame ++ [0x04, 0x80]) [4, 5] with
      handlers := [none, none, some 1, none], hostIn := [⟨[], some true⟩] } : State).Ready ∧
    fifoHolds wireFrame = 0x40 :: 0x11 :: (fifoReadScript (answersOf (wireFrame.drop 1)) (some 0x00)) ∧
    fifoReadAnswers Config.referenceRegs (0x11 : Byte).toNat (answersOf (wireFrame.drop 1)) (some 0x00) ∧
    State.reset.cfg.rssiStamp = (none : Option Byte).isSome ∧ frameLengthsOk wireFrame ∧
    ([none, none, some 1, none] : List (Option Byte))[(wireFrame.getD 11 0).toNat]? = some (some 1) ∧
    (∃ x, pollGoesOn 100 10 (engine (.listening .waiting) [0x00] [109]) x) ∧
    (∃ x, pollEnds 100 10 (engine (.listening .waiting) [0x80] []) true x) ∧
    (∃ x, pollEnds 100 10 (engine (.listening .waiting) [0x00] [110]) false x) :=
  ⟨ready_of_reference rfl rfl, by decide, ready_of_reference rfl rfl, by decide, by decide, by decide, by decide,
    ready_of_reference rfl rfl, by decide, ⟨answersOf_flags _, .inr ⟨0x00, rfl, by decide, by decide⟩⟩, rfl,
    ⟨by decide, by decide, by decide⟩, by decide, poll_goes_on _ rfl rfl rfl, poll_ready _ rfl rfl,
    poll_late _ rfl rfl rfl⟩

/-- The device's answers in Init. -/
def initAnswers : InitAnswers := ⟨0x00, 0x9F, 0x98, 0x10, 0x14, 0x94, 0x94, 0x0F, 0x04⟩

theorem test_witness_InitConfiguresAndEntersHome :
    ({ device (initAnswers.script true ++ [0x80]) with
      clkIn := [0], netIn := [[0x2D, 0xD4]], nodeIn := [2], bcastIn := [0xFF] } : State).Ready ∧
    State.reset.cfg.setters = Config.referenceSetters ∧ initArgsOk State.reset.cfg = true ∧
    syncWordValid State.reset.cfg [0x2D, 0xD4] = true ∧ syncWordValid State.reset.cfg [0x2D, 0x00] = false ∧
    modeReadyFlag Config.referenceRegs 0x80 = true ∧ modeReadyFlag Config.referenceRegs 0x00 = false ∧
    State.reset.cfg.timeoutMs.toNat ≤ ((10 : Millis) - 0).toNat ∧
    ((9 : Millis) - 0).toNat < State.reset.cfg.timeoutMs.toNat :=
  ⟨ready_of_reference rfl rfl, by decide⟩

theorem test_witness_InitHaltsAtAnArgumentOutOfRange :
    ({ device [] with cfg := { Config.reference with cfgBitRate := 0 } } : State).Ready ∧
    ({ device [] with cfg := { Config.reference with cfgModulation := 2 } } : State).Ready ∧
    ({ device [0x00] with cfg := { Config.reference with cfgPower := 32 } } : State).Ready ∧
    ({ device [0x00, 0x9F, 0x98] with
      cfg := { Config.reference with cfgAddrFilter := 3 }, netIn := [[0x2D, 0xD4]], nodeIn := [2], bcastIn := [0xFF] }
      : State).Ready ∧
    ({ device [0x00, 0x9F, 0x10] with
      cfg := { Config.reference with cfgPacketFormat := 2 }, netIn := [[0x2D, 0x00]], nodeIn := [2], bcastIn := [0xFF] }
      : State).Ready ∧
    ({ device [0x00, 0x9F, 0x98, 0x10, 0x14, 0x94, 0x94] with
      cfg := { Config.reference with cfgFifoCond := 2 }, netIn := [[0x2D, 0xD4]], nodeIn := [2], bcastIn := [0xFF] }
      : State).Ready ∧
    Config.reference.setters = Config.referenceSetters ∧ 1 ≤ Config.reference.cfgBitRate.toNat ∧
    Config.reference.cfgModulation.toNat ≤ 1 ∧ Config.reference.cfgPower.toNat ≤ 31 ∧
    Config.reference.cfgAddrFilter.toNat ≤ 2 ∧ Config.reference.cfgPacketFormat.toNat ≤ 1 ∧
    syncWordValid Config.reference [0x2D, 0xD4] = true ∧ syncWordValid Config.reference [0x2D, 0x00] = false :=
  ⟨⟨rfl, by decide⟩, ⟨rfl, by decide⟩, ⟨rfl, by decide⟩, ⟨rfl, by decide⟩, ⟨rfl, by decide⟩, ⟨rfl, by decide⟩, by decide⟩

theorem test_witness_EventsSleepAndWake :
    (engine .sleeping [0x04, 0x80] [0]).Ready ∧ (7 : Byte) ≠ 1 ∧ (7 : Byte) ≠ 2 ∧ modeReadyFlag Config.referenceRegs 0x80 = true ∧
    (∀ ss, (engine .idle [] []).top ≠ .sending ss) ∧ (engine .idle [] []).top ≠ .listening .receiving ∧
    modeReadyFlag Config.referenceRegs 0x00 = false ∧ State.reset.cfg.timeoutMs.toNat ≤ ((10 : Millis) - 0).toNat ∧
    ((9 : Millis) - 0).toNat < State.reset.cfg.timeoutMs.toNat :=
  ⟨ready_of_reference rfl rfl, by decide, by decide, by decide, fun ss h => (by cases h), by decide⟩

theorem test_witness_SleepDrainsByUpdates :
    (∃ t, exec .update (engine (.sending .transmitting) [0x00] []) = .next t ∧ t.halted = false ∧ t.control = none) ∧
    (∃ ss, (engine (.sending .transmitting) [0x00] []).top = .sending ss) ∧
    ({ engine (.sending .done) [] [] with control := some .drain } : State).validInstance = true ∧
    (engine (.sending .done) [] []).result = none ∧ (engine (.sending .done) [] []).halted = false :=
  ⟨⟨_, rfl, by decide, by decide⟩, ⟨_, rfl⟩, by decide⟩

theorem test_witness_AckWaitHasNoTimeout :
    let s : State := { engine (.sending .waitForAck) ([0x00, 0xFB] ++ [0x04]) [] with
      inbox := List.replicate 2 ⟨.host, [0x02]⟩ ++ [⟨.host, [0x05, 0x01]⟩] }
    s.Ready ∧ s.BetweenCommands ∧ s.result = none ∧ s.top = .sending .waitForAck ∧
      ∀ f ∈ ([0x00, 0xFB] : List Byte), payloadReadyFlag Config.referenceRegs f = false :=
  ⟨ready_of_reference rfl rfl, ⟨rfl, by decide, rfl⟩, rfl, rfl, by decide⟩

theorem test_witness_StagedPacketIsSent :
    let s : State := { staging .idle false (0x04 :: 0x80 ::
        (List.replicate 5 0 ++ List.replicate 12 0 ++ 0x04 :: 0x08 :: [])) with
      inbox := List.replicate 4 ⟨.host, [0x02]⟩, hostIn := [⟨[], some true⟩] }
    let u : State := { staging .idle true (0x04 :: 0x80 ::
        (List.replicate 5 0 ++ List.replicate 12 0 ++ 0x04 :: 0x08 :: 0x0C :: 0x04 :: 0x40 :: 0x50 :: 0x10 :: [])) with
      inbox := List.replicate 5 ⟨.host, [0x02]⟩ }
    s.Ready ∧ s.BetweenCommands ∧ u.Ready ∧ u.BetweenCommands ∧ s.slot.header.target ≠ 0 ∧ slotOk s.slot = true ∧
      slotOk u.slot = true ∧ modeReadyFlag Config.referenceRegs 0x80 = true ∧ fifoWriteAnswers Config.referenceRegs 5 (List.replicate 5 0) none ∧
      fifoWriteAnswers Config.referenceRegs (8 + s.slot.content.size.toNat) (List.replicate 12 0) none ∧ packetSentFlag Config.referenceRegs 0x08 = true ∧
      payloadReadyFlag Config.referenceRegs 0x04 = true ∧ fifoNotEmptyFlag Config.referenceRegs 0x40 = true ∧ u.cfg.fifoSize < (0x50 : Byte).toNat + 1 :=
  ⟨ready_of_reference rfl rfl, ⟨rfl, by decide, rfl⟩, ready_of_reference rfl rfl, ⟨rfl, by decide, rfl⟩, by decide,
    by decide, by decide, by decide, ⟨by decide, .inl ⟨rfl, rfl⟩⟩, ⟨by decide, .inl ⟨rfl, rfl⟩⟩, by decide, by decide,
    by decide, by decide⟩

theorem test_witness_StagedPacketIsSent_ack :
    let s : State := { staging .idle true (0x04 :: 0x80 :: (List.replicate 5 0 ++ List.replicate 12 0 ++
        0x04 :: 0x08 :: 0x0C :: 0x04 :: 0x40 :: 0x11 :: (fifoReadScript (answersOf (wireFrame.drop 1)) (some 0x00) ++
          0x10 :: []))) with
      inbox := List.replicate 5 ⟨.host, [0x02]⟩, handlers := [none, none, some 1, none], hostIn := [⟨[], some true⟩] }
    s.Ready ∧ s.BetweenCommands ∧ s.slot.header.ackRequested = true ∧ s.cfg.rssiStamp = false ∧
      (0x11 : Byte).toNat + 1 ≤ s.cfg.fifoSize ∧ frameLengthsOk wireFrame ∧
      fifoReadAnswers Config.referenceRegs (0x11 : Byte).toNat (answersOf (wireFrame.drop 1)) (some 0x00) ∧
      s.handlers[(wireFrame.getD 11 0).toNat]? = some (some 1) :=
  ⟨ready_of_reference rfl rfl, ⟨rfl, by decide, rfl⟩, by decide, by decide, by decide,
    ⟨by decide, by decide, by decide⟩, ⟨answersOf_flags _, .inr ⟨0x00, rfl, by decide, by decide⟩⟩, by decide⟩

/-- An engine that has taken an UPDATE in Idle with a staged packet. -/
def updating : State := { staging .idle false [] with inbox := [⟨.host, [0x02]⟩] }

theorem test_witness_StepKeepsTheInvariant : updating.Inv ∧ ∃ t, step updating = .next t ∧ t.top = .sending .init :=
  ⟨⟨by decide, by decide, by decide, by decide, by decide⟩, _, rfl, by decide⟩

theorem test_witness_ParametersStayAndHistoryGrows : ∃ t, step updating = .next t := ⟨_, rfl⟩

theorem test_witness_FatalEndsTheCommand :
    let s : State := { State.reset with inbox := [⟨.host, [0x04, 0x04, 0x01]⟩] }
    s.halted = false ∧ ∃ t, step s = .next t ∧ t.halted = true := ⟨rfl, _, rfl, by decide⟩

theorem test_witness_LogIsNeverRead :
    (∃ t, step updating = .next t) ∧ ∃ r, step { State.reset with inbox := [⟨.host, [0x00]⟩] } = .refused r :=
  ⟨⟨_, rfl⟩, _, rfl⟩

theorem test_witness_UpdateMakesOneTransition : ∃ t, exec .update updating = .next t ∧ t.top = .sending .init :=
  ⟨_, rfl, by decide⟩

theorem test_witness_ListeningNeverLeavesItself :
    (engine (.listening .init) [0x00, 0x04, 0x80] [0]).top = .listening .init ∧
    (engine (.listening .init) [0x00, 0x04, 0x80] [0]).cfg.waitFail ≠ .abortToIdle ∧
    (∃ t, exec .update (engine (.listening .init) [0x00, 0x04, 0x80] [0]) = .next t) ∧
    (waiting .listenRearm (.listening .waiting) [0x80] []).control = some (.wait ⟨100, 10, .listenRearm⟩) ∧
    ∃ t, step (waiting .listenRearm (.listening .waiting) [0x80] []) = .next t :=
  ⟨rfl, by decide, ⟨_, rfl⟩, rfl, _, rfl⟩

/-- An always-listen engine with an UPDATE before it. -/
def alwaysListening : State :=
  { engine (.listening .waiting) [0x00] [] with
    cfg := { Config.reference with home := .listening }, inbox := [⟨.host, [0x02]⟩] }

theorem test_witness_AlwaysListeningNeverSends :
    alwaysListening.AlwaysListening ∧ alwaysListening.halted = false ∧ (∃ t, step alwaysListening = .next t) ∧
    ∃ t, exec (.send 5 false 7 (contentOf 2 [1])) alwaysListening = .next t :=
  ⟨⟨rfl, by decide, rfl, .inr (.inr (.inl rfl)), by decide⟩, rfl, ⟨_, rfl⟩, _, rfl⟩

theorem test_witness_CommandInProgressTakesNoFrame :
    (waiting .sleep .idle [0x00] [109]).control = some (.wait ⟨100, 10, .sleep⟩) ∧
    ∃ t, step (waiting .sleep .idle [0x00] [109]) = .next t := ⟨rfl, _, rfl⟩

theorem test_witness_OnlyWakeupAndInitLeaveSleeping :
    (engine .sleeping [0x00] []).top = .sleeping ∧ (∃ t, exec .update (engine .sleeping [0x00] []) = .next t) ∧
    (1 : Byte) ≠ 2 ∧ ∃ t, exec (.event 1) (engine .sleeping [0x00, 0x80] [0]) = .next t :=
  ⟨rfl, ⟨_, rfl⟩, by decide, _, rfl⟩

end Sys2Proof.Tests
end

