-- ==== Sys2Proof/Proofs/LogNeverRead.lean ====
section
/-!
No step depends on the log (R18, O55). A two-run relation: the second run starts with events before the log of the
first. Every operation commutes with putting them there, because each update of the state only appends to the log and
each answer and condition is read from other fields. `LogFree` says so of an operation; it is closed under sequencing and
under conditions that do not read the log, and so holds of every meaning.
-/

namespace Sys2Proof.Machine

/-- The state with the events `l` before its log. -/
def State.withEarlierLog (s : State) (l : List (Level × Byte)) : State := { s with log := l ++ s.log }

/-- The flow whose state has the events `l` before its log. -/
def Flow.withEarlierLog {α : Type} (l : List (Level × Byte)) : Flow α → Flow α
  | .done a s => .done a (s.withEarlierLog l)
  | .stop s => .stop (s.withEarlierLog l)

/-- The outcome of a step whose next state has the events `l` before its log. -/
def outcomeWithEarlierLog (l : List (Level × Byte)) :
    Host.Outcome State Fault Refusal → Host.Outcome State Fault Refusal
  | .next t => .next (t.withEarlierLog l)
  | .fault r => .fault r
  | .refused r => .refused r

/-- An operation does not depend on the log: with events before it, it comes to the same flow, with them before the
log. -/
def LogFree {α : Type} (f : State → Flow α) : Prop :=
  ∀ (l : List (Level × Byte)) (s : State), f (s.withEarlierLog l) = (f s).withEarlierLog l

/-- A meaning or a step does not depend on the log. -/
def OutcomeLogFree (f : State → Host.Outcome State Fault Refusal) : Prop :=
  ∀ (l : List (Level × Byte)) (s : State), f (s.withEarlierLog l) = outcomeWithEarlierLog l (f s)

/-! ## What the log is no part of -/

section
variable (s : State) (l : List (Level × Byte))

@[simp] theorem withEarlierLog_top : (s.withEarlierLog l).top = s.top := rfl
@[simp] theorem withEarlierLog_slot : (s.withEarlierLog l).slot = s.slot := rfl
@[simp] theorem withEarlierLog_handlers : (s.withEarlierLog l).handlers = s.handlers := rfl
@[simp] theorem withEarlierLog_halted : (s.withEarlierLog l).halted = s.halted := rfl
@[simp] theorem withEarlierLog_cfg : (s.withEarlierLog l).cfg = s.cfg := rfl
@[simp] theorem withEarlierLog_control : (s.withEarlierLog l).control = s.control := rfl
@[simp] theorem withEarlierLog_inbox : (s.withEarlierLog l).inbox = s.inbox := rfl
@[simp] theorem withEarlierLog_validInstance : (s.withEarlierLog l).validInstance = s.validInstance := rfl

end

/-! ## The updates that write the log -/

theorem logAt_withEarlierLog (s : State) (l : List (Level × Byte)) (v : Level) (c : Byte) :
    (s.withEarlierLog l).logAt v c = (s.logAt v c).withEarlierLog l := by
  simp [State.withEarlierLog, State.logAt]

theorem logDiag_withEarlierLog (s : State) (l : List (Level × Byte)) (d : Diag) :
    (s.withEarlierLog l).logDiag d = (s.logDiag d).withEarlierLog l := logAt_withEarlierLog s l d.level d.code

theorem halt_withEarlierLog (s : State) (l : List (Level × Byte)) (c : Byte) :
    (s.withEarlierLog l).halt c = (s.halt c).withEarlierLog l := by
  simp [State.withEarlierLog, State.halt]

/-! ## Closure -/

/-- The same condition on both sides. -/
theorem ite_withEarlierLog {α : Type} {l : List (Level × Byte)} {c : Prop} [Decidable c] {f g f' g' : Flow α}
    (hf : f' = f.withEarlierLog l) (hg : g' = g.withEarlierLog l) :
    (if c then f' else g') = (if c then f else g).withEarlierLog l := by
  split
  · exact hf
  · exact hg

/-- The same choice between two states on both sides. -/
theorem done_ite_withEarlierLog {α : Type} {c : Prop} [Decidable c] (a : α) (s t : State) (l : List (Level × Byte)) :
    Flow.done a (if c then s.withEarlierLog l else t.withEarlierLog l) =
      (Flow.done a (if c then s else t)).withEarlierLog l := by
  split <;> rfl

/-- Two flows that differ in earlier events, followed by the same operation. -/
theorem bind_withEarlierLog {α β : Type} {l : List (Level × Byte)} {f f' : Flow α} {k : α → State → Flow β}
    (hf : f' = f.withEarlierLog l) (hk : ∀ a, LogFree (k a)) : f'.bind k = (f.bind k).withEarlierLog l := by
  subst hf
  cases f with
  | done a s => exact hk a l s
  | stop s => rfl

theorem logFree_done {α : Type} (a : α) : LogFree (fun s => Flow.done a s) := fun _ _ => rfl

theorem logFree_logDiag {α : Type} (a : α) (d : Diag) : LogFree (fun s => Flow.done a (s.logDiag d)) :=
  fun l s => congrArg (Flow.done a) (logDiag_withEarlierLog s l d)

theorem logFree_raiseFatal {α : Type} (c : FatalCode) : LogFree (fun s => (raiseFatal c s : Flow α)) :=
  fun l s => congrArg Flow.stop (halt_withEarlierLog s l c.code)

/-- An operation whose value is only wrapped. -/
theorem logFree_value {α β : Type} {f : State → Flow α} (h : LogFree f) (v : α → β) :
    LogFree (fun s => (f s).bind fun a t => .done (v a) t) :=
  fun l s => bind_withEarlierLog (h l s) fun a => logFree_done (v a)

theorem logFree_noResult {f : State → Flow Unit} (h : LogFree f) : LogFree (fun s => (f s).noResult) :=
  logFree_value h fun _ => none

theorem logFree_boolResult {f : State → Flow Bool} (h : LogFree f) : LogFree (fun s => (f s).boolResult) :=
  logFree_value h fun b => some (Value.bool b)

/-! ## The SPI port and the adapter -/

theorem logFree_checkReg (a : RegAddr) : LogFree (checkReg a) :=
  fun l s => ite_withEarlierLog (logFree_raiseFatal .regRange l s) rfl

theorem logFree_spiRead (a : RegAddr) : LogFree (spiRead a) :=
  fun l s => bind_withEarlierLog (logFree_checkReg a l s) fun _ _ _ => rfl

theorem logFree_spiWrite (a : RegAddr) (v : Byte) : LogFree (spiWrite a v) :=
  fun l s => bind_withEarlierLog (logFree_checkReg a l s) fun _ _ _ => rfl

theorem logFree_spiWriteAll : (w : List (RegAddr × Byte)) → LogFree (spiWriteAll w)
  | [] => logFree_done ()
  | (a, v) :: rest => fun l s => bind_withEarlierLog (logFree_spiWrite a v l s) fun _ => logFree_spiWriteAll rest

theorem logFree_setMode (m : Mode) : LogFree (setMode m) :=
  fun l s => bind_withEarlierLog (logFree_spiRead _ l s) fun _ l t => logFree_spiWrite _ _ l t

theorem logFree_setModeOperand (m : Byte) : LogFree (setModeOperand m) := by
  intro l s
  unfold setModeOperand
  split
  · exact logFree_setMode _ l s
  · exact logFree_raiseFatal .mode l s

theorem logFree_getMode : LogFree getMode :=
  fun l s => bind_withEarlierLog (logFree_spiRead _ l s) fun _ _ _ => rfl

theorem logFree_isModeReady : LogFree isModeReady :=
  fun l s => bind_withEarlierLog (logFree_spiRead _ l s) fun _ _ _ => rfl

theorem logFree_isPayloadReady : LogFree isPayloadReady :=
  fun l s => bind_withEarlierLog (logFree_spiRead _ l s) fun _ _ _ => rfl

theorem logFree_isPacketSent : LogFree isPacketSent :=
  fun l s => bind_withEarlierLog (logFree_spiRead _ l s) fun _ _ _ => rfl

theorem logFree_isFifoNotEmpty : LogFree isFifoNotEmpty :=
  fun l s => bind_withEarlierLog (logFree_spiRead _ l s) fun _ _ _ => rfl

theorem logFree_isFifoFull : LogFree isFifoFull :=
  fun l s => bind_withEarlierLog (logFree_spiRead _ l s) fun _ _ _ => rfl

theorem logFree_getRssi : LogFree getRssi :=
  fun l s => bind_withEarlierLog (logFree_spiRead _ l s) fun _ _ _ => rfl

theorem logFree_writeToFifo : (b : List Byte) → LogFree (writeToFifo b)
  | [] => logFree_done 0
  | b :: rest => fun l s =>
    bind_withEarlierLog (logFree_isFifoFull l s) fun _ l t =>
    ite_withEarlierLog (logFree_logDiag 0 .fifoFull l t) <|
    bind_withEarlierLog (logFree_spiWrite _ b l t) fun _ => logFree_value (logFree_writeToFifo rest) (· + 1)

theorem logFree_readFromFifo : (n : Nat) → LogFree (readFromFifo n)
  | 0 => logFree_done []
  | n + 1 => fun l s =>
    bind_withEarlierLog (logFree_isFifoNotEmpty l s) fun _ l t =>
    ite_withEarlierLog
      (bind_withEarlierLog (logFree_spiRead _ l t) fun b => logFree_value (logFree_readFromFifo n) (b :: ·))
      (logFree_logDiag [] .fifoEmpty l t)

theorem logFree_restartRx : LogFree restartRx :=
  fun l s => bind_withEarlierLog (logFree_spiRead _ l s) fun _ l t => logFree_spiWrite _ _ l t

theorem logFree_setHighPowerSettings (on : Bool) : LogFree (setHighPowerSettings on) :=
  fun l s => logFree_spiWriteAll _ l s

theorem logFree_applyWrites : (w : List RegWrite) → LogFree (applyWrites w)
  | [] => logFree_done ()
  | w :: rest => fun l s =>
    bind_withEarlierLog
      (ite_withEarlierLog (logFree_spiWrite w.reg w.byte l s) <|
        bind_withEarlierLog (logFree_spiRead w.reg l s) fun _ => logFree_spiWrite _ _)
      fun _ => logFree_applyWrites rest

theorem logFree_configure (spec : SetterSpec) (arg : BitVec 32) : LogFree (configure spec arg) :=
  fun l s => ite_withEarlierLog (logFree_applyWrites _ l s) (logFree_raiseFatal .configRange l s)

theorem logFree_writeSyncBytes : (i : Nat) → (w : List Byte) → LogFree (writeSyncBytes i w)
  | _, [] => logFree_done ()
  | i, b :: rest => fun l s =>
    bind_withEarlierLog (logFree_spiWrite _ b l s) fun _ => logFree_writeSyncBytes (i + 1) rest

theorem logFree_setSyncWord (w : List Byte) : LogFree (setSyncWord w) := fun l s =>
  ite_withEarlierLog
    (bind_withEarlierLog (logFree_spiRead _ l s) fun _ l t =>
      bind_withEarlierLog (logFree_spiWrite _ _ l t) fun _ => logFree_value (logFree_writeSyncBytes 0 w) fun _ => true)
    (logFree_logDiag false .syncInvalid l s)

/-! ## Staging, handlers and upcalls -/

theorem logFree_isReadyToSend : LogFree isReadyToSend := fun l s =>
  ite_withEarlierLog rfl <| ite_withEarlierLog rfl <| bind_withEarlierLog (logFree_getRssi l s) fun _ _ _ => rfl

theorem logFree_sendPacket (target : Byte) (ack : Bool) (c : Content) (cb : Option Byte) :
    LogFree (sendPacket target ack c cb) := fun l s =>
  ite_withEarlierLog
    (bind_withEarlierLog (logFree_isReadyToSend l s) fun _ l t =>
      ite_withEarlierLog rfl (logFree_logDiag false .notReady l t))
    (logFree_logDiag false .contentTooLarge l s)

theorem logFree_sendCommand (target : Byte) (ack : Bool) (cb : Byte) (c : Content) :
    LogFree (sendCommand target ack cb c) :=
  fun l s => bind_withEarlierLog (logFree_sendPacket target ack c _ l s) fun _ _ _ => rfl

theorem logFree_setPacketHandler (h : Option Byte) (type : Byte) : LogFree (setPacketHandler h type) := fun l s =>
  ite_withEarlierLog (logFree_raiseFatal .typeRange l s) <|
    match h with
    | none => logFree_raiseFatal .null l s
    | some _ => rfl

theorem logFree_nestedCommand (bytes : List Byte) : LogFree (nestedCommand bytes) := by
  intro l s
  unfold nestedCommand
  split
  · exact logFree_value (logFree_sendCommand _ _ _ _) (fun _ => ()) l s
  · exact logFree_setPacketHandler _ _ l s
  · rfl
  · rfl

theorem logFree_nestedCommands : (b : List (List Byte)) → LogFree (nestedCommands b)
  | [] => logFree_done ()
  | b :: rest => fun l s => bind_withEarlierLog (logFree_nestedCommand b l s) fun _ => logFree_nestedCommands rest

theorem logFree_hostRuns : LogFree hostRuns := fun l s =>
  bind_withEarlierLog (logFree_nestedCommands _ l s.afterHost) fun _ _ _ => by
    split <;> rfl

theorem logFree_callHandler (h : Byte) (frame : Header × Content) : LogFree (callHandler h frame) :=
  fun l s => bind_withEarlierLog (logFree_hostRuns l (s.emit _)) fun _ _ _ => rfl

theorem logFree_callCallback (cb : Byte) : LogFree (callCallback cb) :=
  fun l s => bind_withEarlierLog (logFree_hostRuns l (s.emit _)) fun _ _ _ => rfl

theorem logFree_dispatchFrame (frame : Header × Content) : LogFree (dispatchFrame frame) := by
  refine fun l s => ite_withEarlierLog (logFree_logDiag false .typeRange l s) ?_
  rw [withEarlierLog_handlers]
  cases s.handlers.getD frame.2.type.toNat none with
  | none => exact logFree_logDiag false .noHandler l s
  | some h => exact logFree_callHandler h frame l s

theorem logFree_rssiSample : LogFree rssiSample :=
  fun l s => ite_withEarlierLog (logFree_value logFree_getRssi _ l s) rfl

theorem logFree_handleFrame (b : List Byte) : LogFree (handleFrame b) := fun l s =>
  bind_withEarlierLog (logFree_rssiSample l s) fun _ l t =>
    ite_withEarlierLog (logFree_logDiag false .rxMalformed l t) (logFree_dispatchFrame _ l t.drawn)

theorem logFree_handlePayload : LogFree handlePayload := fun l s =>
  bind_withEarlierLog (logFree_readFromFifo 1 l s) fun received l t =>
    match received with
    | [] => logFree_logDiag false .rxEmpty l t
    | n :: _ =>
      ite_withEarlierLog (logFree_logDiag false .rxLengthOversize l t) <|
        bind_withEarlierLog (logFree_readFromFifo _ l t) fun rest => logFree_handleFrame (n :: rest)

/-! ## Waits -/

theorem logFree_pollWait (w : WaitFrame) {k : Bool → Cmd} (hk : ∀ b, LogFree (k b)) : LogFree (pollWait w k) :=
  fun l s => bind_withEarlierLog (logFree_isModeReady l s) fun _ l t =>
    ite_withEarlierLog (hk true l t) <| ite_withEarlierLog
      ((congrArg (k false) (logDiag_withEarlierLog t.afterClock l .modeReadyTimeout)).trans (hk false l _)) rfl

theorem logFree_waitForModeReady (timeout : Millis) (place : AfterWait) {k : Bool → Cmd} (hk : ∀ b, LogFree (k b)) :
    LogFree (waitForModeReady timeout place k) :=
  fun l s => logFree_pollWait _ hk l s.afterClock

theorem logFree_afterTickWait (ready : Bool) {rest : Cmd} (hrest : LogFree rest) :
    LogFree (afterTickWait ready rest) := by
  refine fun l s => ite_withEarlierLog (hrest l s) ?_
  rw [withEarlierLog_cfg]
  cases s.cfg.waitFail with
  | proceed => exact hrest l s
  | stall => rfl
  | abortToIdle => rfl

theorem logFree_afterListenRearm (ready : Bool) : LogFree (afterListenRearm ready) :=
  logFree_afterTickWait ready (logFree_done none)

theorem logFree_afterListenPayload (ready : Bool) : LogFree (afterListenPayload ready) :=
  logFree_afterTickWait ready fun l s =>
    bind_withEarlierLog (logFree_handlePayload l s) fun _ l t =>
    bind_withEarlierLog (logFree_setMode .receiver l t) fun _ l u =>
    logFree_waitForModeReady _ _ logFree_afterListenRearm l u

theorem logFree_afterWait (place : AfterWait) (ready : Bool) : LogFree (afterWait place ready) := by
  cases place with
  | operation => exact logFree_done _
  | init => exact logFree_done none
  | listenInit => exact logFree_afterTickWait ready fun _ _ => rfl
  | listenPayload => exact logFree_afterListenPayload ready
  | listenRearm => exact logFree_afterListenRearm ready
  | sleep => exact fun _ _ => rfl
  | wakeup => exact fun l s => done_ite_withEarlierLog none (s.withTop (homeTop s.cfg)) s l

/-! ## Init, ticks and commands -/

theorem logFree_configureAll : LogFree configureAll := fun l s =>
  bind_withEarlierLog (logFree_configure _ _ l s) fun _ l s =>
  bind_withEarlierLog (logFree_configure _ _ l s) fun _ l s =>
  bind_withEarlierLog (logFree_configure _ _ l s) fun _ l s =>
  bind_withEarlierLog (logFree_configure _ _ l s) fun _ _ s =>
  bind_withEarlierLog (f := networkId s) rfl fun word l s =>
  bind_withEarlierLog (logFree_setSyncWord word l s) fun _ _ s =>
  bind_withEarlierLog (f := thisNodeAddress s) rfl fun _ l s =>
  bind_withEarlierLog (logFree_configure _ _ l s) fun _ _ s =>
  bind_withEarlierLog (f := broadcastAddress s) rfl fun _ l s =>
  bind_withEarlierLog (logFree_configure _ _ l s) fun _ l s =>
  bind_withEarlierLog (logFree_configure _ _ l s) fun _ l s =>
  bind_withEarlierLog (logFree_configure _ _ l s) fun _ l s =>
  bind_withEarlierLog (logFree_configure _ _ l s) fun _ l s =>
  bind_withEarlierLog (logFree_configure _ _ l s) fun _ l s =>
  logFree_configure _ _ l s

theorem logFree_initEngine : LogFree initEngine := fun l s =>
  bind_withEarlierLog (logFree_configureAll l s) fun _ l t =>
  bind_withEarlierLog (logFree_setMode _ l ((t.withSlot zeroFrame).withTop (homeTop t.cfg))) fun _ l u =>
  logFree_waitForModeReady _ _ (logFree_afterWait .init) l u

theorem logFree_tickNotInitialized : LogFree tickNotInitialized := fun l s =>
  (congrArg initEngine (logDiag_withEarlierLog s l _)).trans (logFree_initEngine l _)

theorem logFree_tickIdle : LogFree tickIdle :=
  fun l s => done_ite_withEarlierLog none (s.withTop (.sending .init)) s l

theorem logFree_tickListeningInit : LogFree tickListeningInit := fun l s =>
  bind_withEarlierLog (logFree_isPayloadReady l s) fun _ l t =>
  bind_withEarlierLog (ite_withEarlierLog (logFree_restartRx l t) rfl) fun _ l u =>
  bind_withEarlierLog (logFree_setHighPowerSettings false l u) fun _ l v =>
  bind_withEarlierLog (logFree_setMode .receiver l v) fun _ l w =>
  logFree_waitForModeReady _ _ (logFree_afterWait .listenInit) l w

theorem logFree_tickListeningWaiting : LogFree tickListeningWaiting := fun l s =>
  bind_withEarlierLog (logFree_isPayloadReady l s) fun _ l t =>
  ite_withEarlierLog
    (bind_withEarlierLog (logFree_setMode .standby l t) fun _ l u =>
      logFree_waitForModeReady _ _ (logFree_afterWait .listenPayload) l u)
    rfl

theorem logFree_tickListeningSendAck : LogFree tickListeningSendAck := fun l s =>
  bind_withEarlierLog (logFree_isModeReady l s) fun _ l t =>
    done_ite_withEarlierLog none (t.withTop (.listening .init)) t l

theorem logFree_tickSendingInit : LogFree tickSendingInit :=
  fun l s => bind_withEarlierLog (logFree_setMode .standby l s) fun _ _ _ => rfl

theorem logFree_tickSendingWriting : LogFree tickSendingWriting := fun l s =>
  bind_withEarlierLog (logFree_isModeReady l s) fun _ l t =>
  ite_withEarlierLog
    (bind_withEarlierLog (logFree_writeToFifo _ l t) fun _ l u =>
      bind_withEarlierLog (logFree_writeToFifo _ l u) fun _ l v =>
      bind_withEarlierLog (logFree_setMode .transmitter l v) fun _ l w =>
      bind_withEarlierLog (logFree_setHighPowerSettings true l w) fun _ _ _ => rfl)
    rfl

theorem logFree_tickSendingTransmitting : LogFree tickSendingTransmitting := fun l s =>
  bind_withEarlierLog (logFree_isPacketSent l s) fun _ l t =>
  ite_withEarlierLog
    (ite_withEarlierLog
      (bind_withEarlierLog (logFree_setMode .receiver l t) fun _ l u =>
        bind_withEarlierLog (logFree_setHighPowerSettings false l u) fun _ _ _ => rfl)
      (bind_withEarlierLog (by
        rw [withEarlierLog_slot]
        cases t.slot.callback with
        | some cb => exact logFree_callCallback cb l t
        | none => rfl) fun _ _ _ => rfl))
    rfl

theorem logFree_tickSendingWaitForAck : LogFree tickSendingWaitForAck := fun l s =>
  bind_withEarlierLog (logFree_isPayloadReady l s) fun _ l t =>
  ite_withEarlierLog
    (bind_withEarlierLog (logFree_handlePayload l t) fun _ l u =>
      bind_withEarlierLog (logFree_setMode .standby l u) fun _ _ _ => rfl)
    rfl

theorem logFree_tickSleeping : LogFree tickSleeping := fun l s =>
  ite_withEarlierLog rfl <|
  bind_withEarlierLog (logFree_getMode l s) fun _ l t =>
  ite_withEarlierLog rfl <|
  bind_withEarlierLog (logFree_isModeReady l t) fun _ l u =>
  ite_withEarlierLog (logFree_value (logFree_setMode .sleep) (fun _ => none) l u) rfl

/-- The tick action is chosen by the top-level state alone. -/
theorem logFree_updateEngine : LogFree updateEngine := by
  intro l s
  unfold updateEngine
  rw [withEarlierLog_top]
  split
  · exact logFree_tickNotInitialized l s
  · exact logFree_tickIdle l s
  · exact logFree_tickListeningInit l s
  · exact logFree_tickListeningWaiting l s
  · rfl
  · exact logFree_tickListeningSendAck l s
  · rfl
  · exact logFree_tickSendingInit l s
  · exact logFree_tickSendingWriting l s
  · exact logFree_tickSendingTransmitting l s
  · exact logFree_tickSendingWaitForAck l s
  · rfl
  · exact logFree_tickSleeping l s

theorem logFree_eventSleep : LogFree eventSleep := fun l s =>
  ite_withEarlierLog (bind_withEarlierLog (logFree_updateEngine l s) fun _ _ _ => rfl)
    (bind_withEarlierLog (logFree_setMode .sleep l s) fun _ l t =>
      logFree_waitForModeReady _ _ (logFree_afterWait .sleep) l t)

theorem logFree_eventWakeup : LogFree eventWakeup := fun l s =>
  bind_withEarlierLog (logFree_setMode .standby l s) fun _ l t =>
    logFree_waitForModeReady _ _ (logFree_afterWait .wakeup) l t

theorem logFree_eventHandler (kind : Byte) : LogFree (eventHandler kind) := by
  intro l s
  unfold eventHandler
  split
  · exact logFree_eventSleep l s
  · exact logFree_eventWakeup l s
  · rfl

/-! ## The instructions and the step -/

theorem finish_withEarlierLog (l : List (Level × Byte)) (f : Flow (Option Value)) :
    (f.withEarlierLog l).finish = f.finish.withEarlierLog l := by
  cases f <;> rfl

theorem logFree_command {body : Cmd} (h : LogFree body) : OutcomeLogFree (command body) := by
  intro l s
  cases hs : s.halted with
  | true => rw [command_halted hs, command_halted (s := s.withEarlierLog l) hs]; rfl
  | false =>
    rw [command_running hs, command_running (s := s.withEarlierLog l) hs]
    exact congrArg Host.Outcome.next ((congrArg Flow.finish (h l s.started)).trans (finish_withEarlierLog l _))

/-- No instruction's meaning depends on the log. -/
theorem exec_logFree (i : Instr) : OutcomeLogFree (exec i) := by
  cases i with
  | spiWrite a d => exact logFree_command (logFree_value (logFree_spiWrite _ _) _)
  | spiRead a => exact logFree_command (logFree_value (logFree_spiRead _) _)
  | init => exact logFree_command logFree_initEngine
  | update => exact logFree_command logFree_updateEngine
  | send target ack cb content => exact logFree_command (logFree_boolResult (logFree_sendCommand _ _ _ _))
  | setHandler type handler => exact logFree_command (logFree_noResult (logFree_setPacketHandler _ _))
  | event kind => exact logFree_command (logFree_eventHandler kind)
  | setMode m => exact logFree_command (logFree_noResult (logFree_setModeOperand m))
  | getMode => exact logFree_command (logFree_value logFree_getMode _)
  | waitForModeReady timeoutMs =>
    exact logFree_command (logFree_waitForModeReady _ _ (logFree_afterWait .operation))
  | isModeReady => exact logFree_command (logFree_boolResult logFree_isModeReady)
  | isPayloadReady => exact logFree_command (logFree_boolResult logFree_isPayloadReady)
  | isPacketSent => exact logFree_command (logFree_boolResult logFree_isPacketSent)
  | isFifoNotEmpty => exact logFree_command (logFree_boolResult logFree_isFifoNotEmpty)
  | isFifoFull => exact logFree_command (logFree_boolResult logFree_isFifoFull)
  | writeToFifo buf => exact logFree_command (logFree_value (logFree_writeToFifo buf) _)
  | readFromFifo maxLength => exact logFree_command (logFree_value (logFree_readFromFifo _) _)
  | getRssi => exact logFree_command (logFree_value logFree_getRssi _)
  | restartRx => exact logFree_command (logFree_noResult logFree_restartRx)
  | setHighPowerSettings on => exact logFree_command (logFree_noResult (logFree_setHighPowerSettings on))
  | setSyncWord word => exact logFree_command (logFree_boolResult (logFree_setSyncWord word))
  | setCarrierFrequency _ | setBitRate _ | setModulationType _ | setPowerLevel _ | setNodeAddress _
  | setBroadcastAddress _ | setAddressFiltering _ | setPacketFormat _ | setCrc _ | setCrcAutoClear _
  | setFifoThresholdCondition _ | setPreambleLength _ =>
    refine logFree_command (logFree_noResult ?_)
    exact fun l s => logFree_configure _ _ l s
  | validateContentSize _ | computeTotalSize _ | encodeFrame _ _ => exact logFree_command (logFree_done _)
  | decodeFrame bytes => exact logFree_command (logFree_value (f := decodeFrameAlone bytes) (fun _ _ => rfl) _)
  | packetToSend => exact logFree_command (body := fun s => .done (some (.bool s.packetStaged)) s) fun _ _ => rfl
  | isActive => exact logFree_command (body := fun s => .done (some (.bool s.active)) s) fun _ _ => rfl
  | isReadyToSend => exact logFree_command (logFree_boolResult logFree_isReadyToSend)
  | handlePayload => exact logFree_command (logFree_boolResult logFree_handlePayload)
  | tickNotInitialized => exact logFree_command logFree_tickNotInitialized
  | tickIdle => exact logFree_command logFree_tickIdle
  | tickListeningInit => exact logFree_command logFree_tickListeningInit
  | tickListeningWaiting => exact logFree_command logFree_tickListeningWaiting
  | tickListeningSendAck => exact logFree_command logFree_tickListeningSendAck
  | tickListeningReceiving | tickListeningDone | tickSendingDone => exact logFree_command (logFree_done none)
  | tickSendingInit => exact logFree_command logFree_tickSendingInit
  | tickSendingWriting => exact logFree_command logFree_tickSendingWriting
  | tickSendingTransmitting => exact logFree_command logFree_tickSendingTransmitting
  | tickSendingWaitForAck => exact logFree_command logFree_tickSendingWaitForAck
  | tickSleeping => exact logFree_command logFree_tickSleeping

theorem goOn_logFree (p : Pending) : OutcomeLogFree (goOn p) := by
  intro l s
  cases p with
  | wait w =>
    exact congrArg Host.Outcome.next ((congrArg Flow.finish
      (logFree_pollWait w (logFree_afterWait w.after) l s.resumed)).trans (finish_withEarlierLog l _))
  | drain =>
    exact congrArg Host.Outcome.next ((congrArg Flow.finish
      (logFree_eventSleep l s.resumed)).trans (finish_withEarlierLog l _))
  | refusal r => rfl
  | held => rfl

theorem runFrame_logFree (frame : CommandFrame) : OutcomeLogFree (runFrame frame) := by
  intro l s
  unfold runFrame
  cases decode frame with
  | ok i => exact exec_logFree i l s
  | error e =>
    simp only [rejectFrame]
    split
    · exact logFree_command (logFree_raiseFatal .state) l s
    · rfl

theorem takeCommand_logFree : OutcomeLogFree takeCommand := by
  intro l s
  unfold takeCommand
  rw [withEarlierLog_inbox]
  cases s.inbox with
  | nil => rfl
  | cons frame rest => exact runFrame_logFree frame l (s.withInbox rest)

/-- The two-run relation of R18 is kept by every step. -/
theorem step_logFree : OutcomeLogFree step := by
  intro l s
  unfold step
  rw [withEarlierLog_halted, withEarlierLog_validInstance, withEarlierLog_control]
  split
  · rfl
  · split
    · split
      · exact goOn_logFree _ l s
      · exact takeCommand_logFree l s
    · rfl

/-- Settles O55: every operation commutes with putting events before the log, and so does the step. -/
theorem logIsNeverRead : Obligations.LogIsNeverRead := by
  intro l s
  constructor
  · intro t h
    exact (step_logFree l s).trans (congrArg (outcomeWithEarlierLog l) h)
  · intro r h
    exact (step_logFree l s).trans (congrArg (outcomeWithEarlierLog l) h)

end Sys2Proof.Machine
end

