-- ==== Sys2Proof/Proofs/UpdateTop.lean ====
section
/-!
Where one Update may take the top-level state (R13, O56). Every operation of the adapter, every upcall and HandlePayload
leave the parameters and the top-level state as they are (`sameTop_calls`, by the packaged induction of
Laws/Reach.lean), so only the `withTop` of a tick action changes the top-level state. `Lands` follows that through a tick:
its lemma per tick action names, as hypotheses on `P`, the states that the action's rule enters.
-/

namespace Sys2Proof.Machine

/-- Two states with the same parameters in the same top-level state. -/
def SameTop (s t : State) : Prop := t.cfg = s.cfg ∧ t.top = s.top

theorem SameTop.trans {s t u : State} (h : SameTop s t) (k : SameTop t u) : SameTop s u :=
  ⟨k.1.trans h.1, k.2.trans h.2⟩

/-- No update but `withTop` changes the top-level state, and none the parameters. -/
theorem sameTop_calls : Calls SameTop SameTop where
  refl _ := ⟨rfl, rfl⟩
  trans := SameTop.trans
  absorb := SameTop.trans
  logDiag _ _ := ⟨rfl, rfl⟩
  halt _ _ := ⟨rfl, rfl⟩
  suspend _ _ _ := ⟨rfl, rfl⟩
  afterRead _ _ := ⟨rfl, rfl⟩
  afterWrite _ _ _ := ⟨rfl, rfl⟩
  afterClock _ := ⟨rfl, rfl⟩
  afterNode _ := ⟨rfl, rfl⟩
  afterNetwork _ := ⟨rfl, rfl⟩
  afterBroadcast _ := ⟨rfl, rfl⟩
  emit _ _ := ⟨rfl, rfl⟩
  afterHost _ := ⟨rfl, rfl⟩
  drawn _ := ⟨rfl, rfl⟩
  withSlot _ _ _ := ⟨rfl, rfl⟩
  withHandler _ _ _ _ := ⟨rfl, rfl⟩

theorem sameTop_quiet : Quiet SameTop SameTop := sameTop_calls.toQuiet

/-- The configuration sequence makes updates of the adapter only, so relations that `withTop` does not keep are kept. -/
theorem keeps_configureAll_of_quiet {D S : State → State → Prop} (hR : Quiet D S) :
    Keeps D S configureAll := fun s =>
  hR.bind (keeps_configure hR (fun s => s.cfg.setters.carrierFrequency) _ s) fun _ s =>
  hR.bind (keeps_configure hR (fun s => s.cfg.setters.bitRate) _ s) fun _ s =>
  hR.bind (keeps_configure hR (fun s => s.cfg.setters.modulationType) _ s) fun _ s =>
  hR.bind (keeps_configure hR (fun s => s.cfg.setters.powerLevel) _ s) fun _ s =>
  hR.bind (hR.afterNetwork s) fun w s =>
  hR.bind (keeps_setSyncWord hR w s) fun _ s =>
  hR.bind (hR.afterNode s) fun _ s =>
  hR.bind (keeps_configure hR (fun s => s.cfg.setters.nodeAddress) _ s) fun _ s =>
  hR.bind (hR.afterBroadcast s) fun _ s =>
  hR.bind (keeps_configure hR (fun s => s.cfg.setters.broadcastAddress) _ s) fun _ s =>
  hR.bind (keeps_configure hR (fun s => s.cfg.setters.addressFiltering) _ s) fun _ s =>
  hR.bind (keeps_configure hR (fun s => s.cfg.setters.packetFormat) _ s) fun _ s =>
  hR.bind (keeps_configure hR (fun s => s.cfg.setters.crc) _ s) fun _ s =>
  hR.bind (keeps_configure hR (fun s => s.cfg.setters.crcAutoClear) _ s) fun _ s =>
  keeps_configure hR (fun s => s.cfg.setters.fifoThresholdCondition) _ s

/-- Run in any state with the parameters and the top-level state of `s`, an operation comes to a top-level state that `P`
allows. -/
def Lands (s : State) (P : Top → Prop) {α : Type} (f : State → Flow α) : Prop :=
  ∀ t, SameTop s t → P (f t).state.top

section
variable {s : State} {P : Top → Prop} (hs : P s.top)
include hs

/-- An operation that leaves the top-level state lands where it started. -/
theorem lands_of_keeps {α : Type} {f : State → Flow α} (hf : Keeps SameTop SameTop f) : Lands s P f := by
  intro t ht
  have hft := hf t
  cases hflow : f t with
  | done a u => rw [hflow] at hft; exact (hft.2.trans ht.2) ▸ hs
  | stop u => rw [hflow] at hft; exact (hft.2.trans ht.2) ▸ hs

/-- After a flow that leaves the top-level state comes an operation that lands; a flow that stops has landed already. -/
theorem bind_lands {α β : Type} {t : State} (ht : SameTop s t) {f : Flow α} (hf : Comes SameTop SameTop t f)
    {k : α → State → Flow β} (hk : ∀ a, Lands s P (k a)) : P (f.bind k).state.top := by
  cases f with
  | done a u => exact hk a u (ht.trans hf)
  | stop u => exact (hf.2.trans ht.2) ▸ hs

/-! ## Waits -/

theorem lands_pollWait (w : WaitFrame) {k : Bool → Cmd} (hk : ∀ b, Lands s P (k b)) : Lands s P (pollWait w k) := by
  intro t ht
  refine bind_lands hs ht (keeps_isModeReady sameTop_quiet t) fun ready u hu => ?_
  split
  · exact hk true u hu
  · refine bind_lands hs hu (f := now u) (sameTop_quiet.afterClock u) fun _ v hv => ?_
    split
    · exact hk false _ hv
    · exact hv.2 ▸ hs

theorem lands_waitForModeReady (timeout : Millis) (place : AfterWait) {k : Bool → Cmd} (hk : ∀ b, Lands s P (k b)) :
    Lands s P (waitForModeReady timeout place k) :=
  fun t ht => bind_lands hs ht (f := now t) (sameTop_quiet.afterClock t) fun _ => lands_pollWait hs _ hk

/-- A tick action after its wait lands where its rest does, or in Idle where WAIT_FAIL says so (R191). -/
theorem lands_afterTickWait (hidle : s.cfg.waitFail = .abortToIdle → P .idle) (ready : Bool) {rest : Cmd}
    (hrest : Lands s P rest) : Lands s P (afterTickWait ready rest) := by
  intro t ht
  unfold afterTickWait
  split
  · exact hrest t ht
  · split
    · exact hrest t ht
    · exact ht.2 ▸ hs
    · rename_i hfail
      exact hidle (ht.1 ▸ hfail)

theorem lands_afterListenRearm (hidle : s.cfg.waitFail = .abortToIdle → P .idle) (ready : Bool) :
    Lands s P (afterListenRearm ready) :=
  lands_afterTickWait hs hidle ready (lands_of_keeps hs (keeps_done sameTop_quiet none))

theorem lands_afterListenPayload (hidle : s.cfg.waitFail = .abortToIdle → P .idle) (ready : Bool) :
    Lands s P (afterListenPayload ready) :=
  lands_afterTickWait hs hidle ready fun t ht =>
    bind_lands hs ht (keeps_handlePayload sameTop_calls t) fun _ u hu =>
    bind_lands hs hu (keeps_setMode sameTop_quiet .receiver u) fun _ v hv =>
    lands_waitForModeReady hs _ _ (lands_afterListenRearm hs hidle) v hv

/-! ## The tick actions: where each lands, given that `P` allows what its rule enters -/

/-- Init lands in the state of HOME, which it enters before the mode change and the wait; an assertion in the
configuration stops it where it started (R166). -/
theorem lands_initEngine (hhome : P (homeTop s.cfg)) : Lands s P initEngine := by
  intro t ht
  refine bind_lands hs ht (keeps_configureAll_of_quiet sameTop_quiet t) fun _ u hu => ?_
  have hP : P (homeTop u.cfg) := hu.1.symm ▸ hhome
  exact bind_lands (s := (u.withSlot zeroFrame).withTop (homeTop u.cfg)) hP (sameTop_quiet.refl _)
    (keeps_setMode sameTop_quiet _ _) fun _ v hv =>
    lands_waitForModeReady hP _ .init (k := afterWait .init)
      (fun _ => lands_of_keeps hP (keeps_done sameTop_quiet none)) v hv

theorem lands_tickNotInitialized (hhome : P (homeTop s.cfg)) : Lands s P tickNotInitialized :=
  fun t ht => lands_initEngine hs hhome (t.logDiag .notInitialized) ht

theorem lands_tickIdle (hsend : P (.sending .init)) : Lands s P tickIdle := by
  intro t ht
  unfold tickIdle
  split
  · exact hsend
  · exact ht.2 ▸ hs

theorem lands_tickListeningInit (hwaiting : P (.listening .waiting))
    (hidle : s.cfg.waitFail = .abortToIdle → P .idle) : Lands s P tickListeningInit := by
  intro t ht
  refine bind_lands hs ht (keeps_isPayloadReady sameTop_quiet t) fun stale u hu =>
    bind_lands hs hu ?_ fun _ v hv =>
    bind_lands hs hv (keeps_setHighPowerSettings sameTop_quiet false v) fun _ w hw =>
    bind_lands hs hw (keeps_setMode sameTop_quiet .receiver w) fun _ x hx =>
    lands_waitForModeReady hs _ _ (fun ready => lands_afterTickWait hs hidle ready
      (rest := fun s => .done none (s.withTop (.listening .waiting))) fun _ _ => hwaiting) x hx
  split
  · exact keeps_restartRx sameTop_quiet u
  · exact sameTop_quiet.refl u

theorem lands_tickListeningWaiting (hidle : s.cfg.waitFail = .abortToIdle → P .idle) :
    Lands s P tickListeningWaiting := by
  intro t ht
  refine bind_lands hs ht (keeps_isPayloadReady sameTop_quiet t) fun payload u hu => ?_
  split
  · exact bind_lands hs hu (keeps_setMode sameTop_quiet .standby u) fun _ v hv =>
      lands_waitForModeReady hs _ _ (lands_afterListenPayload hs hidle) v hv
  · exact hu.2 ▸ hs

theorem lands_tickListeningSendAck (hinit : P (.listening .init)) : Lands s P tickListeningSendAck := by
  intro t ht
  refine bind_lands hs ht (keeps_isModeReady sameTop_quiet t) fun ready u hu => ?_
  dsimp only [state_done]
  split
  · exact hinit
  · exact hu.2 ▸ hs

theorem lands_tickSendingInit (hwriting : P (.sending .writing)) : Lands s P tickSendingInit :=
  fun t ht => bind_lands hs ht (keeps_setMode sameTop_quiet .standby t) fun _ _ _ => hwriting

theorem lands_tickSendingWriting (htransmitting : P (.sending .transmitting)) : Lands s P tickSendingWriting := by
  intro t ht
  refine bind_lands hs ht (keeps_isModeReady sameTop_quiet t) fun ready u hu => ?_
  split
  · exact bind_lands hs hu (keeps_writeToFifo sameTop_quiet _ u) fun _ v hv =>
      bind_lands hs hv (keeps_writeToFifo sameTop_quiet _ v) fun _ w hw =>
      bind_lands hs hw (keeps_setMode sameTop_quiet .transmitter w) fun _ x hx =>
      bind_lands hs hx (keeps_setHighPowerSettings sameTop_quiet true x) fun _ _ _ => htransmitting
  · exact hu.2 ▸ hs

theorem lands_tickSendingTransmitting (hack : P (.sending .waitForAck)) (hidle : P .idle) :
    Lands s P tickSendingTransmitting := by
  intro t ht
  refine bind_lands hs ht (keeps_isPacketSent sameTop_quiet t) fun sent u hu => ?_
  split
  · split
    · exact bind_lands hs hu (keeps_setMode sameTop_quiet .receiver u) fun _ v hv =>
        bind_lands hs hv (keeps_setHighPowerSettings sameTop_quiet false v) fun _ _ _ => hack
    · refine bind_lands hs hu ?_ fun _ _ _ => hidle
      split
      · exact keeps_callCallback sameTop_calls _ u
      · exact sameTop_quiet.refl u
  · exact hu.2 ▸ hs

theorem lands_tickSendingWaitForAck (hidle : P .idle) : Lands s P tickSendingWaitForAck := by
  intro t ht
  refine bind_lands hs ht (keeps_isPayloadReady sameTop_quiet t) fun payload u hu => ?_
  split
  · exact bind_lands hs hu (keeps_handlePayload sameTop_calls u) fun _ v hv =>
      bind_lands hs hv (keeps_setMode sameTop_quiet .standby v) fun _ _ _ => hidle
  · exact hu.2 ▸ hs

theorem lands_tickSleeping : Lands s P tickSleeping := by
  intro t ht
  unfold tickSleeping
  split
  · exact ht.2 ▸ hs
  · refine bind_lands hs ht (keeps_getMode sameTop_quiet t) fun code u hu => ?_
    split
    · exact hu.2 ▸ hs
    · refine bind_lands hs hu (keeps_isModeReady sameTop_quiet u) fun ready v hv => ?_
      split
      · exact bind_lands hs hv (keeps_setMode sameTop_quiet .sleep v) fun _ w hw => hw.2 ▸ hs
      · exact hv.2 ▸ hs

end

/-! ## Update -/

/-- The top-level states one Update may leave: that of `s`, or one the rule of that state enters. -/
def updateMayLeave (s : State) (x : Top) : Prop := x = s.top ∨ tickMayEnter s.cfg s.top x

theorem lands_updateEngine (s : State) : Lands s (updateMayLeave s) updateEngine := by
  intro t ht
  have hs : updateMayLeave s s.top := .inl rfl
  have enters : ∀ {x : Top} {old : Top}, s.top = old → tickMayEnter s.cfg old x → updateMayLeave s x :=
    fun hold hx => .inr (hold ▸ hx)
  unfold updateEngine
  rw [ht.2]
  split
  next h => exact lands_tickNotInitialized hs (enters h rfl) t ht
  next h => exact lands_tickIdle hs (enters h rfl) t ht
  next h => exact lands_tickListeningInit hs (enters h (.inl rfl)) (fun hw => enters h (.inr ⟨hw, rfl⟩)) t ht
  next h => exact lands_tickListeningWaiting hs (fun hw => enters h ⟨hw, rfl⟩) t ht
  next => exact ht.2 ▸ hs
  next h => exact lands_tickListeningSendAck hs (enters h rfl) t ht
  next => exact ht.2 ▸ hs
  next h => exact lands_tickSendingInit hs (enters h rfl) t ht
  next h => exact lands_tickSendingWriting hs (enters h rfl) t ht
  next h => exact lands_tickSendingTransmitting hs (enters h (.inl rfl)) (enters h (.inr rfl)) t ht
  next h => exact lands_tickSendingWaitForAck hs (enters h rfl) t ht
  next => exact ht.2 ▸ hs
  next => exact lands_tickSleeping hs t ht

theorem finish_top (f : Flow (Option Value)) : f.finish.top = f.state.top := by
  cases f <;> rfl

/-- A command leaves the state as it is (a halted engine) or lands where its body does. -/
theorem command_top {s t : State} {P : Top → Prop} {body : Cmd} (hs : P s.top) (hbody : Lands s P body)
    (h : command body s = .next t) : P t.top := by
  cases hh : s.halted with
  | true =>
    rw [command_halted hh] at h
    cases h
    exact hs
  | false =>
    rw [command_running hh] at h
    cases h
    exact (finish_top _).symm ▸ hbody s.started ⟨rfl, rfl⟩

/-- Settles O56: each tick action lands where its rule says, and UPDATE runs the one of the top-level state. -/
theorem updateMakesOneTransition : Obligations.UpdateMakesOneTransition :=
  fun s _ h => command_top (P := updateMayLeave s) (.inl rfl) (lands_updateEngine s) h

end Sys2Proof.Machine
end

