-- ==== Sys2Proof/Proofs/StateInvariant.lean ====
section
/-!
The invariant of the engine's state (R22, R23, R25 to R27, R31, R171, R176, R186, R222; O51, O52), the frame and the
growth of the history of every step (R32, R37, O53), and the state after reset (R48, O1). The two step properties are
relations of an earlier to a later state that the packaged induction of Laws/Reach.lean follows through every operation:
what is proved here is what each update of the state does to the relation.
-/

namespace Sys2Proof.Machine

/-! ## Reset -/

/-- Settles O1: the reset state has these fields by definition. -/
theorem resetState : Obligations.ResetState :=
  ⟨rfl, rfl, rfl, fun _ => List.eq_of_mem_replicate, rfl, rfl, rfl⟩

/-- The zeroed slot, NotInitialized, no fault, no handler and no command in progress are all as the invariant asks. -/
theorem reset_inv : State.reset.Inv := ⟨slotOk_zeroFrame, rfl, rfl, rfl, rfl⟩

/-- Settles O52: beside the invariant, the reference parameters are in range and nothing is in progress. -/
theorem resetMeetsTheInvariant : Obligations.ResetMeetsTheInvariant := by
  have hregs : regMapOk State.reset.cfg = true := by decide
  have hvalid : State.reset.validInstance = true := by decide
  exact ⟨reset_inv, ⟨rfl, hregs⟩, rfl, hvalid, rfl⟩

/-! ## The invariant -/

/-- The later state meets the invariant if the earlier one does. -/
def KeepsInv (s t : State) : Prop := s.Inv → t.Inv

/-- The codes of the fatal assertions are 1 to 6 (R222). -/
theorem fatalCode_range (c : FatalCode) : 1 ≤ c.code.toNat ∧ c.code.toNat ≤ 6 := by
  cases c <;> decide

theorem faultOk_halted {s : State} (h : s.halted = true) :
    faultOk s = true ↔ 1 ≤ s.faultCode.toNat ∧ s.faultCode.toNat ≤ 6 := by
  simp [faultOk, h]

theorem inv_halt (s : State) (c : FatalCode) : KeepsInv s (s.halt c.code) := by
  rintro ⟨hslot, htop, -, hhandlers, -⟩
  exact ⟨hslot, htop, (faultOk_halted rfl).2 (fatalCode_range c), hhandlers, rfl⟩

theorem inv_suspend (s : State) {p : Pending} (hp : p.ok = true) : KeepsInv s (s.suspend p) :=
  fun ⟨hslot, htop, hfault, hhandlers, _⟩ => ⟨hslot, htop, hfault, hhandlers, hp⟩

theorem inv_withSlot (s : State) {p : Packet} (hp : slotOk p = true) : KeepsInv s (s.withSlot p) :=
  fun ⟨_, htop, hfault, hhandlers, hcontrol⟩ => ⟨hp, htop, hfault, hhandlers, hcontrol⟩

theorem inv_withTop (s : State) {x : Top} (hx : x.entered = true) : KeepsInv s (s.withTop x) :=
  fun ⟨hslot, _, hfault, hhandlers, hcontrol⟩ => ⟨hslot, hx, hfault, hhandlers, hcontrol⟩

/-- Registering a handler that is not null leaves no null entry: an entry is an old one or the new one (R176). -/
theorem handlersOk_withHandler {s : State} (hs : handlersOk s = true) (n : Nat) {h : Byte} (h0 : h ≠ 0) :
    handlersOk (s.withHandler n (some h)) = true := by
  simp only [handlersOk, List.all_eq_true, decide_eq_true_eq, State.withHandler_handlers] at hs ⊢
  intro x hx
  obtain hold | rfl := List.mem_or_eq_of_mem_set hx
  · exact hs x hold
  · exact fun he => h0 (Option.some.inj he)

theorem inv_withHandler (s : State) (n : Nat) {h : Byte} (h0 : h ≠ 0) : KeepsInv s (s.withHandler n (some h)) :=
  fun ⟨hslot, htop, hfault, hhandlers, hcontrol⟩ =>
    ⟨hslot, htop, hfault, handlersOk_withHandler hhandlers n h0, hcontrol⟩

theorem inv_started (s : State) : KeepsInv s s.started :=
  fun ⟨hslot, htop, hfault, hhandlers, _⟩ => ⟨hslot, htop, hfault, hhandlers, rfl⟩

theorem inv_resumed (s : State) : KeepsInv s s.resumed :=
  fun ⟨hslot, htop, hfault, hhandlers, _⟩ => ⟨hslot, htop, hfault, hhandlers, rfl⟩

/-- Every update of the state keeps the invariant; those with the proof `id` touch no field it speaks of. -/
theorem keepsInv_runs : Runs KeepsInv KeepsInv KeepsInv where
  refl _ := id
  trans h k := k ∘ h
  absorb h k := k ∘ h
  logDiag _ _ := id
  halt := inv_halt
  suspend s _ hp := inv_suspend s hp
  afterRead _ _ := id
  afterWrite _ _ _ := id
  afterClock _ := id
  afterNode _ := id
  afterNetwork _ := id
  afterBroadcast _ := id
  emit _ _ := id
  afterHost _ := id
  drawn _ := id
  withSlot s _ hp := inv_withSlot s hp
  withHandler s n _ h0 := inv_withHandler s n h0
  withTop s _ hx := inv_withTop s hx
  same _ := id
  started s _ := inv_started s
  resumed s _ := inv_resumed s
  returned _ h := h
  stopped h := h

/-- Settles O51: every update keeps the invariant, and a step is made of updates; taking a frame is not seen by it. -/
theorem stepKeepsTheInvariant : Obligations.StepKeepsTheInvariant :=
  fun _ _ hs h => step_closed keepsInv_runs (fun _ _ _ hn => hn) h hs

/-! ## Parameters and history -/

/-- The parameters and the number of packet types stay, the log and the port trace grow at their ends. -/
structure Extends (s t : State) : Prop where
  cfg : t.cfg = s.cfg
  types : t.handlers.length = s.handlers.length
  log : s.log <+: t.log
  trace : s.trace <+: t.trace

theorem Extends.trans {s t u : State} (h : Extends s t) (k : Extends t u) : Extends s u :=
  ⟨k.cfg.trans h.cfg, k.types.trans h.types, h.log.trans k.log, h.trace.trans k.trace⟩

/-- An update touches none of the four fields, appends to the log or to the port trace, or replaces an entry of the
handler table; none removes anything. -/
theorem extends_runs : Runs Extends Extends Extends where
  refl _ := ⟨rfl, rfl, List.prefix_rfl, List.prefix_rfl⟩
  trans := Extends.trans
  absorb := Extends.trans
  logDiag _ _ := ⟨rfl, rfl, List.prefix_append _ _, List.prefix_rfl⟩
  halt _ _ := ⟨rfl, rfl, List.prefix_append _ _, List.prefix_rfl⟩
  suspend _ _ _ := ⟨rfl, rfl, List.prefix_rfl, List.prefix_rfl⟩
  afterRead _ _ := ⟨rfl, rfl, List.prefix_rfl, List.prefix_append _ _⟩
  afterWrite _ _ _ := ⟨rfl, rfl, List.prefix_rfl, List.prefix_append _ _⟩
  afterClock _ := ⟨rfl, rfl, List.prefix_rfl, List.prefix_append _ _⟩
  afterNode _ := ⟨rfl, rfl, List.prefix_rfl, List.prefix_append _ _⟩
  afterNetwork _ := ⟨rfl, rfl, List.prefix_rfl, List.prefix_append _ _⟩
  afterBroadcast _ := ⟨rfl, rfl, List.prefix_rfl, List.prefix_append _ _⟩
  emit _ _ := ⟨rfl, rfl, List.prefix_rfl, List.prefix_append _ _⟩
  afterHost _ := ⟨rfl, rfl, List.prefix_rfl, List.prefix_rfl⟩
  drawn _ := ⟨rfl, rfl, List.prefix_rfl, List.prefix_rfl⟩
  withSlot _ _ _ := ⟨rfl, rfl, List.prefix_rfl, List.prefix_rfl⟩
  withHandler _ _ _ _ := ⟨rfl, List.length_set, List.prefix_rfl, List.prefix_rfl⟩
  withTop _ _ _ := ⟨rfl, rfl, List.prefix_rfl, List.prefix_rfl⟩
  same _ := ⟨rfl, rfl, List.prefix_rfl, List.prefix_rfl⟩
  started _ _ := ⟨rfl, rfl, List.prefix_rfl, List.prefix_rfl⟩
  resumed _ _ := ⟨rfl, rfl, List.prefix_rfl, List.prefix_rfl⟩
  returned _ h := ⟨h.cfg, h.types, h.log, h.trace⟩
  stopped h := h

/-- Taking a frame from the queue touches none of the four fields, so what follows it extends the state before. -/
theorem Extends.of_withInbox {s t : State} {rest : List CommandFrame} (h : Extends (s.withInbox rest) t) : Extends s t :=
  ⟨h.cfg, h.types, h.log, h.trace⟩

/-- Settles O53: a step is made of updates, each of which extends the state. -/
theorem parametersStayAndHistoryGrows : Obligations.ParametersStayAndHistoryGrows := by
  intro s t h
  obtain ⟨hcfg, htypes, hlog, htrace⟩ := step_closed extends_runs (fun _ _ _ => Extends.of_withInbox) h
  exact ⟨hcfg, htypes, hlog, htrace⟩

end Sys2Proof.Machine
end

