-- ==== Sys2Proof/Proofs/Encoding.lean ====
section
/-!
The encoder and the decoder agree (R71, R80, R83 to R85; O6, O7, O8). The round trip is proved of streams: a decoder reads
an encoded instruction from the head of any stream and leaves the bytes after it (`decodeStream_encode`), because every
operand reader does so with the bytes its writer makes. For transactions and state words the bytes taken are
conversely the encoding of the instruction answered (`decodeSpi_bytes`, `decodeState_bytes`).
-/

namespace Sys2Proof

/-! ## A frame is a stream that holds one instruction -/

theorem decode_eq_ok_iff {frame : CommandFrame} {i : Instr} :
    decode frame = .ok i ↔ decodeStream frame.format frame.bytes = .ok (i, []) := by
  unfold decode
  split <;> simp_all

/-! ## Operands that the encoder writes are read back -/

section
variable (f : Format) (code : Byte) (rest : List Byte)

theorem takeWord16_bytes16 (k : BitVec 16 → Instr) (n : BitVec 16) :
    takeWord16 f code k (bytes16 n ++ rest) = .ok (k n, rest) := by
  have hn : n.extractLsb' 8 8 ++ n.extractLsb' 0 8 = n := by
    rw [BitVec.extractLsb'_append_extractLsb'_eq_extractLsb' (by rfl)]
    exact BitVec.extractLsb'_eq_self
  simp [takeWord16, bytes16, hn]

theorem takeWord24_bytes24 (k : BitVec 24 → Instr) (n : BitVec 24) :
    takeWord24 f code k (bytes24 n ++ rest) = .ok (k n, rest) := by
  have hn : n.extractLsb' 16 8 ++ n.extractLsb' 8 8 ++ n.extractLsb' 0 8 = n := by
    rw [BitVec.extractLsb'_append_extractLsb'_eq_extractLsb' (by rfl),
      BitVec.extractLsb'_append_extractLsb'_eq_extractLsb' (by rfl)]
    exact BitVec.extractLsb'_eq_self
  simp [takeWord24, bytes24, hn]

theorem takeWord32_bytes32 (k : Millis → Instr) (n : Millis) :
    takeWord32 f code k (bytes32 n ++ rest) = .ok (k n, rest) := by
  have hn : n.extractLsb' 24 8 ++ n.extractLsb' 16 8 ++ n.extractLsb' 8 8 ++ n.extractLsb' 0 8 = n := by
    rw [BitVec.extractLsb'_append_extractLsb'_eq_extractLsb' (by rfl),
      BitVec.extractLsb'_append_extractLsb'_eq_extractLsb' (by rfl),
      BitVec.extractLsb'_append_extractLsb'_eq_extractLsb' (by rfl)]
    exact BitVec.extractLsb'_eq_self
  simp [takeWord32, bytes32, hn]

/-- The count byte says how many bytes are the sequence's (log 8). -/
theorem takeBytes_bytesCounted (k : List Byte → Instr) {b : List Byte} (h : byteSeqOk b = true) :
    takeBytes f code k (bytesCounted b ++ rest) = .ok (k b, rest) := by
  have hcount : (BitVec.ofNat 8 b.length).toNat = b.length := Laws.encodedLength_counted h
  simp only [takeBytes, bytesCounted, List.cons_append, hcount]
  simp

/-- The size byte says how many bytes after it are data (R83, R84). -/
theorem takeContent_bytesContent (k : Content → Instr) {c : Content} (h : c.operandOk = true) :
    takeContent f code k (bytesContent c ++ rest) = .ok (k c, rest) := by
  obtain ⟨timestamp, type, size, data⟩ := c
  simp only [Content.operandOk, Config.tsLen, Bool.and_eq_true, beq_iff_eq] at h
  obtain ⟨htimestamp, hdata⟩ := h
  match timestamp, htimestamp with
  | [_, _, _, _, _, _], _ => simp [takeContent, bytesContent, ← hdata]

end

/-! ## Transactions -/

/-- The flag bit is put before the address bits, so the library's rules of `BitVec.cons` speak of the address byte. -/
theorem addrByte_eq_cons (write : Bool) (a : BitVec 7) : addrByte write a = BitVec.cons write a := rfl

@[simp] theorem msb_addrByte (write : Bool) (a : BitVec 7) : (addrByte write a).msb = write := by
  rw [addrByte_eq_cons, BitVec.msb_cons]

@[simp] theorem truncate_addrByte (write : Bool) (a : BitVec 7) : (addrByte write a).truncate 7 = a := by
  rw [addrByte_eq_cons, BitVec.truncate_eq_setWidth, BitVec.setWidth_cons]

/-- A byte is the address byte of its flag bit and its address bits (R71, R73). -/
theorem addrByte_msb_truncate (b : Byte) : addrByte b.msb (b.truncate 7) = b := by
  rw [addrByte_eq_cons, BitVec.truncate_eq_setWidth]
  exact BitVec.cons_msb_setWidth b

/-! ## The round trip -/

/-- A decoder reads an encoded instruction from the head of a stream and leaves the bytes after it. The operands of more
than a byte, the booleans and the transactions have rules of their own; every other instruction is a code and plain
bytes. -/
theorem decodeStream_encode {i : Instr} (h : i.WellFormed = true) (rest : List Byte) :
    decodeStream (encode i).format ((encode i).bytes ++ rest) = .ok (i, rest) := by
  cases i with
  | spiWrite a d => simp [encode, decodeStream, decodeSpi]
  | spiRead a => simp [encode, decodeStream, decodeSpi]
  | send target requestAck callback content =>
    have hcontent := takeContent_bytesContent .host 3 rest (.send target requestAck callback) h
    simpa [encode, decodeStream, decodeHost] using hcontent
  | waitForModeReady timeoutMs => exact takeWord32_bytes32 .op 0x22 rest _ timeoutMs
  | setCarrierFrequency frf => exact takeWord24_bytes24 .op 0x30 rest _ frf
  | setBitRate br => exact takeWord16_bytes16 .op 0x31 rest _ br
  | setPreambleLength n => exact takeWord16_bytes16 .op 0x3C rest _ n
  | writeToFifo buf => exact takeBytes_bytesCounted .op 0x28 rest _ h
  | setSyncWord word => exact takeBytes_bytesCounted .op 0x34 rest _ h
  | decodeFrame bytes => exact takeBytes_bytesCounted .op 0x43 rest _ h
  | validateContentSize content => exact takeContent_bytesContent .op 0x40 rest _ h
  | computeTotalSize content => exact takeContent_bytesContent .op 0x41 rest _ h
  | encodeFrame header content =>
    have hcontent := takeContent_bytesContent .op 0x42 rest (.encodeFrame header) h
    simpa [encode, decodeStream, decodeOp, bytesHeader] using hcontent
  | setHighPowerSettings on => simp [encode, decodeStream, decodeOp, takeByte]
  | setCrc on => simp [encode, decodeStream, decodeOp, takeByte]
  | setCrcAutoClear on => simp [encode, decodeStream, decodeOp, takeByte]
  | _ => rfl

/-- Settles O6: the frame is the stream that holds the instruction and nothing after it. -/
theorem encodeDecodeRoundTrip : Obligations.EncodeDecodeRoundTrip := by
  intro i h
  have hstream := decodeStream_encode h []
  rw [List.append_nil] at hstream
  exact decode_eq_ok_iff.2 hstream

/-- Settles O8: each word is evaluated. -/
theorem writtenWordsDecode : Obligations.WrittenWordsDecode := by
  unfold Obligations.WrittenWordsDecode
  decide

/-! ## Transactions and state words have one meaning each -/

/-- A byte with a given value is that literal. -/
theorem eq_ofNat_of_toNat {b : Byte} {n : Nat} (h : b.toNat = n) : b = BitVec.ofNat 8 n := by
  rw [← h, BitVec.ofNat_toNat, BitVec.setWidth_eq]

/-- A transaction is the encoding of the access that it decodes to: its address byte is made of the flag and the address,
and a read's second byte is 0x00 (R71). -/
theorem decodeSpi_bytes {l rest : List Byte} {i : Instr} (h : decodeSpi l = .ok (i, rest)) :
    (encode i).format = .spi ∧ l = (encode i).bytes ++ rest := by
  unfold decodeSpi at h
  split at h
  next => cases h
  next => cases h
  next b0 b1 rest =>
    have hb0 := addrByte_msb_truncate b0
    split at h
    next hwrite =>
      rw [hwrite] at hb0
      cases h
      simp [encode, hb0]
    next hread =>
      rw [Bool.not_eq_true] at hread
      rw [hread] at hb0
      split at h
      next hdummy =>
        cases h
        simp [encode, hb0, hdummy]
      next => cases h

/-- A state word is the encoding of the tick action that it decodes to: each value is assigned once (R80). -/
theorem decodeState_bytes {l rest : List Byte} {i : Instr} (h : decodeState l = .ok (i, rest)) :
    (encode i).format = .state ∧ l = (encode i).bytes ++ rest := by
  cases l with
  | nil => cases h
  | cons w l =>
    simp only [decodeState] at h
    split at h
    case h_14 => cases h
    all_goals
      rename_i hw
      cases h
      rw [eq_ofNat_of_toNat hw]
      exact ⟨rfl, rfl⟩

/-- Settles O7: the bytes that either form takes are the encoding of what it answers. -/
theorem transactionAndStateFramesEncodeBack : Obligations.TransactionAndStateFramesEncodeBack := by
  rintro ⟨format, bytes⟩ i hformat h
  have hstream := decode_eq_ok_iff.1 h
  have hencode : (encode i).format = format ∧ bytes = (encode i).bytes ++ [] := by
    obtain rfl | rfl := hformat
    · exact decodeSpi_bytes hstream
    · exact decodeState_bytes hstream
  obtain ⟨rfl, rfl⟩ := hencode
  rw [List.append_nil]

end Sys2Proof
end

