-- ==== Sys2Proof/Proofs/StepOutcomes.lean ====
section
/-!
How a step can end (R84, R87, R165, R186; O4, O5). Every meaning is a next state (`exec_next`), so a step is refused only
where the step itself, a command's place or the frame taken says so. A host frame that is no command is refused because the
decoder's answer fixes the frame's length (`decodeHost_length`) and its errors are never that of a state word.
-/

namespace Sys2Proof

/-! ## The length of a host frame -/

/-- A content and the bytes after it make up the bytes it was read from; its size byte is the eighth of them. -/
theorem takeContent_length {f : Format} {code : Byte} {k : Content → Instr} {l rest : List Byte} {i : Instr}
    (h : takeContent f code k l = .ok (i, rest)) : l.length = 8 + (l.getD 7 0).toNat + rest.length := by
  unfold takeContent at h
  split at h
  next size data =>
    split at h
    next hsize =>
      cases h
      simp
      omega
    next => cases h
  next => cases h

/-- The bytes of a host command that decodes are as many as its opcode, and of a SEND its size byte, say (R83). -/
theorem decodeHost_length {l rest : List Byte} {i : Instr} (h : decodeHost l = .ok (i, rest)) :
    l.length = instrLength .host l + rest.length := by
  cases l with
  | nil => cases h
  | cons c l =>
    simp only [decodeHost] at h
    simp only [instrLength, List.getD_cons_zero, List.length_cons]
    split at h
    next hc => cases h; simp only [hc]; omega
    next hc => cases h; simp only [hc]; omega
    next hc =>
      split at h
      next target ack cb content =>
        have hlength := takeContent_length h
        simp only [hc, List.length_cons, List.getD_cons_succ]
        omega
      next => cases h
    next hc =>
      split at h
      next => cases h; simp only [hc, List.length_cons]; omega
      next => cases h
    next hc =>
      cases l with
      | nil => cases h
      | cons kind l => cases h; simp only [hc, List.length_cons]; omega
    next => cases h

/-- A host frame that decodes has the length its first bytes give it. -/
theorem decode_host_length {l : List Byte} {i : Instr} (h : decode ⟨.host, l⟩ = .ok i) :
    l.length = instrLength .host l := decodeHost_length (decode_eq_ok_iff.1 h)

theorem takeContent_error {f : Format} {code : Byte} {k : Content → Instr} {l : List Byte} {e : DecodeError}
    (h : takeContent f code k l = .error e) : e = .wrongLength f code := by
  unfold takeContent at h
  split at h
  next =>
    split at h
    next => cases h
    next => cases h; rfl
  next => cases h; rfl

/-- An opcode that is not one of the five is the reason why its frame is no command (R84). -/
theorem decodeHost_unknown {c : Byte} (hc : c = 0 ∨ 6 ≤ c.toNat) (l : List Byte) :
    decodeHost (c :: l) = .error (.unknownCode .host c) := by
  have hnot : ∀ n, 1 ≤ n → n ≤ 5 → c.toNat ≠ n := by
    obtain rfl | hc := hc
    · intro n hn _ h0
      simp at h0
      omega
    · omega
  simp only [decodeHost]
  split
  case h_6 => rfl
  all_goals
    rename_i hcode
    exact absurd hcode (hnot _ (by decide) (by decide))

/-- No bytes of the host form are read as a state word. -/
theorem decodeHost_error {l : List Byte} {e : DecodeError} (h : decodeHost l = .error e) (w : Byte) :
    e ≠ .unknownCode .state w := by
  rintro rfl
  cases l with
  | nil => cases h
  | cons c l =>
    simp only [decodeHost] at h
    split at h
    next => cases h
    next => cases h
    next =>
      split at h
      next => cases takeContent_error h
      next => cases h
    next =>
      split at h
      next => cases h
      next => cases h
    next => cases l <;> cases h
    next => cases h

/-- The reason why a host frame is no command is its opcode or its length, never a state word. -/
theorem decode_host_error {l : List Byte} {e : DecodeError} (h : decode ⟨.host, l⟩ = .error e) (w : Byte) :
    e ≠ .unknownCode .state w := by
  unfold decode at h
  split at h
  next hstream => cases h; exact decodeHost_error hstream w
  next => cases h
  next => cases h; intro hw; cases hw

/-! ## State words -/

/-- A word outside R80 is the reason why its frame is no tick action (R87). -/
theorem decode_state_unknown {w : Byte}
    (hw : w ∉ ([0x00, 0x10, 0x20, 0x21, 0x22, 0x23, 0x24, 0x30, 0x31, 0x32, 0x33, 0x34, 0x40] : List Byte)) :
    decode ⟨.state, [w]⟩ = .error (.unknownCode .state w) := by
  have hstream : decodeState [w] = .error (.unknownCode .state w) := by
    simp only [decodeState]
    split
    case h_14 => rfl
    all_goals
      rename_i hvalue
      rw [eq_ofNat_of_toNat hvalue] at hw
      exact absurd hw (by decide)
  simp only [decode, decodeStream, hstream]

end Sys2Proof

namespace Sys2Proof.Machine

/-! ## Frames that are taken -/

/-- Between two commands a step runs the next frame (R165). -/
theorem step_takes {s : State} (hs : s.BetweenCommands) {frame : CommandFrame} {more : List CommandFrame}
    (hi : s.inbox = frame :: more) : step s = runFrame frame (s.withInbox more) := by
  obtain ⟨hhalted, hvalid, hcontrol⟩ := hs
  simp [step, takeCommand, hhalted, hvalid, hcontrol, hi]

/-- A frame that is no instruction is refused, unless its first byte is read as a state word (R84, U9). -/
theorem runFrame_refused {frame : CommandFrame} {e : DecodeError} (h : decode frame = .error e)
    (he : ∀ w, e ≠ .unknownCode .state w) (s : State) : runFrame frame s = .refused (.badFrame e) := by
  simp only [runFrame, h, rejectFrame]

/-- A state word outside R80 is the fatal assertion ASSERT_STATE (R87, U16). -/
theorem runFrame_stateWord {frame : CommandFrame} {w : Byte} (h : decode frame = .error (.unknownCode .state w))
    {s : State} (hs : s.halted = false) : runFrame frame s = .next (s.fatal 0x06) := by
  simp only [runFrame, h, rejectFrame]
  exact command_running hs

/-! ## Outcomes -/

/-- Every instruction has a next state: each meaning runs its body as a command. -/
theorem exec_next (i : Instr) (s : State) : ∃ t, exec i s = .next t := by
  cases i <;> exact ⟨_, rfl⟩

/-- A frame has a next state, or is refused because it is no instruction. -/
theorem runFrame_outcome (frame : CommandFrame) (s : State) :
    (∃ t, runFrame frame s = .next t) ∨
      ∃ e, decode frame = .error e ∧ runFrame frame s = .refused (.badFrame e) := by
  cases h : decode frame with
  | ok i =>
    simp only [runFrame, h]
    exact .inl (exec_next i s)
  | error e =>
    by_cases he : ∃ w, e = .unknownCode .state w
    · obtain ⟨w, rfl⟩ := he
      simp only [runFrame, h]
      exact .inl ⟨_, rfl⟩
    · exact .inr ⟨e, rfl, runFrame_refused h (fun w hw => he ⟨w, hw⟩) s⟩

/-- A command in progress has a next state, or is a refusal, which of the places a command can stop at is one of an
upcall (R84, R186). -/
theorem goOn_outcome {p : Pending} (hp : p.ok = true) (s : State) :
    (∃ t, goOn p s = .next t) ∨
      (∃ i, (i = .init ∨ i = .update ∨ ∃ k, i = .event k) ∧ p = .refusal (.reentrantCommand i) ∧
        goOn p s = .refused (.reentrantCommand i)) ∨
      ∃ e, p = .refusal (.badFrame e) ∧ goOn p s = .refused (.badFrame e) := by
  cases p with
  | wait w => exact .inl ⟨_, rfl⟩
  | drain => exact .inl ⟨_, rfl⟩
  | held => exact .inl ⟨_, rfl⟩
  | refusal r =>
    cases r with
    | reentrantCommand i =>
      refine .inr (.inl ⟨i, ?_, rfl, rfl⟩)
      cases i with
      | init => exact .inl rfl
      | update => exact .inr (.inl rfl)
      | event k => exact .inr (.inr ⟨k, rfl⟩)
      | _ => cases hp
    | badFrame e => exact .inr (.inr ⟨e, rfl, rfl⟩)
    | notModelled m => cases hp
    | invalidInstance => cases hp

/-- Settles O4: the step's own branches, each with what its lemma says it can come to. -/
theorem stepsEndOnlyInNamedRefusals : Obligations.StepsEndOnlyInNamedRefusals := by
  refine ⟨exec_next, fun s hplace => ?_⟩
  cases hhalted : s.halted with
  | true => exact .inl ⟨s, by simp [step, hhalted]⟩
  | false =>
    cases hvalid : s.validInstance with
    | false => exact .inr (.inl ⟨rfl, rfl, by simp [step, hhalted, hvalid]⟩)
    | true =>
      cases hcontrol : s.control with
      | some p =>
        have hp : p.ok = true := by simpa [controlOk, hcontrol] using hplace
        have hstep : step s = goOn p s := by simp [step, hhalted, hvalid, hcontrol]
        rw [hstep]
        obtain hnext | ⟨i, hi, rfl, hr⟩ | ⟨e, rfl, hr⟩ := goOn_outcome hp s
        · exact .inl hnext
        · exact .inr (.inr (.inl ⟨i, hi, rfl, hr⟩))
        · exact .inr (.inr (.inr (.inl ⟨e, rfl, hr⟩)))
      | none =>
        cases hinbox : s.inbox with
        | nil => exact .inl ⟨s, by simp [step, takeCommand, hhalted, hvalid, hcontrol, hinbox]⟩
        | cons frame rest =>
          rw [step_takes ⟨hhalted, hvalid, hcontrol⟩ hinbox]
          obtain hnext | ⟨e, hdecode, hr⟩ := runFrame_outcome frame (s.withInbox rest)
          · exact .inl hnext
          · exact .inr (.inr (.inr (.inr ⟨frame, rest, e, rfl, rfl, hdecode, hr⟩)))

/-! ## Frames that are no command -/

/-- A host frame with a length other than its command's is no instruction (R83, R84). -/
theorem decode_host_wrongLength {l : List Byte} (h : l.length ≠ instrLength .host l) :
    ∃ e, decode ⟨.host, l⟩ = .error e ∧ ∀ w, e ≠ .unknownCode .state w := by
  cases hdecode : decode ⟨.host, l⟩ with
  | ok i => exact absurd (decode_host_length hdecode) h
  | error e => exact ⟨e, rfl, decode_host_error hdecode⟩

/-- Settles O5: an unassigned opcode and a wrong length are reasons why a host frame is no command, and a state word
outside R80 is read as one that no tick action has. -/
theorem framesThatAreNoCommand : Obligations.FramesThatAreNoCommand := by
  intro s more hs
  refine ⟨fun c rest hi => ⟨fun hc => ?_, fun hlength => ?_⟩, fun w hi hw => ?_⟩
  · have hdecode : decode ⟨.host, c :: rest⟩ = .error (.unknownCode .host c) := by
      simp only [decode, decodeStream, decodeHost_unknown hc]
    rw [step_takes hs hi]
    exact runFrame_refused hdecode (fun w hw => by cases hw) _
  · have hwrong : (c :: rest).length ≠ instrLength .host (c :: rest) := by
      obtain ⟨rfl | rfl, hbare⟩ | ⟨rfl, hsend⟩ | ⟨rfl, hset⟩ | ⟨rfl, hevent⟩ := hlength
      · simpa [instrLength] using hbare
      · simpa [instrLength] using hbare
      · simpa [instrLength] using hsend
      · simpa [instrLength] using hset
      · simpa [instrLength] using hevent
    obtain ⟨e, hdecode, he⟩ := decode_host_wrongLength hwrong
    rw [step_takes hs hi]
    exact ⟨e, runFrame_refused hdecode he _⟩
  · rw [step_takes hs hi]
    obtain ⟨hhalted, -, -⟩ := hs
    exact runFrame_stateWord (decode_state_unknown hw) hhalted

end Sys2Proof.Machine
end

