-- ==== Sys2Proof/Proofs/Transport.lean ====
section
/-!
The register transport (R71, R73, R100 to R103; O9, O10). An address byte is the 7-bit address under its flag bit, both in
the encoder and on the bus. Each operation is then its one transaction, or in the other case the fatal assertion before
it.
-/

namespace Sys2Proof

/-! ## Address bytes -/

/-- Without the flag the address byte is the address (R73, R101). -/
theorem addrByte_false (a : BitVec 7) : addrByte false a = a.zeroExtend 8 :=
  (BitVec.setWidth_eq_append (by decide)).symm

/-- The write flag is bit 7, above the address bits (R73, R100). -/
theorem addrByte_true (a : BitVec 7) : addrByte true a = 0x80 ||| a.zeroExtend 8 :=
  calc addrByte true a
    _ = BitVec.cons (true || false) (0#7 ||| a) := by rw [addrByte_eq_cons, BitVec.zero_or, Bool.true_or]
    _ = 0x80 ||| addrByte false a := (BitVec.cons_or_cons 0#7 a true false).symm
    _ = 0x80 ||| a.zeroExtend 8 := by rw [addrByte_false]

end Sys2Proof

namespace Sys2Proof.Machine

/-- A 7-bit address has no flag that a read would clear (R73, R101). -/
theorem readByte_zeroExtend (a : BitVec 7) : readByte (a.zeroExtend 8) = a.zeroExtend 8 :=
  calc readByte (a.zeroExtend 8)
    _ = addrByte false a &&& 0x7F := by rw [readByte, addrByte_false]
    _ = BitVec.cons (false && false) (a &&& BitVec.allOnes 7) := BitVec.cons_and_cons a (BitVec.allOnes 7) false false
    _ = addrByte false a := by rw [BitVec.and_allOnes, Bool.false_and, addrByte_eq_cons]
    _ = a.zeroExtend 8 := addrByte_false a

/-! ## The valid range -/

/-- The range assertion compares the 7-bit address itself (R102). -/
theorem regOk_zeroExtend (p : Params) (a : BitVec 7) :
    regOk p (a.zeroExtend 8) = decide (a.toNat ≤ p.regAddrMax.toNat) := by
  rw [regOk, BitVec.zeroExtend_eq_setWidth, BitVec.toNat_setWidth_of_le (by decide)]

/-! ## The two operations -/

/-- A command whose first act is a fatal assertion comes to the state of the statements (R223). -/
theorem halt_started (s : State) (code : Byte) : s.started.halt code = s.fatal code := rfl

section
variable {a : BitVec 7} {s : State} (hs : s.halted = false)
include hs

section
variable (ha : a.toNat ≤ s.cfg.regAddrMax.toNat)
include ha

/-- In the valid range a register write is one transaction and returns nothing (R100). -/
theorem exec_spiWrite_ok (d : Byte) :
    exec (.spiWrite a d) s = .next ((s.started.afterWrite (a.zeroExtend 8) d).returned none) := by
  have hreg : regOk s.started.cfg (a.zeroExtend 8) = true := (regOk_zeroExtend _ a).trans (decide_eq_true ha)
  rw [exec, execSpiWrite, command_running hs, spiWrite_ok hreg, bind_done, finish_done]

/-- In the valid range a register read is one transaction and returns the device's answer (R101). -/
theorem exec_spiRead_ok :
    exec (.spiRead a) s = .next
      ((s.started.afterRead (a.zeroExtend 8)).returned (some (.byte (s.started.deviceAnswer (a.zeroExtend 8))))) := by
  have hreg : regOk s.started.cfg (a.zeroExtend 8) = true := (regOk_zeroExtend _ a).trans (decide_eq_true ha)
  rw [exec, execSpiRead, command_running hs, spiRead_ok hreg, bind_done, finish_done]

end

section
variable (ha : s.cfg.regAddrMax.toNat < a.toNat)
include ha

/-- Beyond the valid range a register write is only the fatal assertion ASSERT_REG_RANGE (R100, R102). -/
theorem exec_spiWrite_beyond (d : Byte) : exec (.spiWrite a d) s = .next (s.fatal 0x01) := by
  have hreg : regOk s.started.cfg (a.zeroExtend 8) = false :=
    (regOk_zeroExtend _ a).trans (decide_eq_false (Nat.not_le.2 ha))
  rw [exec, execSpiWrite, command_running hs, spiWrite_beyond hreg, bind_stop, finish_stop, halt_started]

/-- Beyond the valid range a register read is only the fatal assertion ASSERT_REG_RANGE (R101, R102). -/
theorem exec_spiRead_beyond : exec (.spiRead a) s = .next (s.fatal 0x01) := by
  have hreg : regOk s.started.cfg (a.zeroExtend 8) = false :=
    (regOk_zeroExtend _ a).trans (decide_eq_false (Nat.not_le.2 ha))
  rw [exec, execSpiRead, command_running hs, spiRead_beyond hreg, bind_stop, finish_stop, halt_started]

end

end

/-! ## The statements -/

/-- Settles O9: in range the write is the transaction of `writeSteps`, beyond it nothing but the assertion. -/
theorem writeRegister : Obligations.WriteRegister := by
  intro a d s hs
  refine ⟨?encoding, fun hle => ?transaction, exec_spiWrite_beyond hs (d := d), rfl⟩
  case encoding => rw [encode, addrByte_true]
  case transaction =>
    rw [exec_spiWrite_ok hs hle]
    rfl

/-- Settles O10: in range the read is the transaction of `readSteps`, whose address byte is the address as it stands;
beyond it nothing but the assertion. -/
theorem readRegister : Obligations.ReadRegister := by
  intro a s hs
  refine ⟨?encoding, fun hle => ?transaction, exec_spiRead_beyond hs⟩
  case encoding => rw [encode, addrByte_false]
  case transaction =>
    rw [exec_spiRead_ok hs hle, State.afterRead, readSteps, readByte_zeroExtend]
    rfl

end Sys2Proof.Machine
end

