-- ==== Sys2Proof/Proofs/AdapterOperations.lean ====
section
/-!
The adapter's single operations (R111, R112, R114 to R121, R128, R136, R137; O11 to O16, O20). Each is one command whose
body is one operation of Laws/Ops.lean or Laws/Adapter.lean, so a statement is that operation's law between the start of
the command and the result it returns. What is left is the numbering of SetMode's operand and the bits of the reference
map.
-/

namespace Sys2Proof.Machine

/-! ## Commands that read one register or rewrite it -/

/-- A command of a ready engine starts with the same registers. -/
theorem State.Ready.atStart {s : State} (hs : s.Ready) : s.halted = false ∧ regMapOk s.started.cfg = true := hs

/-- A command that has read one register returns what it made of the answer (R101). -/
theorem returned_afterRead_started (s : State) (a : RegAddr) (r : Option Value) :
    (s.started.afterRead a).returned r = { s with
      control := none, result := r, devIn := s.devIn.tail,
      trace := s.trace ++ [readEvent s.cfg a (s.deviceAnswer a)] } := rfl

/-- A command that has rewritten one register returns nothing (R100, R101). -/
theorem returned_rewritten_started (s : State) (a : RegAddr) (v : Byte) :
    ((s.started.afterRead a).afterWrite a v).returned none = { s with
      control := none, result := none, devIn := s.devIn.tail,
      trace := s.trace ++ [readEvent s.cfg a (s.deviceAnswer a), writeEvent s.cfg a v] } := by
  rw [State.afterWrite, State.afterRead_trace, List.append_assoc]
  rfl

/-- A predicate run on its own whose flow is one register read (R114 to R118). -/
theorem command_readFlag {s : State} (hrun : s.halted = false) {f : State → Flow Bool} {b : Bool} {a : RegAddr}
    (hf : f s.started = .done b (s.started.afterRead a)) :
    command (fun s => (f s).boolResult) s = .next { s with
      control := none, result := some (.bool b), devIn := s.devIn.tail,
      trace := s.trace ++ [readEvent s.cfg a (s.deviceAnswer a)] } := by
  rw [command_running hrun, hf, boolResult_done, finish_done, returned_afterRead_started]

/-! ## SetMode -/

/-- An operand byte of the table of log 14 names the mode whose code stands beside it. -/
theorem ofOperand_of_mem {c : ModeCodes} {m : Byte} {code : BitVec 3}
    (h : (m, code) ∈ ([(0, c.sleep), (1, c.standby), (2, c.fs), (3, c.transmitter), (4, c.receiver)] :
      List (Byte × BitVec 3))) : ∃ mode, Mode.ofOperand m = some mode ∧ modeCode c mode = code := by
  simp only [List.mem_cons, List.not_mem_nil, or_false, Prod.mk.injEq] at h
  obtain ⟨rfl, rfl⟩ | ⟨rfl, rfl⟩ | ⟨rfl, rfl⟩ | ⟨rfl, rfl⟩ | ⟨rfl, rfl⟩ := h
  · exact ⟨.sleep, rfl, rfl⟩
  · exact ⟨.standby, rfl, rfl⟩
  · exact ⟨.fs, rfl, rfl⟩
  · exact ⟨.transmitter, rfl, rfl⟩
  · exact ⟨.receiver, rfl, rfl⟩

/-- Every byte beyond the table names no mode (R111). -/
theorem ofOperand_beyond {m : Byte} (h : 5 ≤ m.toNat) : Mode.ofOperand m = none := by
  unfold Mode.ofOperand
  split
  case h_6 => rfl
  all_goals omega

/-- SetMode of a named mode rewrites the mode field (R111). -/
theorem exec_setMode_named {s : State} (hs : s.Ready) {m : Byte} {mode : Mode} (hm : Mode.ofOperand m = some mode) :
    exec (.setMode m) s = .next { s with
      control := none, result := none, devIn := s.devIn.tail,
      trace := s.trace ++ modeEvents s.cfg (s.deviceAnswer s.cfg.regs.opMode) (modeCode s.cfg.modeCodes mode) } := by
  obtain ⟨hrun, hregs⟩ := hs.atStart
  have hset : setModeOperand m s.started = setMode mode s.started := by simp only [setModeOperand, hm]
  rw [exec, execSetMode, command_running hrun, hset, setMode_ok hregs, noResult_done, finish_done]
  exact congrArg _ (returned_rewritten_started s _ _)

/-- SetMode of a byte that names no mode is only the fatal assertion ASSERT_MODE (R111). -/
theorem exec_setMode_unnamed {s : State} (hrun : s.halted = false) {m : Byte} (hm : Mode.ofOperand m = none) :
    exec (.setMode m) s = .next (s.fatal 0x02) := by
  have hset : setModeOperand m s.started = raiseFatal .mode s.started := by simp only [setModeOperand, hm]
  rw [exec, execSetMode, command_running hrun, hset, raiseFatal_eq, noResult_stop, finish_stop]
  rfl

/-- Settles O11: the operand's mode decides between the rewrite and the assertion; the reference field is bits 4:2. -/
theorem setModeRewritesTheModeField : Obligations.SetModeRewritesTheModeField := by
  intro m s hs
  refine ⟨fun code hcode => ?named, fun hm => exec_setMode_unnamed hs.1 (ofOperand_beyond hm), fun v code => ?field⟩
  case named =>
    obtain ⟨mode, hmode, rfl⟩ := ofOperand_of_mem hcode
    exact exec_setMode_named hs hmode
  case field =>
    have hmask : ~~~((7 : Byte) <<< Config.referenceRegs.modeLow.val) = 0xE3 := by decide
    rw [withModeField, hmask]
    rfl

/-! ## Reads -/

/-- Settles O12: each is one read and the conversion of its answer. -/
theorem modeAndSignalStrengthReads : Obligations.ModeAndSignalStrengthReads := by
  intro s hs
  obtain ⟨hrun, hregs⟩ := hs.atStart
  refine ⟨?mode, ?rssi, fun v => ⟨rfl, rfl⟩⟩
  case mode =>
    rw [exec, execGetMode, command_running hrun, getMode_ok hregs, bind_done, finish_done]
    exact congrArg _ (returned_afterRead_started s _ _)
  case rssi =>
    rw [exec, execGetRssi, command_running hrun, getRssi_ok hregs, bind_done, finish_done]
    exact congrArg _ (returned_afterRead_started s _ _)

/-- Settles O13: each predicate's law is one read, of RegIrqFlags1 or RegIrqFlags2. -/
theorem statusPredicatesReadOneFlag : Obligations.StatusPredicatesReadOneFlag := by
  rintro s _ _ hs rfl rfl
  obtain ⟨hrun, hregs⟩ := hs.atStart
  exact ⟨command_readFlag hrun (isModeReady_ok hregs), command_readFlag hrun (isPayloadReady_ok hregs),
    command_readFlag hrun (isPacketSent_ok hregs), command_readFlag hrun (isFifoNotEmpty_ok hregs),
    command_readFlag hrun (isFifoFull_ok hregs), fun _ => ⟨rfl, rfl, rfl, rfl, rfl⟩⟩

/-! ## FIFO transfers -/

/-- Settles O14, by the law of the write loop, whose induction is over the buffer. -/
theorem Adapter.writeToFifo : Obligations.WriteToFifo := by
  intro buf flags dev stop s hs _ hanswers hdev
  obtain ⟨hrun, hregs⟩ := hs.atStart
  rw [exec, execWriteToFifo, command_running hrun, writeToFifo_answers buf flags dev stop s.started hregs hanswers hdev,
    bind_done, finish_done]
  rfl

/-- Settles O15, by the law of the read loop, whose induction is over the count. -/
theorem Adapter.readFromFifo : Obligations.ReadFromFifo := by
  intro max got stop dev s hs hanswers hdev
  obtain ⟨hrun, hregs⟩ := hs.atStart
  rw [exec, execReadFromFifo, command_running hrun, readFromFifo_answers _ got stop dev s.started hregs hanswers hdev,
    bind_done, finish_done]
  rfl

/-! ## Receiver restart and high power -/

/-- Settles O16: a rewrite of RegPacketConfig2, and plain writes of the list. -/
theorem restartAndHighPower : Obligations.RestartAndHighPower := by
  refine ⟨fun s hs => ?restart, fun on s hs => ?power, fun _ => rfl, rfl, rfl⟩
  case restart =>
    obtain ⟨hrun, hregs⟩ := hs.atStart
    rw [exec, execRestartRx, command_running hrun, restartRx_ok hregs, noResult_done, finish_done]
    exact congrArg _ (returned_rewritten_started s _ _)
  case power =>
    obtain ⟨hrun, hregs⟩ := hs.atStart
    rw [exec, execSetHighPowerSettings, command_running hrun, setHighPowerSettings_ok hregs, noResult_done, finish_done]
    rfl

/-! ## The sync word -/

/-- A word of another length or with a zero byte is not accepted (R128). -/
theorem syncWordOk_eq_false {s : State} {word : List Byte} (h : word.length ≠ s.cfg.syncLen ∨ (0 : Byte) ∈ word) :
    syncWordOk s word = false := by
  rw [Bool.eq_false_iff, ne_eq, syncWordOk_iff]
  rintro ⟨hlength, hbytes⟩
  obtain hne | hzero := h
  · exact hne hlength
  · exact hbytes 0 hzero rfl

/-- Settles O20: the check decides between the laws of an accepted and a rejected word. -/
theorem Adapter.setSyncWord : Obligations.SetSyncWord := by
  rintro word s _ hs rfl
  obtain ⟨hrun, hregs⟩ := hs.atStart
  refine ⟨fun hword => ?accepted, fun hword => ?rejected, fun old n => ?field⟩
  case accepted =>
    have hok : syncWordOk s.started word = true := (syncWordOk_iff s.started word).2 hword
    rw [exec, execSetSyncWord, command_running hrun, setSyncWord_ok hregs hok, boolResult_done, finish_done]
    rfl
  case rejected =>
    have hbad : syncWordOk s.started word = false := syncWordOk_eq_false hword
    rw [exec, execSetSyncWord, command_running hrun, setSyncWord_bad hbad, boolResult_done, finish_done]
    rfl
  case field =>
    have hmask : ~~~(((1 : Byte) <<< Config.referenceRegs.syncOnBit.val)
        ||| ((7 : Byte) <<< Config.referenceRegs.syncSizeLow.val)) = 0x47 := by decide
    rw [withSyncSize, hmask]
    rfl

end Sys2Proof.Machine
end

