-- ==== Sys2Proof/Proofs/Setters.lean ====
section
/-!
The configuration setters (R122 to R127, R129 to R135, R138; O17 to O19). All twelve instructions are one operation,
`configure`, with a `SetterSpec` among the parameters and an argument (`exec_setter`), so the common rule is proved once.
The reference rows are then of two shapes: a list of whole registers (`exec_wholeRegisters`) and one field of a register
(`exec_oneField`).
-/

namespace Sys2Proof.Machine

/-! ## The common rule -/

/-- A setter instruction runs `configure` with one of the twelve setters of the parameters (R122, R123). -/
theorem exec_setter {i : Instr} {s : State} {spec : SetterSpec} {arg : BitVec 32} (hrun : s.halted = false)
    (h : setterOf s.cfg i = some (spec, arg)) :
    spec ∈ setterList s.cfg ∧ exec i s = .next (configure spec arg s.started).noResult.finish := by
  have hgoes : ¬ s.halted = true := by simp [hrun]
  cases i with
  | setCarrierFrequency _ | setBitRate _ | setModulationType _ | setPowerLevel _ | setNodeAddress _
  | setBroadcastAddress _ | setAddressFiltering _ | setPacketFormat _ | setCrc _ | setCrcAutoClear _
  | setFifoThresholdCondition _ | setPreambleLength _ =>
    cases h
    exact ⟨by simp [setterList], congrArg Host.Outcome.next (if_neg hgoes)⟩
  | _ => cases h

/-- An argument outside every interval is not valid (R122). -/
theorem argValid_eq_false {spec : SetterSpec} {n : Nat} (h : ∀ r ∈ spec.valid, n < r.1 ∨ r.2 < n) :
    argValid spec n = false := by
  rw [Bool.eq_false_iff, ne_eq, argValid_iff]
  rintro ⟨r, hr, hlow, hhigh⟩
  have := h r hr
  omega

/-- Settles O17: `configure` performs the writes of an accepted argument and halts at any other. -/
theorem settersFollowTheCommonRule : Obligations.SettersFollowTheCommonRule := by
  rintro i s spec arg _ hs hspec rfl
  obtain ⟨hrun, hregs⟩ := hs.atStart
  obtain ⟨hmem, hexec⟩ := exec_setter hrun hspec
  rw [hexec]
  refine ⟨fun answers dev hvalid hlength hdev => ?accepted, fun hout => ?rejected⟩
  case accepted =>
    rw [configure_ok (s := s.started) (regMapOk_setter hregs hmem arg) ((argValid_iff _ _).2 hvalid) hlength hdev,
      noResult_done, finish_done]
    rfl
  case rejected =>
    rw [configure_beyond (argValid_eq_false hout), noResult_stop, finish_stop, halt_started]

/-- With the reference setters, a setter and its argument are those of the table of R123. -/
theorem setterOf_reference {p : Params} (h : p.setters = Config.referenceSetters) (i : Instr) :
    setterOf p i = setterOf { p with setters := Config.referenceSetters } i := by
  rw [← h]

/-! ## Whole registers -/

/-- The `enc_X` that writes whole registers, each with the byte of the argument that begins at a bit (R122, R123). -/
def wholeRegisters (rows : List (RegAddr × Nat)) : SetterEnc := .fields (rows.map fun r => Config.wholeByte r.1 r.2)

/-- A whole register gets eight bits of the argument (R122). -/
theorem fieldByte_wholeByte (reg : RegAddr) (right : Nat) (arg : BitVec 32) :
    fieldByte (Config.wholeByte reg right) arg = arg.extractLsb' right 8 := by
  ext k hk
  simp [fieldByte, Config.wholeByte]

/-- Widening an argument leaves its bytes. -/
theorem extractLsb'_zeroExtend {n : Nat} (hn : n ≤ 32) (x : BitVec n) (right : Nat) :
    (x.zeroExtend 32).extractLsb' right 8 = x.extractLsb' right 8 := by
  ext k hk
  rw [BitVec.getElem_extractLsb', BitVec.getElem_extractLsb', BitVec.zeroExtend_eq_setWidth, BitVec.getLsbD_setWidth,
    Bool.and_eq_right_iff_imp, decide_eq_true_eq]
  exact fun h => (BitVec.lt_of_getLsbD h).trans_le hn

/-- The writes to whole registers read nothing (R122). -/
theorem setterReads_wholeRegisters (rows : List (RegAddr × Nat)) (arg : BitVec 32) :
    setterReads (encWrites (wholeRegisters rows) arg) = 0 := by
  induction rows with
  | nil => rfl
  | cons r rest ih => simpa [wholeRegisters, encWrites, setterReads, Config.wholeByte] using ih

theorem setterEvents_wholeRegisters (p : Params) (rows : List (RegAddr × Nat)) (arg : BitVec 32) :
    setterEvents p (encWrites (wholeRegisters rows) arg) [] =
      rows.map fun r => writeEvent p r.1 (arg.extractLsb' r.2 8) := by
  induction rows with
  | nil => rfl
  | cons r rest ih =>
    have hrow : encWrites (wholeRegisters (r :: rest)) arg =
        ⟨r.1, 0xFF, arg.extractLsb' r.2 8⟩ :: encWrites (wholeRegisters rest) arg := by
      rw [← fieldByte_wholeByte r.1]
      rfl
    rw [hrow, setterEvents, if_pos rfl, ih, List.map_cons]

/-- A setter that writes whole registers, with an argument that it accepts (R122). -/
theorem exec_wholeRegisters {i : Instr} {s : State} (hs : s.Ready) {n : Nat} (hn : n ≤ 32) {arg : BitVec n}
    {valid : List (Nat × Nat)} {rows : List (RegAddr × Nat)}
    (hspec : setterOf s.cfg i = some (⟨valid, wholeRegisters rows⟩, arg.zeroExtend 32))
    (hvalid : ∃ r ∈ valid, r.1 ≤ arg.toNat ∧ arg.toNat ≤ r.2) :
    exec i s = .next { s with
      control := none, result := none,
      trace := s.trace ++ rows.map fun r => writeEvent s.cfg r.1 (arg.extractLsb' r.2 8) } := by
  obtain ⟨haccepted, -⟩ := settersFollowTheCommonRule i s _ _ _ hs hspec rfl
  rw [haccepted [] s.devIn (by simpa [BitVec.toNat_setWidth_of_le hn] using hvalid)
    (setterReads_wholeRegisters rows _).symm rfl, setterEvents_wholeRegisters]
  simp only [extractLsb'_zeroExtend hn]

/-- Settles O18: each reference row lists whole registers, and all but the bit rate's take every argument. -/
theorem wholeRegisterSetters : Obligations.WholeRegisterSetters := by
  intro s hs href
  have hspec := setterOf_reference href
  refine ⟨fun frf => ?frequency, fun br hbr => ?bitRate, ?zeroRate, fun a => ?node, fun a => ?broadcast,
    fun n => ?preamble⟩
  case frequency =>
    exact exec_wholeRegisters hs (by decide) (rows := [(0x07, 16), (0x08, 8), (0x09, 0)])
      (hspec (.setCarrierFrequency frf)) ⟨_, List.mem_singleton_self _, Nat.zero_le _, Nat.le_of_lt_succ frf.isLt⟩
  case bitRate =>
    have hpos : 1 ≤ br.toNat := Nat.pos_of_ne_zero fun h => hbr (BitVec.eq_of_toNat_eq h)
    exact exec_wholeRegisters hs (by decide) (rows := [(0x03, 8), (0x04, 0)])
      (hspec (.setBitRate br)) ⟨_, List.mem_singleton_self _, hpos, Nat.le_of_lt_succ br.isLt⟩
  case zeroRate =>
    obtain ⟨-, hrejected⟩ :=
      settersFollowTheCommonRule (.setBitRate 0) s Config.referenceSetters.bitRate 0 _ hs (hspec _) rfl
    exact hrejected (by decide)
  case node =>
    simpa using exec_wholeRegisters hs (by decide) (rows := [(0x39, 0)])
      (hspec (.setNodeAddress a)) ⟨_, List.mem_singleton_self _, Nat.zero_le _, Nat.le_of_lt_succ a.isLt⟩
  case broadcast =>
    simpa using exec_wholeRegisters hs (by decide) (rows := [(0x3A, 0)])
      (hspec (.setBroadcastAddress a)) ⟨_, List.mem_singleton_self _, Nat.zero_le _, Nat.le_of_lt_succ a.isLt⟩
  case preamble =>
    exact exec_wholeRegisters hs (by decide) (rows := [(0x2C, 8), (0x2D, 0)])
      (hspec (.setPreambleLength n)) ⟨_, List.mem_singleton_self _, Nat.zero_le _, Nat.le_of_lt_succ n.isLt⟩

/-! ## Fields -/

/-- A byte that fits in `k` bits, shifted to its field, lies under the field's mask. -/
theorem shiftLeft_and_mask {m : Byte} {k : Nat} (h : m.toNat < 2 ^ k) (left : Nat) :
    m <<< left &&& BitVec.ofNat 8 (2 ^ k - 1) <<< left = m <<< left := by
  have hlow : m &&& BitVec.ofNat 8 (2 ^ k - 1) = m :=
    calc m &&& BitVec.ofNat 8 (2 ^ k - 1)
      _ = BitVec.ofNat 8 (m.toNat &&& (2 ^ k - 1)) := by rw [BitVec.ofNat_and, BitVec.ofNat_toNat, BitVec.setWidth_eq]
      _ = m := by rw [Nat.and_two_pow_sub_one_of_lt_two_pow h, BitVec.ofNat_toNat, BitVec.setWidth_eq]
  rw [← BitVec.shiftLeft_and_distrib, hlow]

/-- A field gets the argument byte, shifted to its place (R122). -/
theorem fieldByte_field (reg : RegAddr) (mask : Byte) (left : Nat) (m : Byte) :
    fieldByte (Config.field reg mask left) (m.zeroExtend 32) = m <<< left := by
  ext k hk
  simp [fieldByte, Config.field]

/-- A setter of one field, with an argument that it accepts, given the device's answer (R122). -/
theorem exec_oneField {i : Instr} {s : State} (hs : s.Ready) {v : Byte} {dev : List Byte} (hdev : s.devIn = v :: dev)
    {valid : List (Nat × Nat)} {f : FieldEnc} {arg : BitVec 32} (hmask : f.mask ≠ 0xFF)
    (hspec : setterOf s.cfg i = some (⟨valid, .fields [f]⟩, arg))
    (hvalid : ∃ r ∈ valid, r.1 ≤ arg.toNat ∧ arg.toNat ≤ r.2) :
    exec i s = .next { s with
      control := none, result := none, devIn := dev,
      trace := s.trace ++ [readEvent s.cfg f.reg v,
        writeEvent s.cfg f.reg ((v &&& ~~~f.mask) ||| (fieldByte f arg &&& f.mask))] } := by
  obtain ⟨haccepted, -⟩ := settersFollowTheCommonRule i s _ _ _ hs hspec rfl
  have hreads : setterReads (encWrites (.fields [f]) arg) = 1 := by
    simp only [encWrites, List.map_cons, List.map_nil, setterReads, if_neg hmask]
  rw [haccepted [v] dev hvalid hreads.symm hdev]
  simp only [encWrites, List.map_cons, List.map_nil, setterEvents, if_neg hmask, List.headD_cons]

/-- A reference setter of one field rewrites it up to a greatest argument and halts beyond (R122, R123). -/
theorem exec_byteField {i : Instr} {s : State} (hs : s.Ready) {v : Byte} {dev : List Byte} (hdev : s.devIn = v :: dev)
    {greatest k left : Nat} {reg : RegAddr} {mask m : Byte} (hmask : mask = BitVec.ofNat 8 (2 ^ k - 1) <<< left)
    (hpart : mask ≠ 0xFF) (hfits : greatest < 2 ^ k)
    (hspec : setterOf s.cfg i = some (⟨[(0, greatest)], .fields [Config.field reg mask left]⟩, m.zeroExtend 32)) :
    (m.toNat ≤ greatest → exec i s = .next { s with
      control := none, result := none, devIn := dev,
      trace := s.trace ++ [readEvent s.cfg reg v, writeEvent s.cfg reg ((v &&& ~~~mask) ||| (m <<< left))] }) ∧
    (greatest < m.toNat → exec i s = .next (s.fatal 0x05)) := by
  have harg : (m.zeroExtend 32).toNat = m.toNat := BitVec.toNat_setWidth_of_le (by decide)
  refine ⟨fun hm => ?accepted, fun hm => ?rejected⟩
  case accepted =>
    rw [exec_oneField hs hdev hpart hspec ⟨_, List.mem_singleton_self _, by omega, by omega⟩, fieldByte_field,
      Config.field, hmask, shiftLeft_and_mask (by omega)]
  case rejected =>
    obtain ⟨-, hrejected⟩ := settersFollowTheCommonRule i s _ _ _ hs hspec rfl
    refine hrejected fun r hr => .inr ?_
    obtain rfl := List.mem_singleton.1 hr
    omega

/-- Settles O19: each reference row is one field; those of a byte share one law, and a bool has two cases. -/
theorem fieldSetters : Obligations.FieldSetters := by
  rintro s v dev _ hs href hdev rfl
  have hspec := setterOf_reference href
  have hmodulation (m : Byte) :=
    exec_byteField hs hdev (k := 2) (by decide) (by decide) (by decide) (hspec (.setModulationType m))
  have hpower (m : Byte) :=
    exec_byteField hs hdev (k := 5) (by decide) (by decide) (by decide) (hspec (.setPowerLevel m))
  have hfiltering (m : Byte) :=
    exec_byteField hs hdev (k := 2) (by decide) (by decide) (by decide) (hspec (.setAddressFiltering m))
  have hformat (m : Byte) :=
    exec_byteField hs hdev (k := 1) (by decide) (by decide) (by decide) (hspec (.setPacketFormat m))
  have hthreshold (m : Byte) :=
    exec_byteField hs hdev (k := 1) (by decide) (by decide) (by decide) (hspec (.setFifoThresholdCondition m))
  refine ⟨fun m => (hmodulation m).1, fun m => (hmodulation m).2, fun m hm => ?power, fun m => (hpower m).2,
    fun m => (hfiltering m).1, fun m => (hfiltering m).2, fun m => (hformat m).1, fun m => (hformat m).2,
    fun on => ?crc, fun on => ?autoClear, fun m => (hthreshold m).1, fun m => (hthreshold m).2⟩
  case power => simpa using (hpower m).1 hm
  case crc =>
    cases on with
    | true => exact exec_oneField hs hdev (by decide) (hspec (.setCrc true)) (by decide)
    | false => exact exec_oneField hs hdev (by decide) (hspec (.setCrc false)) (by decide)
  case autoClear =>
    cases on with
    | true => exact exec_oneField hs hdev (by decide) (hspec (.setCrcAutoClear true)) (by decide)
    | false => exact exec_oneField hs hdev (by decide) (hspec (.setCrcAutoClear false)) (by decide)

end Sys2Proof.Machine
end

