-- ==== Sys2Proof/Proofs/Wait.lean ====
section
/-!
The wait for mode-ready (R113, R191, R196, R197, R233; O21 to O23). A wait is one poll after another (`pollWait`), and a
step of a wait in progress is one poll (`step_wait`). A poll goes on or ends, in the words of the statements
(`pollWait_goesOn`, `pollWait_ends`), and what follows an end is `afterWait` of its place. A whole wait is then an
induction over its polls (`run_polls`). The place before HandlePayload needs beside this that HandlePayload, where it is
done, runs on inside the same command, and where it stops, has halted the engine or keeps the command at a place
(`sameCommand_calls`, by the packaged induction of Laws/Reach.lean).
-/

namespace Sys2Proof.Machine

/-! ## One poll, in the words of the statements -/

section
variable {w : WaitFrame} {k : Bool → Cmd} {s t : State} (hregs : regMapOk s.cfg = true)
include hregs

/-- A poll that goes on keeps the wait at its place (R113). -/
theorem pollWait_goesOn (h : pollGoesOn w.start w.timeout s t) :
    pollWait w k s = .stop { t with control := some (.wait w) } := by
  obtain ⟨v, dev, time, clk, hdev, hclk, hv, htime, rfl⟩ := h
  exact pollWait_again hregs hdev hclk hv htime

/-- A poll that ends the wait goes on with what follows it (R113). -/
theorem pollWait_ends {ready : Bool} (h : pollEnds w.start w.timeout s ready t) : pollWait w k s = k ready t := by
  obtain ⟨v, dev, hdev, ⟨rfl, hv, rfl⟩ | ⟨time, clk, hclk, rfl, hv, htime, rfl⟩⟩ := h
  · exact pollWait_ready hregs hdev hv
  · exact pollWait_late hregs hdev hclk hv htime

end

/-- What a poll that ends a wait leaves as it is. -/
theorem pollEnds_frame {start timeout : Millis} {s t : State} {ready : Bool} (h : pollEnds start timeout s ready t) :
    t.halted = s.halted ∧ t.cfg = s.cfg ∧ t.control = s.control ∧ t.result = s.result ∧ t.top = s.top := by
  obtain ⟨v, dev, -, ⟨-, -, rfl⟩ | ⟨time, clk, -, -, -, -, rfl⟩⟩ := h
  · exact ⟨rfl, rfl, rfl, rfl, rfl⟩
  · exact ⟨rfl, rfl, rfl, rfl, rfl⟩

/-! ## A wait in progress -/

/-- A step of a wait in progress is one poll and, where that ends the wait, what its place says (R9, R34). -/
theorem step_wait {s : State} {w : WaitFrame} (hrun : s.halted = false) (hvalid : s.validInstance = true)
    (hcontrol : s.control = some (.wait w)) :
    step s = .next (pollWait w (afterWait w.after) s.resumed).finish := by
  simp only [step, hrun, Bool.false_eq_true, if_false, hvalid, if_true, hcontrol, goOn]

/-- The state in which a wait run on its own polls first, its start time read (R113). -/
def State.waitStarted (s : State) (t0 : Millis) (clk : List Millis) : State :=
  { s with control := none, result := none, clkIn := clk, trace := s.trace ++ [.clock t0] }

/-- WaitForModeReady run on its own reads its start time and polls (R113). -/
theorem exec_waitForModeReady {s : State} {timeout t0 : Millis} {clk : List Millis} (hrun : s.halted = false)
    (hclk : s.clkIn = t0 :: clk) :
    exec (.waitForModeReady timeout) s =
      .next (pollWait ⟨t0, timeout, .operation⟩ (afterWait .operation) (s.waitStarted t0 clk)).finish := by
  rw [exec, execWaitForModeReady, command_running hrun, waitForModeReady_eq (s := s.started) hclk]
  rfl

/-- Settles O21: the first poll finds the flag set, or is late, or goes on. -/
theorem waitForModeReadyFirstPoll : Obligations.WaitForModeReadyFirstPoll := by
  intro timeout t0 v dev clk s ⟨hrun, hregs⟩ hdev hclk
  have hstarted : regMapOk (s.waitStarted t0 clk).cfg = true := hregs
  rw [exec_waitForModeReady hrun hclk]
  refine ⟨fun hv => ?ready, fun t clk' hv hclk' => ⟨fun ht => ?late, fun ht => ?again⟩⟩
  case ready =>
    rw [pollWait_ready hstarted hdev hv]
    simp [afterWait, State.returned, State.waitStarted]
  case late =>
    rw [pollWait_late hstarted hdev hclk' hv ht]
    simp [afterWait, State.returned, State.waitStarted]
  case again =>
    rw [pollWait_again hstarted hdev hclk' hv ht]
    simp [State.waitStarted]

/-! ## A whole wait -/

/-- The state after polls that find the flag clear, with the answers that are left (R113). -/
def State.polled (s : State) (polls : List (Byte × Millis)) (dev : List Byte) (clk : List Millis) : State :=
  { s with
    devIn := dev, clkIn := clk,
    trace := s.trace ++ polls.flatMap fun x => [readEvent s.cfg s.cfg.regs.irqFlags1 x.1, .clock x.2] }

theorem polled_nil (s : State) : s.polled [] s.devIn s.clkIn = s := by
  simp [State.polled]

theorem polled_polled (s : State) (x : Byte × Millis) (rest : List (Byte × Millis)) (dev dev' : List Byte)
    (clk clk' : List Millis) : (s.polled [x] dev clk).polled rest dev' clk' = s.polled (x :: rest) dev' clk' := by
  simp [State.polled]

/-- A command that goes on from its place is where it was before it stopped there. -/
theorem resumed_suspend {s : State} (h : s.control = none) (p : Pending) : (s.suspend p).resumed = s := by
  rw [State.suspend, State.resumed, ← h]

/-- A poll that finds the flag clear before the deadline stops the step at the wait's place (R113). -/
theorem pollWait_polled {w : WaitFrame} {k : Bool → Cmd} {x : Byte × Millis} {dev : List Byte} {clk : List Millis}
    {s : State} (hregs : regMapOk s.cfg = true) (hdev : s.devIn = x.1 :: dev) (hclk : s.clkIn = x.2 :: clk)
    (hv : modeReadyFlag s.cfg.regs x.1 = false) (ht : (x.2 - w.start).toNat < w.timeout.toNat) :
    pollWait w k s = .stop ((s.polled [x] dev clk).suspend (.wait w)) :=
  pollWait_again hregs hdev hclk hv ht

/-- The step after one that stopped at a wait polls from the state it stopped in. -/
theorem step_suspended {s : State} {w : WaitFrame} (hrun : s.halted = false) (hvalid : s.validInstance = true)
    (hcontrol : s.control = none) :
    step (s.suspend (.wait w)) = .next (pollWait w (afterWait w.after) s).finish := by
  rw [step_wait (s := s.suspend (.wait w)) hrun hvalid rfl, resumed_suspend hcontrol]

/-- A run of one step more begins with that step. -/
theorem run_succ {s t : State} (h : step s = .next t) (n : Nat) :
    Host.Core.run Sys2Proof.core (n + 1) s = Host.Core.run Sys2Proof.core n t := by
  have hstep : Sys2Proof.core.step s = .next t := h
  simp only [Host.Core.run, hstep]

/-- The polls of a wait that find the flag clear before the deadline take one step each, and the poll after them starts
from the state they leave. -/
theorem run_polls {w : WaitFrame} {polls : List (Byte × Millis)} {dev : List Byte} {clk : List Millis} {s : State}
    (hs : s.Ready) (hvalid : s.validInstance = true) (hcontrol : s.control = none)
    (hpolls : ∀ x ∈ polls, modeReadyFlag s.cfg.regs x.1 = false ∧ (x.2 - w.start).toNat < w.timeout.toNat)
    (hdev : s.devIn = polls.map Prod.fst ++ dev) (hclk : s.clkIn = polls.map Prod.snd ++ clk) :
    Host.Core.run Sys2Proof.core polls.length (pollWait w (afterWait w.after) s).finish =
      .next (pollWait w (afterWait w.after) (s.polled polls dev clk)).finish := by
  induction polls generalizing s with
  | nil =>
    obtain rfl : s.devIn = dev := hdev
    obtain rfl : s.clkIn = clk := hclk
    rw [polled_nil]
    rfl
  | cons x rest ih =>
    obtain ⟨hv, ht⟩ := hpolls x List.mem_cons_self
    have hrest : ∀ y ∈ rest, modeReadyFlag s.cfg.regs y.1 = false ∧ (y.2 - w.start).toNat < w.timeout.toNat :=
      fun y hy => hpolls y (List.mem_cons_of_mem _ hy)
    rw [List.map_cons, List.cons_append] at hdev hclk
    have hnext := step_suspended (s := s.polled [x] (rest.map Prod.fst ++ dev) (rest.map Prod.snd ++ clk)) (w := w)
      hs.1 hvalid hcontrol
    have hlater := ih (s := s.polled [x] (rest.map Prod.fst ++ dev) (rest.map Prod.snd ++ clk)) hs hvalid hcontrol hrest
      rfl rfl
    rw [polled_polled] at hlater
    rw [pollWait_polled hs.2 hdev hclk hv ht, finish_stop, List.length_cons, ← hlater]
    exact run_succ hnext rest.length

/-- Settles O22: the polls by `run_polls`, then the poll that ends the wait, in either way. -/
theorem waitForModeReadyRunsToItsEnd : Obligations.WaitForModeReadyRunsToItsEnd := by
  rintro timeout t0 polls v dev clk s _ ⟨hrun, hregs⟩ hvalid hpolls rfl hdev hclk
  have hpolled : regMapOk ((s.waitStarted t0 (polls.map Prod.snd ++ clk)).polled polls (v :: dev) clk).cfg = true :=
    hregs
  have hfirst := exec_waitForModeReady (timeout := timeout) hrun hclk
  have hpast := run_polls (w := ⟨t0, timeout, .operation⟩) (s := s.waitStarted t0 (polls.map Prod.snd ++ clk))
    ⟨hrun, hregs⟩ hvalid rfl hpolls hdev rfl
  refine ⟨fun hv => ⟨_, hfirst, hpast.trans ?ready⟩, fun t clk' hv hclk' ht => ⟨_, hfirst, hpast.trans ?late⟩⟩
  case ready =>
    rw [pollWait_ready hpolled rfl hv]
    simp [afterWait, State.returned, State.polled, State.waitStarted]
  case late =>
    rw [pollWait_late hpolled rfl hclk' hv ht]
    simp [afterWait, State.returned, State.polled, State.waitStarted]

/-! ## What follows a wait that has ended -/

/-- A tick action after its wait goes on if the wait succeeded or WAIT_FAIL is Proceed (R191). -/
theorem afterTickWait_goesOn {ready : Bool} {rest : Cmd} {s : State} (h : ready = true ∨ s.cfg.waitFail = .proceed) :
    afterTickWait ready rest s = rest s := by
  obtain rfl | hproceed := h
  · rfl
  · simp only [afterTickWait, hproceed, ite_self]

/-- A tick action after a failed wait ends where it is under Stall (R191). -/
theorem afterTickWait_stall {rest : Cmd} {s : State} (h : s.cfg.waitFail = .stall) :
    afterTickWait false rest s = .done none s := by
  simp only [afterTickWait, h, Bool.false_eq_true, if_false]

/-- A tick action after a failed wait ends in Idle under AbortToIdle (R191). -/
theorem afterTickWait_abort {rest : Cmd} {s : State} (h : s.cfg.waitFail = .abortToIdle) :
    afterTickWait false rest s = .done none (s.withTop .idle) := by
  simp only [afterTickWait, h, Bool.false_eq_true, if_false]

/-- What WAIT_FAIL makes of a wait's end, case by case (R191). -/
theorem waitEnd_cases (ready : Bool) (p : Params) :
    (ready = true ∨ p.waitFail = .proceed) ∨ (ready = false ∧ p.waitFail = .stall) ∨
      (ready = false ∧ p.waitFail = .abortToIdle) := by
  cases ready with
  | true => exact .inl (.inl rfl)
  | false =>
    cases p.waitFail with
    | proceed => exact .inl (.inr rfl)
    | stall => exact .inr (.inl ⟨rfl, rfl⟩)
    | abortToIdle => exact .inr (.inr ⟨rfl, rfl⟩)

/-- A command that returns nothing leaves the state as it is where no result stood. -/
theorem returned_none {s : State} (h : s.result = none) : s.returned none = s := by
  rw [State.returned, ← h]

/-- The end of EventWakeup: from Sleeping to HOME, from any other state nowhere (R182, R187). -/
theorem afterWait_wakeup {ready : Bool} {s : State} (hresult : s.result = none) :
    (afterWait .wakeup ready s).finish = { s with top := if s.top = .sleeping then homeTop s.cfg else s.top } := by
  rw [afterWait, finish_done]
  split
  · exact returned_none hresult
  · exact returned_none hresult

/-- The end of tick Listening(Init): Listening(Waiting), or what WAIT_FAIL says (R191, R196). -/
theorem afterWait_listenInit {ready : Bool} {s : State} (hresult : s.result = none) :
    (afterWait .listenInit ready s).finish = { s with
      top := if ready = true ∨ s.cfg.waitFail = .proceed then .listening .waiting
        else if s.cfg.waitFail = .abortToIdle then .idle else s.top } := by
  rw [afterWait]
  obtain hgo | ⟨rfl, hstall⟩ | ⟨rfl, habort⟩ := waitEnd_cases ready s.cfg
  · rw [afterTickWait_goesOn hgo, finish_done, returned_none (by exact hresult), if_pos hgo]
    rfl
  · rw [afterTickWait_stall hstall, finish_done, returned_none hresult]
    simp [hstall]
  · rw [afterTickWait_abort habort, finish_done, returned_none (by exact hresult)]
    simp [habort, State.withTop]

/-- The end of tick Listening(Waiting): nothing more, or Idle where WAIT_FAIL says so (R191, R197). -/
theorem afterListenRearm_finish {ready : Bool} {s : State} (hresult : s.result = none) :
    (afterListenRearm ready s).finish = { s with
      top := if ready = false ∧ s.cfg.waitFail = .abortToIdle then .idle else s.top } := by
  rw [afterListenRearm]
  obtain hgo | ⟨rfl, hstall⟩ | ⟨rfl, habort⟩ := waitEnd_cases ready s.cfg
  · have hstay : ¬ (ready = false ∧ s.cfg.waitFail = .abortToIdle) := by
      rintro ⟨rfl, habort⟩
      simp [habort] at hgo
    rw [afterTickWait_goesOn hgo, finish_done, returned_none hresult, if_neg hstay]
  · rw [afterTickWait_stall hstall, finish_done, returned_none hresult]
    simp [hstall]
  · rw [afterTickWait_abort habort, finish_done, returned_none (by exact hresult)]
    simp [habort, State.withTop]

/-! ## HandlePayload within a tick -/

/-- The engine runs on inside the same command, with the same parameters. -/
structure SameCommand (s t : State) : Prop where
  halted : t.halted = s.halted
  control : t.control = s.control
  result : t.result = s.result
  cfg : t.cfg = s.cfg

theorem SameCommand.trans {s t u : State} (h : SameCommand s t) (k : SameCommand t u) : SameCommand s u :=
  ⟨k.halted.trans h.halted, k.control.trans h.control, k.result.trans h.result, k.cfg.trans h.cfg⟩

/-- The engine has halted, or the command is kept at a place (R34, R223). -/
def Interrupted (_ t : State) : Prop := t.halted = true ∨ t.control ≠ none

/-- An operation with upcalls is done inside the same command, or stops with the engine halted or the command kept. -/
theorem sameCommand_calls : Calls SameCommand Interrupted where
  refl _ := ⟨rfl, rfl, rfl, rfl⟩
  trans := SameCommand.trans
  absorb _ h := h
  logDiag _ _ := ⟨rfl, rfl, rfl, rfl⟩
  halt _ _ := .inl rfl
  suspend _ p _ := .inr (Option.some_ne_none p)
  afterRead _ _ := ⟨rfl, rfl, rfl, rfl⟩
  afterWrite _ _ _ := ⟨rfl, rfl, rfl, rfl⟩
  afterClock _ := ⟨rfl, rfl, rfl, rfl⟩
  afterNode _ := ⟨rfl, rfl, rfl, rfl⟩
  afterNetwork _ := ⟨rfl, rfl, rfl, rfl⟩
  afterBroadcast _ := ⟨rfl, rfl, rfl, rfl⟩
  emit _ _ := ⟨rfl, rfl, rfl, rfl⟩
  afterHost _ := ⟨rfl, rfl, rfl, rfl⟩
  drawn _ := ⟨rfl, rfl, rfl, rfl⟩
  withSlot _ _ _ := ⟨rfl, rfl, rfl, rfl⟩
  withHandler _ _ _ _ := ⟨rfl, rfl, rfl, rfl⟩

/-- HandlePayload run on its own, in a state that a command could start in. -/
theorem exec_handlePayload {s : State} (hrun : s.halted = false) (hcontrol : s.control = none)
    (hresult : s.result = none) : exec .handlePayload s = .next (handlePayload s).boolResult.finish := by
  have hstarted : s.started = s := by rw [State.started, ← hcontrol, ← hresult]
  rw [exec, execHandlePayload, command_running hrun, hstarted]

/-- A mode change and the wait after it read the start time and poll (R111, R113). -/
theorem setMode_wait {s : State} {m : Mode} {place : AfterWait} {k : Bool → Cmd} {v : Byte} {dev : List Byte}
    {t0 : Millis} {clk : List Millis} (hregs : regMapOk s.cfg = true) (hcontrol : s.control = none)
    (hresult : s.result = none) (hdev : s.devIn = v :: dev) (hclk : s.clkIn = t0 :: clk) :
    ((setMode m s).bind fun _ s => waitForModeReady s.cfg.timeoutMs place k s) =
      pollWait ⟨t0, s.cfg.timeoutMs, place⟩ k (s.modeWait (modeCode s.cfg.modeCodes m) v dev t0 clk) := by
  rw [setMode_answer hregs hdev, bind_done, waitForModeReady_eq (t0 := t0) (clk := clk) (by exact hclk), State.modeWait,
    ← hcontrol, ← hresult]

/-- Receiver and the second wait of tick Listening(Waiting): its first poll goes on, or ends the tick (R197). -/
theorem rearm_outcome {t : State} (hregs : regMapOk t.cfg = true) (hcontrol : t.control = none)
    (hresult : t.result = none) {w : Byte} {dev : List Byte} {t1 : Millis} {clk : List Millis}
    (hdev : t.devIn = w :: dev) (hclk : t.clkIn = t1 :: clk) {f : Flow (Option Value)}
    (hf : f = (setMode .receiver t).bind fun _ s =>
      waitForModeReady s.cfg.timeoutMs .listenRearm afterListenRearm s) :
    (∀ x : State, pollGoesOn t1 t.cfg.timeoutMs (t.modeWait t.cfg.modeCodes.receiver w dev t1 clk) x →
      f.finish = { x with control := some (.wait ⟨t1, t.cfg.timeoutMs, .listenRearm⟩) }) ∧
    (∀ (ready : Bool) (x : State),
      pollEnds t1 t.cfg.timeoutMs (t.modeWait t.cfg.modeCodes.receiver w dev t1 clk) ready x →
      f.finish = { x with top := if ready = false ∧ x.cfg.waitFail = .abortToIdle then .idle else x.top }) := by
  have hwait : regMapOk (t.modeWait (modeCode t.cfg.modeCodes .receiver) w dev t1 clk).cfg = true := hregs
  rw [hf, setMode_wait hregs hcontrol hresult hdev hclk]
  refine ⟨fun x hx => ?again, fun ready x hx => ?ends⟩
  case again =>
    rw [pollWait_goesOn (w := ⟨t1, t.cfg.timeoutMs, .listenRearm⟩) hwait hx, finish_stop]
  case ends =>
    obtain ⟨-, -, -, hx_result, -⟩ := pollEnds_frame hx
    rw [pollWait_ends (w := ⟨t1, t.cfg.timeoutMs, .listenRearm⟩) hwait hx, afterListenRearm_finish hx_result]

/-- What follows the first wait of tick Listening(Waiting) (R191, R197, R212). -/
theorem afterWait_listenPayload {ready : Bool} {u : State} (hu : u.Ready) (hcontrol : u.control = none)
    (hresult : u.result = none) : payloadWaitEnds ready u (.next (afterWait .listenPayload ready u).finish) := by
  obtain ⟨hrun, hregs⟩ := hu
  refine ⟨?stall, ?abort, fun hgo t ht => ?handle⟩
  case stall =>
    rintro rfl hstall
    rw [afterWait, afterListenPayload, afterTickWait_stall hstall, finish_done, returned_none hresult]
  case abort =>
    rintro rfl habort
    rw [afterWait, afterListenPayload, afterTickWait_abort habort, finish_done, returned_none (by exact hresult)]
    rfl
  case handle =>
    rw [exec_handlePayload hrun hcontrol hresult] at ht
    rw [afterWait, afterListenPayload, afterTickWait_goesOn hgo]
    have hkeeps := keeps_handlePayload sameCommand_calls u
    cases hflow : handlePayload u with
    | stop x =>
      rw [hflow] at ht hkeeps
      cases ht
      refine ⟨fun _ => rfl, fun hx_run hx_control => ?_⟩
      obtain hx_halted | hx_kept := hkeeps
      · exact absurd (hx_halted.symm.trans hx_run) Bool.noConfusion
      · exact absurd hx_control hx_kept
    | done b x =>
      rw [hflow] at ht hkeeps
      cases ht
      obtain ⟨hx_halted, hx_control, hx_result, hx_cfg⟩ := hkeeps
      refine ⟨fun hstops => ?_, fun _ _ w dev t1 clk hdev hclk => ?_⟩
      · obtain hhalted | hkept := hstops
        · exact absurd (hhalted.symm.trans (hx_halted.trans hrun)) Bool.noConfusion
        · exact absurd (hx_control.trans hcontrol) hkept
      · obtain ⟨hagain, hends⟩ :=
          rearm_outcome (hx_cfg ▸ hregs) (hx_control.trans hcontrol) (hx_result.trans hresult) hdev hclk rfl
        exact ⟨fun y hy => congrArg _ (hagain y hy), fun ready2 y hy => congrArg _ (hends ready2 y hy)⟩

/-- Settles O23: a poll goes on, or ends the wait; what follows the end is `afterWait` of each place. -/
theorem waitGoesOnAtItsPlace : Obligations.WaitGoesOnAtItsPlace := by
  intro w s ⟨hrun, hregs⟩ hvalid hcontrol hresult
  have hstep := step_wait hrun hvalid hcontrol
  refine ⟨fun t ht => ?goesOn, fun ready base hends => ?ends⟩
  case goesOn =>
    obtain ⟨v, dev, time, clk, hdev, hclk, hv, htime, rfl⟩ := ht
    rw [hstep, pollWait_again (s := s.resumed) hregs hdev hclk hv htime, ← hcontrol]
    rfl
  case ends =>
    obtain ⟨hbase_halted, hbase_cfg, hbase_control, hbase_result, hbase_top⟩ := pollEnds_frame hends
    have hnone : base.result = none := hbase_result.trans hresult
    have hready : base.Ready := ⟨hbase_halted.trans hrun, hbase_cfg ▸ hregs⟩
    rw [pollWait_ends (s := s.resumed) hregs hends] at hstep
    rw [hstep]
    refine ⟨fun h => ?operation, fun h => ?init, fun h => ?sleep, fun h => ?wakeup, fun h => ?listenInit,
      fun h => ?listenPayload, fun h => ?listenRearm⟩
    case operation =>
      rw [h]
      rfl
    case init => rw [h, afterWait, finish_done, returned_none hnone]
    case sleep =>
      rw [h, afterWait, finish_done, returned_none (by exact hnone)]
      rfl
    case wakeup => rw [h, afterWait_wakeup hnone, hbase_cfg, hbase_top]
    case listenInit => rw [h, afterWait_listenInit hnone, hbase_cfg, hbase_top]
    case listenPayload =>
      rw [h]
      exact afterWait_listenPayload hready hbase_control hnone
    case listenRearm => rw [h, afterWait, afterListenRearm_finish hnone, hbase_cfg, hbase_top]

end Sys2Proof.Machine
end

