-- ==== Sys2Proof/Proofs/Framing.lean ====
section
/-!
The framing operations (R150 to R156, R209, R211; O24 to O27). ValidateContentSize, ComputeTotalSize and EncodeFrame are
values of their operands. DecodeFrame of bytes that pass the length checks gives the fields of R75 (`decodeFrameBytes_ok`),
and the bytes of a staged frame pass them and carry its header and content (`staged_received`), so decoding them gives the
frame back (`decodeFrameBytes_staged`), on its own and in HandlePayload. There the device's answers bring all of these
bytes, and one byte is still missing when the FIFO is found empty, since the length byte counts itself
(`staged_readAnswers`).
-/

namespace Sys2Proof.Machine

/-! ## DecodeFrame on its own -/

/-- The rssi that DecodeFrame run on its own puts in place of the received one (R155; log 17). -/
def aloneStamp (s : State) : Option Byte :=
  if s.cfg.rssiStamp then some (Config.localRssi s.draws) else none

/-- Without RSSI_STAMP the received rssi stays (R155). -/
theorem aloneStamp_none {s : State} (hstamp : s.cfg.rssiStamp = false) : aloneStamp s = none := by
  simp [aloneStamp, hstamp]

/-- DecodeFrame run on its own decodes the bytes under that rssi, and counts one draw (R154, R155). -/
theorem decodeFrameAlone_eq (b : List Byte) (s : State) :
    decodeFrameAlone b s = .done (decodeFrameBytes (aloneStamp s) (Config.missingByte s.draws) b) s.drawn := rfl

/-- DecodeFrame as a command returns what the bytes decode to, and changes nothing else but the count of draws (R155). -/
theorem exec_decodeFrame {s : State} (hrun : s.halted = false) {b : List Byte} {h : Header} {c : Content}
    (hdecode : decodeFrameBytes (aloneStamp s) (Config.missingByte s.draws) b = (h, c)) :
    exec (.decodeFrame b) s = .next { s with
      control := none, result := some (.frame h c), draws := s.draws + 1 } := by
  have hstarted : decodeFrameBytes (aloneStamp s.started) (Config.missingByte s.started.draws) b = (h, c) := hdecode
  rw [exec, execDecodeFrame, command_running hrun, decodeFrameAlone_eq, hstarted, bind_done, finish_done]
  rfl

/-- Settles O25: the two fields of the decoded pair; where the length checks pass they are those of R75. -/
theorem decodeFrameReadsTheFields : Obligations.DecodeFrameReadsTheFields := by
  intro b s hrun
  rcases hdecode : decodeFrameBytes (aloneStamp s) (Config.missingByte s.draws) b with ⟨h, c⟩
  refine ⟨h, c, exec_decodeFrame hrun hdecode, fun hlengths => ?fields⟩
  rw [decodeFrameBytes_ok hlengths s.cfg] at hdecode
  obtain ⟨rfl, rfl⟩ := Prod.mk.inj hdecode
  refine ⟨rfl, _, rfl, fun hstamp => ?rssi⟩
  rw [aloneStamp_none hstamp, Option.getD_none]

/-! ## A staged frame and its bytes -/

section
variable {p : Packet} (hslot : slotOk p = true) (hstaged : p ≠ zeroFrame)
include hslot hstaged

/-- The bytes of a staged frame decode to its header and content, whatever a missing byte would be (R156). -/
theorem decodeFrameBytes_staged (missing : Nat → Byte) :
    decodeFrameBytes none missing (headerBytes p.header ++ contentBytes p.content) = (p.header, p.content) := by
  obtain ⟨hlengths, hheader, hcontent⟩ := staged_received hslot hstaged Config.reference
  rw [decodeFrameBytes_ok hlengths Config.reference none]
  exact Prod.ext hheader hcontent

/-- The sizes of a staged frame: its data fits, and its total size counts every byte of it (R150, R151, R171). -/
theorem staged_sizes : p.content.size.toNat ≤ 20 ∧ p.header.totalSize.toNat = 13 + p.content.size.toNat ∧
    (headerBytes p.header ++ contentBytes p.content).length = 13 + p.content.size.toNat := by
  simp only [slotOk, hstaged, decide_false, Bool.false_or, Bool.and_eq_true, decide_eq_true_eq, Config.tsLen,
    Config.contentDataMax, Config.hdrLen, Config.metaLen] at hslot
  obtain ⟨⟨⟨⟨⟨⟨htimestamp, hdata⟩, hsize⟩, htotal⟩, -⟩, -⟩, -⟩ := hslot
  refine ⟨hsize, htotal, ?length⟩
  simp only [headerBytes, contentBytes, Config.tsLen, List.length_append, List.length_take, List.length_cons,
    List.length_nil, htimestamp, hdata]
  omega

/-- The bytes of a staged frame after its total size, each under a set not-empty flag, and then an empty FIFO, are
answers to the read that the total size asks for: one byte fewer (R120, R209). -/
theorem staged_readAnswers {r : RegMap} {flags : List Byte} {stop : Byte}
    (hlength : flags.length = 12 + p.content.size.toNat) (hflags : ∀ f ∈ flags, fifoNotEmptyFlag r f = true)
    (hstop : fifoNotEmptyFlag r stop = false) :
    fifoReadAnswers r p.header.totalSize.toNat
      (flags.zip ((headerBytes p.header ++ contentBytes p.content).drop 1)) (some stop) := by
  obtain ⟨-, htotal, hbytes⟩ := staged_sizes hslot hstaged
  refine ⟨fun x hx => hflags x.1 (List.of_mem_zip hx).1, .inr ⟨stop, rfl, hstop, ?fewer⟩⟩
  rw [List.length_zip, List.length_drop, hbytes, htotal]
  omega

/-- What HandlePayload has read after such answers: the total size and the bytes after it are all of the frame (R208). -/
theorem staged_bytesRead {flags : List Byte} (hlength : flags.length = 12 + p.content.size.toNat) :
    p.header.totalSize :: (flags.zip ((headerBytes p.header ++ contentBytes p.content).drop 1)).map Prod.snd =
      headerBytes p.header ++ contentBytes p.content := by
  obtain ⟨-, -, hbytes⟩ := staged_sizes hslot hstaged
  rw [List.map_snd_zip (by rw [List.length_drop, hbytes, hlength]; omega)]
  rfl

end

/-- Settles O26: DecodeFrame on its own, of the bytes of a staged frame. -/
theorem frameRoundTrip : Obligations.FrameRoundTrip := by
  intro p s hrun hstamp hslot hstaged
  refine exec_decodeFrame hrun ?decode
  rw [aloneStamp_none hstamp]
  exact decodeFrameBytes_staged hslot hstaged _

/-- Settles O27: the answers bring the whole frame, which passes the checks, decodes to itself and goes to its handler. -/
theorem sentFrameIsDelivered : Obligations.SentFrameIsDelivered := by
  rintro p first stop flags dev hid r host _ s hs hstamp hfifo hslot hstaged - hhandler rfl hlength hflags hfirst hstop
    hdev hhost
  obtain ⟨hrun, hregs⟩ := hs.atStart
  obtain ⟨hsize, htotal, -⟩ := staged_sizes hslot hstaged
  have hwellFormed : frameWellFormed (headerBytes p.header ++ contentBytes p.content) = true :=
    (frameWellFormed_iff _).2 (staged_received hslot hstaged s.cfg).1
  have hframe := handlePayload_frame (s := s.started) (sample := none) (dev := dev) hregs hstamp hfirst
    (show p.header.totalSize.toNat + 1 ≤ s.cfg.fifoSize by omega) (staged_readAnswers hslot hstaged hlength hflags hstop)
    (by simpa using hdev)
  rw [staged_bytesRead hslot hstaged hlength, hwellFormed, Bool.not_true, Bool.and_false, if_neg Bool.false_ne_true,
    Option.map_none, decodeFrameBytes_staged hslot hstaged,
    dispatchFrame_handler (by exact hhandler) (by exact hhost)] at hframe
  rw [exec, execHandlePayload, command_running hrun, hframe, boolResult_done, finish_done]
  simp [State.afterFrame, State.drawn, State.started, State.returned, fifoReadLog]

/-! ## The operations without a state -/

/-- The total size of a content for which it is a byte (R151; log 16). -/
theorem totalSizeOf_toNat_of_byte {c : Content} (h : c.size.toNat ≤ 242) :
    (totalSizeOf c).toNat = 13 + c.size.toNat := by
  have hbyte : Config.hdrLen + Config.metaLen + c.size.toNat = 13 + c.size.toNat := rfl
  rw [totalSizeOf, hbyte, if_pos (by omega), BitVec.toNat_ofNat]
  omega

/-- Settles O24: each is one value of its operands, returned by a command that does nothing else. -/
theorem framingOperations : Obligations.FramingOperations := by
  intro h c s hrun
  refine ⟨?validate, ⟨totalSizeOf c, ?total, totalSizeOf_toNat_of_byte⟩, ?encode⟩
  case validate =>
    rw [exec, execValidateContentSize, command_running hrun]
    rfl
  case total =>
    rw [exec, execComputeTotalSize, command_running hrun]
    rfl
  case encode =>
    rw [exec, execEncodeFrame, command_running hrun]
    rfl

end Sys2Proof.Machine
end

