-- ==== Sys2Proof/Proofs/Sending.lean ====
section
/-!
Sending, the handler table and upcalls (R29, R63, R150, R168, R170 to R172, R175, R176, R179, R186; O28 to O32). Each
outcome of IsReadyToSend is one law (`isReadyToSend_refused`, `isReadyToSend_sampled`), each outcome of SendPacket one
law on top of it, and SEND, on its own or nested in an upcall, adds the result byte to what SendPacket came to.
-/

namespace Sys2Proof.Machine

/-! ## The engine's predicates -/

/-- The states in which IsActive answers true (R179). -/
theorem active_iff (s : State) : s.active = true ↔ (∃ ss, s.top = .sending ss) ∨ s.top = .listening .receiving := by
  unfold State.active
  split
  next ss htop => simp [htop]
  next htop => simp [htop]
  next ls hls htop => simpa [htop] using hls
  all_goals next htop => simp [htop]

/-- A packet is staged when the slot has a target (R29). -/
theorem packetStaged_iff (s : State) : s.packetStaged = true ↔ s.slot.header.target ≠ 0 := by
  simp [State.packetStaged]

/-- Outside Idle, or over a staged packet under Reject, the answer is false without a transaction (R168, R170). -/
theorem isReadyToSend_refused {s : State}
    (h : s.top ≠ .idle ∨ (s.cfg.stagePolicy = .reject ∧ s.slot.header.target ≠ 0)) :
    isReadyToSend s = .done false s := by
  unfold isReadyToSend
  obtain htop | ⟨hpolicy, hstaged⟩ := h
  · rw [if_pos htop]
  · have hrejects : s.cfg.stagePolicy = .reject ∧ s.packetStaged = true := ⟨hpolicy, (packetStaged_iff s).2 hstaged⟩
    rw [if_pos hrejects, ite_self]

/-- In Idle with a slot that may be written, one sample is compared with the threshold (R168). -/
theorem isReadyToSend_sampled {s : State} (hregs : regMapOk s.cfg = true) (htop : s.top = .idle)
    (hfree : s.cfg.stagePolicy = .overwrite ∨ s.slot.header.target = 0) :
    isReadyToSend s =
      .done (decide (rssiDbm s.cfg.rssiConv (s.deviceAnswer s.cfg.regs.rssiValue) < s.cfg.rssiThreshold))
        (s.afterRead s.cfg.regs.rssiValue) := by
  have hmay : ¬ (s.cfg.stagePolicy = .reject ∧ s.packetStaged = true) := by
    rintro ⟨hpolicy, hstaged⟩
    obtain hoverwrite | htarget := hfree
    · exact absurd (hoverwrite.symm.trans hpolicy) (by decide)
    · exact (packetStaged_iff s).1 hstaged htarget
  rw [isReadyToSend, if_neg (not_not.2 htop), if_neg hmay, getRssi_ok hregs, bind_done]
  rfl

section
variable {s : State} (hregs : regMapOk s.cfg = true) (htop : s.top = .idle)
  (hfree : s.cfg.stagePolicy = .overwrite ∨ s.slot.header.target = 0)
include hregs htop hfree

/-- A sample strictly below the threshold: ready (R168). -/
theorem isReadyToSend_quiet
    (h : rssiDbm s.cfg.rssiConv (s.deviceAnswer s.cfg.regs.rssiValue) < s.cfg.rssiThreshold) :
    isReadyToSend s = .done true (s.afterRead s.cfg.regs.rssiValue) := by
  rw [isReadyToSend_sampled hregs htop hfree, decide_eq_true h]

/-- A sample at the threshold or above: not ready (R168). -/
theorem isReadyToSend_busy
    (h : s.cfg.rssiThreshold ≤ rssiDbm s.cfg.rssiConv (s.deviceAnswer s.cfg.regs.rssiValue)) :
    isReadyToSend s = .done false (s.afterRead s.cfg.regs.rssiValue) := by
  rw [isReadyToSend_sampled hregs htop hfree, decide_eq_false (not_lt.2 h)]

end

/-- Settles O28: the two predicates of the engine's own state, then the two outcomes of IsReadyToSend. -/
theorem enginePredicates : Obligations.EnginePredicates := by
  refine ⟨fun s hrun => ⟨?staged, fun b hb => ?active⟩, fun s hs => ?ready⟩
  case staged =>
    rw [exec, execPacketToSend, command_running hrun]
    rfl
  case active =>
    obtain rfl : b = s.active := Bool.eq_iff_iff.2 (hb.trans (active_iff s).symm)
    rw [exec, execIsActive, command_running hrun]
    rfl
  case ready =>
    obtain ⟨hrun, hregs⟩ := hs.atStart
    refine ⟨fun hrefused => ?refused, fun htop hfree => ?sampled⟩
    case refused =>
      rw [exec, execIsReadyToSend, command_running hrun, isReadyToSend_refused (s := s.started) hrefused]
      rfl
    case sampled =>
      rw [exec, execIsReadyToSend, command_running hrun, isReadyToSend_sampled (s := s.started) hregs htop hfree]
      rfl

/-! ## SendPacket -/

/-- Data within CONTENT_DATA_MAX is kept whole and filled up with zeros (R27, R171). -/
theorem padData_of_le {d : List Byte} (h : d.length ≤ 20) : padData d = d ++ List.replicate (20 - d.length) 0 := by
  rw [padData, List.take_append, List.take_of_length_le h, List.take_replicate]
  simp

/-- A content operand within CONTENT_DATA_MAX as it stands in the slot, with its total size (R171). -/
theorem stagedPacket_eq {target source : Byte} {ack : Bool} {c : Content} {callback : Option Byte}
    (hc : c.operandOk = true) (hsize : c.size.toNat ≤ 20) :
    stagedPacket target ack c callback source =
      ⟨⟨BitVec.ofNat 8 (13 + c.size.toNat), target, source, ack, 0⟩,
        ⟨c.timestamp, c.type, c.size, c.data ++ List.replicate (20 - c.size.toNat) 0⟩, callback⟩ := by
  have hlength : c.data.length = c.size.toNat := by
    simp only [Content.operandOk, Bool.and_eq_true, beq_iff_eq] at hc
    exact hc.2
  have htotal : totalSizeOf c = BitVec.ofNat 8 (13 + c.size.toNat) :=
    if_pos (show 13 + c.size.toNat < 256 by omega)
  rw [stagedPacket, htotal, ← hlength, List.take_length, padData_of_le (hlength.le.trans hsize)]

section
variable {target : Byte} {ack : Bool} {c : Content} {callback : Option Byte} {s : State}

/-- An oversized content is rejected before readiness is tested (R150, R172). -/
theorem sendPacket_oversized (hsize : 20 < c.size.toNat) :
    sendPacket target ack c callback s = .done false (s.logDiag .contentTooLarge) := by
  have hbad : ¬ contentSizeOk c = true := by simpa [contentSizeOk] using hsize
  rw [sendPacket, if_neg hbad]

/-- A content that fits is rejected where the engine is not ready to send (R168, R172). -/
theorem sendPacket_notReady {t : State} (hsize : c.size.toNat ≤ 20) (hready : isReadyToSend s = .done false t) :
    sendPacket target ack c callback s = .done false (t.logDiag .notReady) := by
  have hok : contentSizeOk c = true := by simpa [contentSizeOk] using hsize
  rw [sendPacket, if_pos hok, hready, bind_done, if_neg Bool.false_ne_true]

/-- A content that fits is staged where the engine is ready to send (R171, R172). -/
theorem sendPacket_ready {t : State} (hsize : c.size.toNat ≤ 20) (hready : isReadyToSend s = .done true t) :
    sendPacket target ack c callback s =
      .done true (t.afterNode.withSlot (stagedPacket target ack c callback t.nodeAnswer)) := by
  have hok : contentSizeOk c = true := by simpa [contentSizeOk] using hsize
  rw [sendPacket, if_pos hok, hready, bind_done, if_pos rfl]
  rfl

end

/-- SEND answers what SendPacket came to, on the host port as well (R83, R172). -/
theorem sendCommand_done {target cb : Byte} {ack : Bool} {c : Content} {s t : State} {b : Bool}
    (h : sendPacket target ack c (hostId cb) s = .done b t) :
    sendCommand target ack cb c s = .done b (t.emit (.sendResult (byteOfBool b))) := by
  rw [sendCommand, h, bind_done]

/-- SEND as a command of its own, by what SendPacket comes to from its start. -/
theorem exec_send {target cb : Byte} {ack : Bool} {c : Content} {s t : State} {b : Bool} (hrun : s.halted = false)
    (h : sendPacket target ack c (hostId cb) s.started = .done b t) :
    exec (.send target ack cb c) s =
      .next ((t.emit (.sendResult (byteOfBool b))).returned (some (.bool b))) := by
  rw [exec, execSend, command_running hrun, sendCommand_done h, boolResult_done, finish_done]

/-- Settles O29: IsReadyToSend samples a quiet channel, and what is staged is the operand filled up with zeros. -/
theorem sendStagesThePacket : Obligations.SendStagesThePacket := by
  rintro target cb source ack c nodes _ s hs hc hsize htop hfree rfl hquiet hnodes
  obtain ⟨hrun, hregs⟩ := hs.atStart
  have hready := isReadyToSend_quiet (s := s.started) hregs htop hfree hquiet
  have hsource : (s.started.afterRead s.started.cfg.regs.rssiValue).nodeAnswer = source := by
    simp [State.nodeAnswer, hnodes]
  rw [exec_send hrun (sendPacket_ready hsize hready), hsource, stagedPacket_eq hc hsize, State.afterNode, hsource]
  simp [State.afterRead, State.started, State.withSlot, State.emit, State.returned, State.deviceAnswer, hostId,
    byteOfBool, hnodes]

/-- Settles O30: the size is checked first, then IsReadyToSend, which refuses or has sampled a busy channel. -/
theorem sendRejects : Obligations.SendRejects := by
  rintro target cb ack c _ s hs rfl
  obtain ⟨hrun, hregs⟩ := hs.atStart
  refine ⟨fun hsize => ?oversized, fun hsize hrefused => ?refused, fun hsize htop hfree hbusy => ?busy⟩
  case oversized =>
    rw [exec_send hrun (sendPacket_oversized hsize)]
    rfl
  case refused =>
    rw [exec_send hrun (sendPacket_notReady hsize (isReadyToSend_refused (s := s.started) hrefused))]
    rfl
  case busy =>
    have hready := isReadyToSend_busy (s := s.started) hregs htop hfree hbusy
    rw [exec_send hrun (sendPacket_notReady hsize hready)]
    simp [State.afterRead, State.started, State.logDiag, State.logAt, State.emit, State.returned, State.deviceAnswer,
      Diag.level, Diag.code, byteOfBool]

/-! ## SetPacketHandler -/

/-- A handler identifier that is not 0 is present (R84). -/
theorem hostId_of_ne_zero {b : Byte} (h : b ≠ 0) : hostId b = some b := if_neg h

section
variable {type : Byte} {s : State}

/-- A type in range and a handler: its entry is written (R176). -/
theorem setPacketHandler_ok {handler : Byte} (htype : type.toNat < s.handlers.length) (hne : handler ≠ 0) :
    setPacketHandler (hostId handler) type s = .done () (s.withHandler type.toNat (some handler)) := by
  simp only [setPacketHandler, State.numTypes, if_neg (Nat.not_le.2 htype), hostId_of_ne_zero hne]

/-- A type out of range is the assertion ASSERT_TYPE_RANGE, whatever the handler (R176). -/
theorem setPacketHandler_range {handler : Option Byte} (htype : s.handlers.length ≤ type.toNat) :
    setPacketHandler handler type s = .stop (s.halt 0x03) := by
  simp only [setPacketHandler, State.numTypes, htype, if_true]
  rfl

/-- A type in range and no handler is the assertion ASSERT_NULL (R176). -/
theorem setPacketHandler_null (htype : type.toNat < s.handlers.length) :
    setPacketHandler (hostId 0) type s = .stop (s.halt 0x04) := by
  simp only [setPacketHandler, State.numTypes, Nat.not_le.2 htype, if_false]
  rfl

end

/-- Settles O31: the three outcomes of SetPacketHandler. -/
theorem setHandlerWritesOneEntry : Obligations.SetHandlerWritesOneEntry := by
  intro type handler s hrun
  refine ⟨fun htype hne => ?writes, fun htype => ?range, fun htype => ?null⟩
  case writes =>
    rw [exec, execSetHandler, command_running hrun, setPacketHandler_ok (s := s.started) htype hne, noResult_done,
      finish_done]
    rfl
  case range =>
    rw [exec, execSetHandler, command_running hrun, setPacketHandler_range (s := s.started) htype, noResult_stop,
      finish_stop, halt_started]
  case null =>
    rw [exec, execSetHandler, command_running hrun, setPacketHandler_null (s := s.started) htype, noResult_stop,
      finish_stop, halt_started]

/-! ## Nested commands -/

/-- The bytes of a host command decode to it. -/
theorem decode_hostCommand {i : Instr} (hform : (encode i).format = .host) (hi : i.WellFormed = true) :
    decode ⟨.host, (encode i).bytes⟩ = .ok i := by
  rw [← hform]
  exact encodeDecodeRoundTrip i hi

/-- A nested SEND does what SEND does, and its result stays on the host port (R186). -/
theorem nestedCommand_send {target cb : Byte} {ack : Bool} {c : Content} {s t : State} {b : Bool}
    (hc : c.operandOk = true) (h : sendPacket target ack c (hostId cb) s = .done b t) :
    nestedCommand (encode (.send target ack cb c)).bytes s = .done () (t.emit (.sendResult (byteOfBool b))) := by
  have hdecode : decode ⟨.host, (encode (.send target ack cb c)).bytes⟩ = .ok (.send target ack cb c) :=
    decode_hostCommand rfl hc
  simp only [nestedCommand, hdecode, sendCommand_done h, bind_done]

/-- A nested SET_HANDLER does what SetPacketHandler does (R186). -/
theorem nestedCommand_setHandler (type handler : Byte) (s : State) :
    nestedCommand (encode (.setHandler type handler)).bytes s = setPacketHandler (hostId handler) type s := by
  rw [nestedCommand, decode_hostCommand rfl rfl]

/-- A nested INIT, UPDATE or EVENT stops the command, and the refusal is kept for the next step (R186; log 13). -/
theorem nestedCommand_reentrant {i : Instr} (hi : i = .init ∨ i = .update ∨ ∃ k, i = .event k) (s : State) :
    nestedCommand (encode i).bytes s = .stop (s.suspend (.refusal (.reentrantCommand i))) := by
  obtain rfl | rfl | ⟨k, rfl⟩ := hi
  all_goals rw [nestedCommand, decode_hostCommand rfl rfl]

/-- A nested command that is done is followed by the next (R186). -/
theorem nestedCommands_done {b : List Byte} {s t : State} (h : nestedCommand b s = .done () t)
    (rest : List (List Byte)) : nestedCommands (b :: rest) s = nestedCommands rest t := by
  rw [nestedCommands, h, bind_done]

/-- A nested command that stops is followed by nothing (R223). -/
theorem nestedCommands_stop {b : List Byte} {s t : State} (h : nestedCommand b s = .stop t)
    (rest : List (List Byte)) : nestedCommands (b :: rest) s = .stop t := by
  rw [nestedCommands, h, bind_stop]

/-- Inside a command without a result, an assertion leaves what it leaves at a command's start (R223). -/
theorem halt_eq_fatal {s : State} (hresult : s.result = none) (code : Byte) : s.halt code = s.fatal code := by
  rw [State.halt, State.fatal, ← hresult]

/-! ## Places at which a command stands still -/

/-- A step of a command in progress goes on from its place (R9, R34). -/
theorem step_inProgress {s : State} {p : Pending} (hrun : s.halted = false) (hvalid : s.validInstance = true)
    (hcontrol : s.control = some p) : step s = goOn p s := by
  simp only [step, hrun, Bool.false_eq_true, if_false, hvalid, if_true, hcontrol]

/-- A state that steps to itself stays under any number of steps. -/
theorem run_fixed {s : State} (h : step s = .next s) (n : Nat) : Host.Core.run Sys2Proof.core n s = .next s := by
  induction n with
  | zero => rfl
  | succ n ih => rw [run_succ h, ih]

/-- Settles O32: a nested command is one of the laws above, a list of them is their binds, and a held engine steps to
itself. -/
theorem Upcall.nestedCommands : Obligations.NestedCommands := by
  refine ⟨fun s hrun hcontrol hresult => ⟨?send, ?handler, ?range, ?null, fun i hi => ⟨?stops, fun hvalid => ?refused⟩,
    rfl, fun b rest t => ⟨fun h => nestedCommands_done h rest, fun h => nestedCommands_stop h rest⟩⟩,
    fun n s hrun hvalid hheld => ?held⟩
  case send =>
    intro target cb ack c hc htop
    by_cases hsize : c.size.toNat ≤ 20
    · rw [if_pos hsize, nestedCommand_send hc (sendPacket_notReady hsize (isReadyToSend_refused (.inl htop)))]
      rfl
    · rw [if_neg hsize, nestedCommand_send hc (sendPacket_oversized (Nat.lt_of_not_le hsize))]
      rfl
  case handler =>
    intro type handler htype hne
    rw [nestedCommand_setHandler, setPacketHandler_ok htype hne]
    rfl
  case range =>
    intro type handler htype
    rw [nestedCommand_setHandler, setPacketHandler_range htype, halt_eq_fatal hresult]
  case null =>
    intro type htype
    rw [nestedCommand_setHandler, setPacketHandler_null htype, halt_eq_fatal hresult]
  case stops => exact nestedCommand_reentrant hi s
  case refused => exact step_inProgress (p := .refusal (.reentrantCommand i)) hrun hvalid rfl
  case held => exact run_fixed (step_inProgress hrun hvalid hheld) n

end Sys2Proof.Machine
end

