-- ==== Sys2Proof/Proofs/Events.lean ====
section
/-!
The step between two commands and inside one (R9, R83, R165; O2, O59), and the events (R81, R180 to R184, R187, R254;
O47, O48). Sleep and Wakeup are a mode change, a wait and what follows it at its place: `modeWait_ready`,
`modeWait_late` and `modeWait_again` say how the first poll comes out, whatever follows. The drain of a Sleep event ends
its step where Update ended its own, because an active engine's Update is done inside the same command
(`sameCommand_closed`) and returns nothing (`updateEngine_active_returnsNothing`).
-/

namespace Sys2Proof.Machine

/-! ## The next frame -/

/-- A frame that decodes is run as its instruction (R165). -/
theorem runFrame_decoded {frame : CommandFrame} {i : Instr} (h : decode frame = .ok i) (s : State) :
    runFrame frame s = exec i s := by
  simp only [runFrame, h]

/-- A table word that decodes does so by its frame. -/
theorem decode_frameOfWord {nbits w : Nat} {i : Instr} (h : decodeTableWord nbits w = some i) :
    decode (frameOfWord nbits w) = .ok i := by
  unfold decodeTableWord at h
  split at h
  next hdecode => rw [hdecode, Option.some.inj h]
  next => cases h

/-- Between commands, once the frame of a table word is taken, the state is what it was before it was placed. -/
theorem withFetchWord_taken {s : State} (hcontrol : s.control = none) (nbits w : Nat) :
    (s.withFetchWord nbits w).withInbox s.inbox = s := by
  rw [State.withFetchWord, State.withInbox, ← hcontrol]

/-- Settles O2: the frame taken is the one at the head of the queue, and a placed word is at its head. -/
theorem stepRunsTheNextFrame : Obligations.StepRunsTheNextFrame := by
  rintro s ⟨hrun, hvalid, hcontrol⟩
  refine ⟨fun frame rest i hinbox hdecode => ?queue, fun nbits w i hword => ?word, fun hinbox => ?empty⟩
  case queue =>
    rw [step_takes ⟨hrun, hvalid, hcontrol⟩ hinbox]
    exact runFrame_decoded hdecode _
  case word =>
    have hplaced : (s.withFetchWord nbits w).BetweenCommands := ⟨hrun, hvalid, rfl⟩
    rw [step_takes (frame := frameOfWord nbits w) (more := s.inbox) hplaced rfl, withFetchWord_taken hcontrol]
    exact runFrame_decoded (decode_frameOfWord hword) _
  case empty => simp [step, takeCommand, hrun, hvalid, hcontrol, hinbox]

/-! ## A command in progress -/

/-- Two states with the same queue of frames. -/
def SameInbox (s t : State) : Prop := t.inbox = s.inbox

/-- No update of a command touches the queue. -/
theorem sameInbox_runs : Runs SameInbox SameInbox SameInbox where
  refl _ := rfl
  trans h k := Eq.trans k h
  absorb h k := Eq.trans k h
  logDiag _ _ := rfl
  halt _ _ := rfl
  suspend _ _ _ := rfl
  afterRead _ _ := rfl
  afterWrite _ _ _ := rfl
  afterClock _ := rfl
  afterNode _ := rfl
  afterNetwork _ := rfl
  afterBroadcast _ := rfl
  emit _ _ := rfl
  afterHost _ := rfl
  drawn _ := rfl
  withSlot _ _ _ := rfl
  withHandler _ _ _ _ := rfl
  withTop _ _ _ := rfl
  same _ := rfl
  started _ _ := rfl
  resumed _ _ := rfl
  returned _ h := h
  stopped h := h

/-- Settles O59: a halted engine stays, one of invalid parameters has no next state, and else the command goes on. -/
theorem commandInProgressTakesNoFrame : Obligations.CommandInProgressTakesNoFrame := by
  intro s t p hcontrol h
  cases hrun : s.halted with
  | true =>
    simp only [step, hrun, if_true, Host.Outcome.next.injEq] at h
    rw [h]
  | false =>
    cases hvalid : s.validInstance with
    | false => simp [step, hrun, hvalid] at h
    | true =>
      rw [step_inProgress hrun hvalid hcontrol] at h
      exact goOn_closed sameInbox_runs hrun h

/-! ## The first poll after a mode change -/

section
variable {w : WaitFrame} {k : Bool → Cmd} {s : State} {code : BitVec 3} {v i : Byte} {dev : List Byte} {t0 : Millis}
  (hregs : regMapOk s.cfg = true)
include hregs

/-- The first poll finds the flag set (R113). -/
theorem modeWait_ready {clk : List Millis} (hi : modeReadyFlag s.cfg.regs i = true) :
    pollWait w k (s.modeWait code v (i :: dev) t0 clk) = k true (s.modePoll code v i dev t0 clk) := by
  rw [pollWait_ready (s := s.modeWait code v (i :: dev) t0 clk) hregs rfl hi]
  simp [State.modeWait, State.modePoll]

section
variable {t : Millis} {clk : List Millis} (hi : modeReadyFlag s.cfg.regs i = false)
include hi

/-- The first poll finds the flag clear and the deadline past (R113). -/
theorem modeWait_late (ht : w.timeout.toNat ≤ (t - w.start).toNat) :
    pollWait w k (s.modeWait code v (i :: dev) t0 (t :: clk)) = k false { s.modePoll code v i dev t0 clk with
      log := s.log ++ [(.warning, 0x11)], trace := (s.modePoll code v i dev t0 clk).trace ++ [.clock t] } := by
  rw [pollWait_late (s := s.modeWait code v (i :: dev) t0 (t :: clk)) hregs rfl rfl hi ht]
  simp [State.modeWait, State.modePoll]

/-- The first poll finds the flag clear and time left: the wait goes on in the next step (R113; log 1). -/
theorem modeWait_again (ht : (t - w.start).toNat < w.timeout.toNat) :
    pollWait w k (s.modeWait code v (i :: dev) t0 (t :: clk)) = .stop { s.modePoll code v i dev t0 clk with
      control := some (.wait w), trace := (s.modePoll code v i dev t0 clk).trace ++ [.clock t] } := by
  rw [pollWait_again (s := s.modeWait code v (i :: dev) t0 (t :: clk)) hregs rfl rfl hi ht]
  simp [State.modeWait, State.modePoll]

end

end

/-! ## Sleep and Wakeup -/

/-- EVENT as a command of its own. -/
theorem exec_event {s : State} (hrun : s.halted = false) (kind : Byte) :
    exec (.event kind) s = .next (eventHandler kind s.started).finish := by
  rw [exec, execEvent, command_running hrun]

/-- A kind other than Sleep and Wakeup does nothing (R183). -/
theorem eventHandler_other {k : Byte} (h1 : k ≠ 1) (h2 : k ≠ 2) (s : State) : eventHandler k s = .done none s := by
  unfold eventHandler
  split
  next hk => exact absurd (BitVec.eq_of_toNat_eq hk) h1
  next hk => exact absurd (BitVec.eq_of_toNat_eq hk) h2
  next => rfl

/-- The end of EventSleep: Sleeping, however the wait ended (R181, R187). -/
theorem afterWait_sleep {ready : Bool} {s : State} (hresult : s.result = none) :
    (afterWait .sleep ready s).finish = { s with top := .sleeping } := by
  rw [afterWait, finish_done, returned_none (by exact hresult)]
  rfl

section
variable {s : State} {v : Byte} {dev : List Byte} {t0 : Millis} {clk : List Millis} (hs : s.Ready)
  (hdev : s.devIn = v :: dev) (hclk : s.clkIn = t0 :: clk)
include hs hdev hclk

/-- A Sleep event of an engine that is not active: Sleep mode and the wait (R181). -/
theorem exec_sleep (hidle : s.active = false) : exec (.event 1) s = .next
    (pollWait ⟨t0, s.cfg.timeoutMs, .sleep⟩ (afterWait .sleep)
      (s.modeWait s.cfg.modeCodes.sleep v dev t0 clk)).finish := by
  obtain ⟨hrun, hregs⟩ := hs.atStart
  have hactive : ¬ s.started.active = true := by simpa [State.active] using hidle
  have hsleep : eventHandler 1 s.started = eventSleep s.started := rfl
  rw [exec_event hrun, hsleep, eventSleep, if_neg hactive, setMode_wait hregs rfl rfl hdev hclk]
  rfl

/-- A Wakeup event: Standby and the wait (R182). -/
theorem exec_wakeup : exec (.event 2) s = .next
    (pollWait ⟨t0, s.cfg.timeoutMs, .wakeup⟩ (afterWait .wakeup)
      (s.modeWait s.cfg.modeCodes.standby v dev t0 clk)).finish := by
  obtain ⟨hrun, hregs⟩ := hs.atStart
  have hwakeup : eventHandler 2 s.started = eventWakeup s.started := rfl
  rw [exec_event hrun, hwakeup, eventWakeup, setMode_wait hregs rfl rfl hdev hclk]
  rfl

end

/-- Settles O47: the kinds without effect, then for Sleep and Wakeup each way in which the first poll comes out. -/
theorem eventsSleepAndWake : Obligations.EventsSleepAndWake := by
  intro s hs
  have hregs := hs.2
  have hnotActive : (∀ ss, s.top ≠ .sending ss) → s.top ≠ .listening .receiving → s.active = false := by
    intro hsending hreceiving
    rw [Bool.eq_false_iff, ne_eq, active_iff]
    rintro (⟨ss, htop⟩ | htop)
    · exact hsending ss htop
    · exact hreceiving htop
  refine ⟨fun k h1 h2 => ?other, fun v i dev t0 clk hdev hclk => ?kinds⟩
  case other =>
    rw [exec_event hs.1, eventHandler_other h1 h2]
    rfl
  case kinds =>
    have hsleep := fun hsending hreceiving => exec_sleep hs hdev hclk (hnotActive hsending hreceiving)
    rw [exec_wakeup hs hdev hclk]
    refine ⟨fun hi => ⟨fun hsending hreceiving => ?_, ?_⟩, ?_⟩
    · rw [hsleep hsending hreceiving, modeWait_ready hregs hi, afterWait_sleep rfl]
    · rw [modeWait_ready hregs hi, afterWait_wakeup rfl]
      rfl
    · rintro t clk' hi rfl
      refine ⟨fun ht => ⟨fun hsending hreceiving => ?_, ?_⟩, fun ht => ⟨fun hsending hreceiving => ?_, ?_⟩⟩
      · rw [hsleep hsending hreceiving, modeWait_late hregs hi ht, afterWait_sleep rfl]
      · rw [modeWait_late hregs hi ht, afterWait_wakeup rfl]
        rfl
      · rw [hsleep hsending hreceiving, modeWait_again hregs hi ht, finish_stop]
      · rw [modeWait_again hregs hi ht, finish_stop]

/-! ## The drain of a Sleep event -/

/-- A command's whole body is done inside the same command, or stops with the engine halted or the command kept. -/
theorem sameCommand_closed : Closed SameCommand Interrupted where
  toCalls := sameCommand_calls
  withTop _ _ _ := ⟨rfl, rfl, rfl, rfl⟩

/-- The flow, where it is done, has nothing to return. -/
def ReturnsNothing : Flow (Option Value) → Prop
  | .done v _ => v = none
  | .stop _ => True

theorem bind_returnsNothing {α : Type} {f : Flow α} {k : α → State → Flow (Option Value)}
    (h : ∀ a t, ReturnsNothing (k a t)) : ReturnsNothing (f.bind k) := by
  cases f with
  | done a t => exact h a t
  | stop t => trivial

/-- The Update of an active engine, a tick of Sending or of Listening(Receiving), returns nothing (R177, R201). -/
theorem updateEngine_active_returnsNothing {s : State} (h : s.active = true) : ReturnsNothing (updateEngine s) := by
  obtain ⟨ss, htop⟩ | htop := (active_iff s).1 h
  · cases ss with
    | init =>
      simp only [updateEngine, htop, tickSendingInit]
      exact bind_returnsNothing fun _ _ => rfl
    | writing =>
      simp only [updateEngine, htop, tickSendingWriting]
      refine bind_returnsNothing fun ready t => ?_
      split
      · exact bind_returnsNothing fun _ _ => bind_returnsNothing fun _ _ => bind_returnsNothing fun _ _ =>
          bind_returnsNothing fun _ _ => rfl
      · rfl
    | transmitting =>
      simp only [updateEngine, htop, tickSendingTransmitting]
      refine bind_returnsNothing fun sent t => ?_
      split
      · split
        · exact bind_returnsNothing fun _ _ => bind_returnsNothing fun _ _ => rfl
        · exact bind_returnsNothing fun _ _ => rfl
      · rfl
    | waitForAck =>
      simp only [updateEngine, htop, tickSendingWaitForAck]
      refine bind_returnsNothing fun payload t => ?_
      split
      · exact bind_returnsNothing fun _ _ => bind_returnsNothing fun _ _ => rfl
      · rfl
    | done =>
      simp only [updateEngine, htop]
      rfl
  · simp only [updateEngine, htop]
    rfl

/-- While the engine is active, EventSleep is one Update and goes on in the next step (R181; log 1). -/
theorem eventSleep_active {s : State} (h : s.active = true) :
    eventSleep s = (updateEngine s).bind fun _ t => .stop (t.suspend .drain) := if_pos h

/-- An active engine's Sleep event ends its step as UPDATE does, but for its place in the drain (R181). -/
theorem exec_sleep_active {s t : State} (hrun : s.halted = false) (hactive : s.active = true)
    (hupdate : exec .update s = .next t) (ht_run : t.halted = false) (ht_control : t.control = none) :
    exec (.event 1) s = .next { t with control := some .drain } := by
  have hstarted : s.started.active = true := hactive
  have hsleep : eventHandler 1 s.started = eventSleep s.started := rfl
  rw [exec, execUpdate, command_running hrun] at hupdate
  rw [exec_event hrun, hsleep, eventSleep_active hstarted]
  have hkeeps := keeps_updateEngine sameCommand_closed s.started
  have hnothing := updateEngine_active_returnsNothing hstarted
  cases hflow : updateEngine s.started with
  | done v x =>
    rw [hflow] at hupdate hkeeps hnothing
    obtain rfl : v = none := hnothing
    cases hupdate
    rw [bind_done, finish_stop, finish_done, returned_none hkeeps.result]
    rfl
  | stop x =>
    rw [hflow] at hupdate hkeeps
    cases hupdate
    obtain hhalted | hkept := hkeeps
    · exact absurd (hhalted.symm.trans ht_run) Bool.noConfusion
    · exact absurd ht_control hkept

/-- A step in the drain is the Sleep event from its start (R181; log 1). -/
theorem step_drain {s : State} (hrun : s.halted = false) (hvalid : s.validInstance = true)
    (hcontrol : s.control = some .drain) : step s = .next (eventSleep s.resumed).finish :=
  step_inProgress hrun hvalid hcontrol

/-- In Sending(Done) Update does nothing, so the drain comes back to where it was (R206, R254). -/
theorem eventSleep_sendingDone {s : State} (htop : s.top = .sending .done) :
    eventSleep s = .stop (s.suspend .drain) := by
  have hupdate : updateEngine s = .done none s := by simp only [updateEngine, htop, tickSendingDone, skipTick]
  rw [eventSleep_active ((active_iff s).2 (.inl ⟨_, htop⟩)), hupdate, bind_done]

/-- Settles O48: one Update of an active engine, a step of the drain, and the fixed point in Sending(Done). -/
theorem sleepDrainsByUpdates : Obligations.SleepDrainsByUpdates := by
  refine ⟨fun s t hrun hactive => exec_sleep_active hrun ((active_iff s).2 hactive),
    fun s hrun hvalid hcontrol hresult => ?again, fun n s hrun hvalid hcontrol hresult htop => ?stuck⟩
  case again =>
    have hstart : s.started = s.resumed := by rw [State.started, State.resumed, hresult]
    rw [step_drain hrun hvalid hcontrol, exec_event (by exact hrun), ← hstart]
    rfl
  case stuck =>
    refine run_fixed ?_ n
    rw [step_drain hrun hvalid hcontrol, eventSleep_sendingDone (s := s.resumed) htop, finish_stop, State.suspend,
      State.resumed, ← hcontrol]

end Sys2Proof.Machine
end

