-- ==== Sys2Proof/Proofs/Init.lean ====
section
/-!
Init (R122 to R135, R166, R187, R192, R223; O45, O46). Its configuration sequence is cut into the sections whose events
the statements name (`configureAll_eq`), and under the reference setters each section has one law for arguments in
range. A halt is then the laws of the sections before it and the assertion of the first setter that rejects its
argument; the whole of Init is all the laws, the mode change of HOME and the first poll of the wait.
-/

namespace Sys2Proof.Machine

/-! ## One setter -/

/-- The state after operations of the adapter: the device's answers that are left, and what happened at the ports. -/
def State.did (s : State) (dev : List Byte) (events : List Event) : State :=
  { s with devIn := dev, trace := s.trace ++ events }

@[simp] theorem State.did_cfg (s : State) (dev : List Byte) (events : List Event) :
    (s.did dev events).cfg = s.cfg := rfl

@[simp] theorem State.did_devIn (s : State) (dev : List Byte) (events : List Event) :
    (s.did dev events).devIn = dev := rfl

@[simp] theorem State.did_did (s : State) (dev dev' : List Byte) (events events' : List Event) :
    (s.did dev events).did dev' events' = s.did dev' (events ++ events') := by
  simp [State.did]

section
variable {s : State} {spec : SetterSpec} (hregs : regMapOk s.cfg = true) (hmem : spec ∈ setterList s.cfg)
include hregs hmem

/-- A setter that writes whole registers, with an argument that it accepts (R122). -/
theorem configure_wholeRegisters {n : Nat} (hn : n ≤ 32) {arg : BitVec n} {valid : List (Nat × Nat)}
    {rows : List (RegAddr × Nat)} (hspec : spec = ⟨valid, wholeRegisters rows⟩)
    (hvalid : ∃ r ∈ valid, r.1 ≤ arg.toNat ∧ arg.toNat ≤ r.2) :
    configure spec (arg.zeroExtend 32) s =
      .done () (s.did s.devIn (rows.map fun r => writeEvent s.cfg r.1 (arg.extractLsb' r.2 8))) := by
  have hregisters := regMapOk_setter hregs hmem (arg.zeroExtend 32)
  subst hspec
  rw [configure_ok (answers := []) (dev := s.devIn) hregisters
    ((argValid_iff _ _).2 (by simpa [BitVec.toNat_setWidth_of_le hn] using hvalid))
    (setterReads_wholeRegisters rows _).symm rfl, setterEvents_wholeRegisters]
  simp only [extractLsb'_zeroExtend hn, State.did]

/-- A setter of one field, with an argument that it accepts, given the device's answer (R122). -/
theorem configure_oneField {v : Byte} {dev : List Byte} (hdev : s.devIn = v :: dev) {valid : List (Nat × Nat)}
    {f : FieldEnc} {arg : BitVec 32} (hmask : f.mask ≠ 0xFF) (hspec : spec = ⟨valid, .fields [f]⟩)
    (hvalid : ∃ r ∈ valid, r.1 ≤ arg.toNat ∧ arg.toNat ≤ r.2) :
    configure spec arg s = .done () (s.did dev [readEvent s.cfg f.reg v,
      writeEvent s.cfg f.reg ((v &&& ~~~f.mask) ||| (fieldByte f arg &&& f.mask))]) := by
  have hregisters := regMapOk_setter hregs hmem arg
  subst hspec
  have hreads : setterReads (encWrites (.fields [f]) arg) = 1 := by
    simp only [encWrites, List.map_cons, List.map_nil, setterReads, if_neg hmask]
  rw [configure_ok (answers := [v]) (dev := dev) hregisters ((argValid_iff _ _).2 hvalid) hreads.symm hdev]
  simp only [encWrites, List.map_cons, List.map_nil, setterEvents, if_neg hmask, List.headD_cons, State.did]

/-- A setter of one field of a byte, with an argument up to its greatest (R122, R123). -/
theorem configure_byteField {v : Byte} {dev : List Byte} (hdev : s.devIn = v :: dev) {greatest k left : Nat}
    {reg : RegAddr} {mask m : Byte} (hspec : spec = ⟨[(0, greatest)], .fields [Config.field reg mask left]⟩)
    (hmask : mask = BitVec.ofNat 8 (2 ^ k - 1) <<< left) (hpart : mask ≠ 0xFF) (hfits : greatest < 2 ^ k)
    (hm : m.toNat ≤ greatest) :
    configure spec (m.zeroExtend 32) s = .done () (s.did dev [readEvent s.cfg reg v,
      writeEvent s.cfg reg ((v &&& ~~~mask) ||| (m <<< left))]) := by
  have harg : (m.zeroExtend 32).toNat = m.toNat := BitVec.toNat_setWidth_of_le (by decide)
  rw [configure_oneField hregs hmem hdev hpart hspec ⟨_, List.mem_singleton_self _, by omega, by omega⟩,
    fieldByte_field, Config.field, hmask, shiftLeft_and_mask (by omega)]

end

/-- A setter of one interval, with an argument outside it, is only the assertion ASSERT_CONFIG_RANGE (R122). -/
theorem configure_outside {s : State} {spec : SetterSpec} {low high n : Nat} {enc : SetterEnc} {arg : BitVec n}
    (hn : n ≤ 32) (hspec : spec = ⟨[(low, high)], enc⟩) (harg : arg.toNat < low ∨ high < arg.toNat) :
    configure spec (arg.zeroExtend 32) s = .stop (s.halt 0x05) := by
  subst hspec
  refine configure_beyond (argValid_eq_false fun r hr => ?_)
  obtain rfl := List.mem_singleton.1 hr
  rwa [BitVec.zeroExtend_eq_setWidth, BitVec.toNat_setWidth_of_le hn]

/-! ## The sections of the configuration sequence -/

/-- The carrier frequency and the bit rate. -/
def setRates (s : State) : Flow Unit :=
  (setCarrierFrequency s.cfg.cfgFreq s).bind fun _ s => setBitRate s.cfg.cfgBitRate s

/-- The power level, then the sync word and the addresses that the collaborator gives. -/
def setPowerAndAddresses (s : State) : Flow Unit :=
  (setPowerLevel s.cfg.cfgPower s).bind fun _ s =>
  (networkId s).bind fun word s =>
  (setSyncWord word s).bind fun _ s =>
  (thisNodeAddress s).bind fun node s =>
  (setNodeAddress node s).bind fun _ s =>
  (broadcastAddress s).bind fun bcast s => setBroadcastAddress bcast s

/-- The packet format, the CRC and its auto-clear. -/
def setPacketHandling (s : State) : Flow Unit :=
  (setPacketFormat s.cfg.cfgPacketFormat s).bind fun _ s =>
  (setCrc s.cfg.cfgCrcOn s).bind fun _ s => setCrcAutoClear s.cfg.cfgCrcAutoClear s

/-- What follows the addresses: the address filtering, the packet handling and the FIFO condition. -/
def setReception (s : State) : Flow Unit :=
  (setAddressFiltering s.cfg.cfgAddrFilter s).bind fun _ s =>
  (setPacketHandling s).bind fun _ s => setFifoThresholdCondition s.cfg.cfgFifoCond s

/-- The configuration sequence, section by section (R166). -/
theorem configureAll_eq (s : State) : configureAll s =
    (setRates s).bind fun _ s =>
    (setModulationType s.cfg.cfgModulation s).bind fun _ s =>
    (setPowerAndAddresses s).bind fun _ s => setReception s := by
  simp only [configureAll, setRates, setPowerAndAddresses, setPacketHandling, setReception, bind_assoc]

/-- The collaborator has been asked for the network id and the two addresses, and the sync word has been logged. -/
def State.identified (s : State) (word : List Byte) (nets : List (List Byte)) (nodes bcasts : List Byte) : State :=
  { s with netIn := nets, nodeIn := nodes, bcastIn := bcasts, log := s.log ++ syncLog s.cfg word }

section
variable {s : State}

theorem networkId_answer {word : List Byte} {nets : List (List Byte)} (h : s.netIn = word :: nets) :
    networkId s = .done word { s with netIn := nets, trace := s.trace ++ [.networkId word] } := by
  simp [networkId, State.afterNetwork, State.networkAnswer, h]

theorem thisNodeAddress_answer {node : Byte} {nodes : List Byte} (h : s.nodeIn = node :: nodes) :
    thisNodeAddress s = .done node { s with nodeIn := nodes, trace := s.trace ++ [.nodeAddress node] } := by
  simp [thisNodeAddress, State.afterNode, State.nodeAnswer, h]

theorem broadcastAddress_answer {bcast : Byte} {bcasts : List Byte} (h : s.bcastIn = bcast :: bcasts) :
    broadcastAddress s = .done bcast { s with bcastIn := bcasts, trace := s.trace ++ [.broadcastAddress bcast] } := by
  simp [broadcastAddress, State.afterBroadcast, State.broadcastAnswer, h]

end

/-- What the sync word of Init does at the ports, given the answer that is read for an accepted one (R128). -/
def syncWordEvents (p : Params) (word : List Byte) (v : Byte) : List Event :=
  if syncWordValid p word then
    [readEvent p p.regs.syncConfig v, writeEvent p p.regs.syncConfig (withSyncSize p.regs v p.syncLen)]
      ++ syncEvents p word
  else []

theorem addressEvents_eq (p : Params) (a : InitAnswers) (word : List Byte) (node bcast : Byte) :
    addressEvents p a word node bcast =
      [readEvent p 0x11 a.paLevel, writeEvent p 0x11 ((a.paLevel &&& 0xE0) ||| p.cfgPower), .networkId word]
        ++ syncWordEvents p word a.syncConfig
        ++ [.nodeAddress node, writeEvent p 0x39 node, .broadcastAddress bcast, writeEvent p 0x3A bcast] := rfl

/-- The sync word of Init, given the answer that is read for an accepted one (R128). -/
theorem setSyncWord_answers {s : State} {word : List Byte} {v : Byte} {dev : List Byte} (hregs : regMapOk s.cfg = true)
    (hdev : s.devIn = (if syncWordValid s.cfg word then [v] else []) ++ dev) :
    setSyncWord word s = .done (syncWordValid s.cfg word) { s with
      devIn := dev, log := s.log ++ syncLog s.cfg word,
      trace := s.trace ++ syncWordEvents s.cfg word v } := by
  cases hword : syncWordValid s.cfg word with
  | true =>
    rw [hword, if_pos rfl] at hdev
    rw [setSyncWord_ok hregs (show syncWordOk s word = true from hword), deviceAnswer_cons hdev]
    simp [hdev, syncLog, syncWordEvents, hword]
  | false =>
    obtain rfl : s.devIn = dev := by simpa [hword] using hdev
    rw [setSyncWord_bad (show syncWordOk s word = false from hword)]
    simp [State.logDiag, State.logAt, Diag.level, Diag.code, syncLog, syncWordEvents, hword]

section
variable {s : State} (href : s.cfg.setters = Config.referenceSetters)
include href

/-- The carrier frequency (R124). -/
theorem setCarrierFrequency_ok (hregs : regMapOk s.cfg = true) (frf : BitVec 24) :
    setCarrierFrequency frf s = .done () (s.did s.devIn [writeEvent s.cfg 0x07 (frf.extractLsb' 16 8),
      writeEvent s.cfg 0x08 (frf.extractLsb' 8 8), writeEvent s.cfg 0x09 (frf.extractLsb' 0 8)]) :=
  configure_wholeRegisters hregs (by simp [setterList]) (by decide) (rows := [(0x07, 16), (0x08, 8), (0x09, 0)])
    (congrArg Setters.carrierFrequency href)
    ⟨_, List.mem_singleton_self _, Nat.zero_le _, Nat.le_of_lt_succ frf.isLt⟩

/-- The bit rate, in range (R125). -/
theorem setBitRate_ok (hregs : regMapOk s.cfg = true) {br : BitVec 16} (hrate : 1 ≤ br.toNat) :
    setBitRate br s = .done () (s.did s.devIn
      [writeEvent s.cfg 0x03 (br.extractLsb' 8 8), writeEvent s.cfg 0x04 (br.extractLsb' 0 8)]) :=
  configure_wholeRegisters hregs (by simp [setterList]) (by decide) (rows := [(0x03, 8), (0x04, 0)])
    (congrArg Setters.bitRate href) ⟨_, List.mem_singleton_self _, hrate, Nat.le_of_lt_succ br.isLt⟩

/-- A bit rate of 0 halts after the carrier frequency (R125). -/
theorem setRates_outside (hregs : regMapOk s.cfg = true) (hrate : s.cfg.cfgBitRate.toNat < 1) :
    setRates s = .stop ((s.did s.devIn ((rateEvents s.cfg).take 3)).halt 0x05) := by
  rw [setRates, setCarrierFrequency_ok href hregs, bind_done, setBitRate]
  exact configure_outside (by decide) (congrArg Setters.bitRate href) (.inl hrate)

/-- The rates, with a bit rate in range (R124, R125). -/
theorem setRates_ok (hregs : regMapOk s.cfg = true) (hrate : 1 ≤ s.cfg.cfgBitRate.toNat) :
    setRates s = .done () (s.did s.devIn (rateEvents s.cfg)) := by
  rw [setRates, setCarrierFrequency_ok href hregs, bind_done,
    setBitRate_ok (by exact href) (by exact hregs) (by exact hrate), State.did_did]
  rfl

/-- A modulation beyond 1 halts at its setter (R126). -/
theorem setModulationType_outside {m : Byte} (hm : 1 < m.toNat) : setModulationType m s = .stop (s.halt 0x05) :=
  configure_outside (by decide) (congrArg Setters.modulationType href) (.inr hm)

/-- A power level beyond 31 halts before anything of its section is done (R127). -/
theorem setPowerAndAddresses_outside (hpower : 31 < s.cfg.cfgPower.toNat) :
    setPowerAndAddresses s = .stop (s.halt 0x05) := by
  rw [setPowerAndAddresses, setPowerLevel,
    configure_outside (by decide) (congrArg Setters.powerLevel href) (.inr hpower), bind_stop]

/-- An address filtering beyond 2 halts at its setter (R131). -/
theorem setAddressFiltering_outside {f : Byte} (hf : 2 < f.toNat) : setAddressFiltering f s = .stop (s.halt 0x05) :=
  configure_outside (by decide) (congrArg Setters.addressFiltering href) (.inr hf)

/-- A packet format beyond 1 halts before anything of its section is done (R132). -/
theorem setPacketHandling_outside (hformat : 1 < s.cfg.cfgPacketFormat.toNat) :
    setPacketHandling s = .stop (s.halt 0x05) := by
  rw [setPacketHandling, setPacketFormat,
    configure_outside (by decide) (congrArg Setters.packetFormat href) (.inr hformat), bind_stop]

/-- A FIFO condition beyond 1 halts at its setter (R135). -/
theorem setFifoThresholdCondition_outside {c : Byte} (hc : 1 < c.toNat) :
    setFifoThresholdCondition c s = .stop (s.halt 0x05) :=
  configure_outside (by decide) (congrArg Setters.fifoThresholdCondition href) (.inr hc)

section
variable (hregs : regMapOk s.cfg = true) {dev : List Byte}
include hregs

/-- The modulation, in range (R126). -/
theorem setModulationType_ok {v : Byte} (hdev : s.devIn = v :: dev) (hm : s.cfg.cfgModulation.toNat ≤ 1) :
    setModulationType s.cfg.cfgModulation s = .done () (s.did dev (modulationEvents s.cfg v)) :=
  configure_byteField hregs (by simp [setterList]) hdev (congrArg Setters.modulationType href) (k := 2)
    (by decide) (by decide) (by decide) hm

/-- The address filtering, in range (R131). -/
theorem setAddressFiltering_ok {v : Byte} (hdev : s.devIn = v :: dev) (hf : s.cfg.cfgAddrFilter.toNat ≤ 2) :
    setAddressFiltering s.cfg.cfgAddrFilter s = .done () (s.did dev (filteringEvents s.cfg v)) :=
  configure_byteField hregs (by simp [setterList]) hdev (congrArg Setters.addressFiltering href) (k := 2)
    (by decide) (by decide) (by decide) hf

/-- The FIFO condition, in range (R135). -/
theorem setFifoThresholdCondition_ok {v : Byte} (hdev : s.devIn = v :: dev) (hc : s.cfg.cfgFifoCond.toNat ≤ 1) :
    setFifoThresholdCondition s.cfg.cfgFifoCond s = .done () (s.did dev
      [readEvent s.cfg 0x3C v, writeEvent s.cfg 0x3C ((v &&& 0x7F) ||| (s.cfg.cfgFifoCond <<< 7))]) :=
  configure_byteField hregs (by simp [setterList]) hdev (congrArg Setters.fifoThresholdCondition href) (k := 1)
    (by decide) (by decide) (by decide) hc

/-- The power level, in range (R127). -/
theorem setPowerLevel_ok {v : Byte} (hdev : s.devIn = v :: dev) (hp : s.cfg.cfgPower.toNat ≤ 31) :
    setPowerLevel s.cfg.cfgPower s = .done () (s.did dev
      [readEvent s.cfg 0x11 v, writeEvent s.cfg 0x11 ((v &&& 0xE0) ||| s.cfg.cfgPower)]) := by
  rw [setPowerLevel, configure_byteField hregs (by simp [setterList]) hdev (congrArg Setters.powerLevel href) (k := 5)
    (by decide) (by decide) (by decide) hp, BitVec.shiftLeft_zero]
  rfl

/-- The packet format, in range (R132). -/
theorem setPacketFormat_ok {v : Byte} (hdev : s.devIn = v :: dev) (hf : s.cfg.cfgPacketFormat.toNat ≤ 1) :
    setPacketFormat s.cfg.cfgPacketFormat s = .done () (s.did dev
      [readEvent s.cfg 0x37 v, writeEvent s.cfg 0x37 ((v &&& 0x7F) ||| (s.cfg.cfgPacketFormat <<< 7))]) :=
  configure_byteField hregs (by simp [setterList]) hdev (congrArg Setters.packetFormat href) (k := 1)
    (by decide) (by decide) (by decide) hf

/-- The CRC (R133). -/
theorem setCrc_ok {v : Byte} (hdev : s.devIn = v :: dev) (on : Bool) :
    setCrc on s = .done () (s.did dev
      [readEvent s.cfg 0x37 v, writeEvent s.cfg 0x37 ((v &&& 0xEF) ||| (byteOfBool on <<< 4))]) := by
  have hfield := fun arg => configure_oneField (arg := arg) hregs (by simp [setterList]) hdev (by decide)
    (congrArg Setters.crc href)
  cases on with
  | true => exact hfield (argOfBool true) (by decide)
  | false => exact hfield (argOfBool false) (by decide)

/-- The auto-clear of the CRC, whose bit is the negated argument (R134). -/
theorem setCrcAutoClear_ok {v : Byte} (hdev : s.devIn = v :: dev) (on : Bool) :
    setCrcAutoClear on s = .done () (s.did dev
      [readEvent s.cfg 0x37 v, writeEvent s.cfg 0x37 ((v &&& 0xF7) ||| (byteOfBool (!on) <<< 3))]) := by
  have hfield := fun arg => configure_oneField (arg := arg) hregs (by simp [setterList]) hdev (by decide)
    (congrArg Setters.crcAutoClear href)
  cases on with
  | true => exact hfield (argOfBool true) (by decide)
  | false => exact hfield (argOfBool false) (by decide)

/-- The node address (R129). -/
theorem setNodeAddress_ok (a : Byte) : setNodeAddress a s = .done () (s.did s.devIn [writeEvent s.cfg 0x39 a]) := by
  rw [setNodeAddress, configure_wholeRegisters hregs (by simp [setterList]) (by decide) (rows := [(0x39, 0)])
    (congrArg Setters.nodeAddress href) ⟨_, List.mem_singleton_self _, Nat.zero_le _, Nat.le_of_lt_succ a.isLt⟩]
  simp

/-- The broadcast address (R130). -/
theorem setBroadcastAddress_ok (a : Byte) :
    setBroadcastAddress a s = .done () (s.did s.devIn [writeEvent s.cfg 0x3A a]) := by
  rw [setBroadcastAddress, configure_wholeRegisters hregs (by simp [setterList]) (by decide) (rows := [(0x3A, 0)])
    (congrArg Setters.broadcastAddress href) ⟨_, List.mem_singleton_self _, Nat.zero_le _, Nat.le_of_lt_succ a.isLt⟩]
  simp

/-- The packet handling, with a format in range (R132 to R134). -/
theorem setPacketHandling_ok {a : InitAnswers} (hdev : s.devIn = a.format :: a.crc :: a.autoClear :: dev)
    (hf : s.cfg.cfgPacketFormat.toNat ≤ 1) :
    setPacketHandling s = .done () (s.did dev (packetEvents s.cfg a)) := by
  rw [setPacketHandling, setPacketFormat_ok href hregs hdev hf, bind_done,
    setCrc_ok (by exact href) (by exact hregs) rfl, bind_done,
    setCrcAutoClear_ok (by exact href) (by exact hregs) rfl, State.did_did, State.did_did]
  rfl

/-- What follows the addresses, with its arguments in range (R131 to R135). -/
theorem setReception_ok {a : InitAnswers}
    (hdev : s.devIn = a.filter :: a.format :: a.crc :: a.autoClear :: a.fifoThresh :: dev)
    (hfilter : s.cfg.cfgAddrFilter.toNat ≤ 2) (hformat : s.cfg.cfgPacketFormat.toNat ≤ 1)
    (hcond : s.cfg.cfgFifoCond.toNat ≤ 1) :
    setReception s = .done () (s.did dev (filteringEvents s.cfg a.filter ++ packetEvents s.cfg a ++
      [readEvent s.cfg 0x3C a.fifoThresh,
        writeEvent s.cfg 0x3C ((a.fifoThresh &&& 0x7F) ||| (s.cfg.cfgFifoCond <<< 7))])) := by
  rw [setReception, setAddressFiltering_ok href hregs hdev hfilter, bind_done,
    setPacketHandling_ok (a := a) (by exact href) (by exact hregs) rfl (by exact hformat), bind_done,
    setFifoThresholdCondition_ok (by exact href) (by exact hregs) rfl (by exact hcond), State.did_did, State.did_did,
    ← List.append_assoc]
  rfl

section
variable {a : InitAnswers} {word : List Byte} {node bcast : Byte} {nodes bcasts : List Byte} {nets : List (List Byte)}
  (hnet : s.netIn = word :: nets) (hnode : s.nodeIn = node :: nodes) (hbcast : s.bcastIn = bcast :: bcasts)
include hnet hnode hbcast

/-- The power level in range, then the sync word and the addresses (R127 to R130). -/
theorem setPowerAndAddresses_ok
    (hdev : s.devIn = a.paLevel :: ((if syncWordValid s.cfg word then [a.syncConfig] else []) ++ dev))
    (hpower : s.cfg.cfgPower.toNat ≤ 31) :
    setPowerAndAddresses s = .done () ((s.identified word nets nodes bcasts).did dev
      (addressEvents s.cfg a word node bcast)) := by
  rw [setPowerAndAddresses, setPowerLevel_ok href hregs hdev hpower, bind_done,
    networkId_answer (by exact hnet), bind_done, setSyncWord_answers (by exact hregs) rfl, bind_done,
    thisNodeAddress_answer (by exact hnode), bind_done, setNodeAddress_ok (by exact href) (by exact hregs), bind_done,
    broadcastAddress_answer (by exact hbcast), bind_done, setBroadcastAddress_ok (by exact href) (by exact hregs)]
  simp [State.did, State.identified, addressEvents_eq]

/-- The sections up to the addresses, with a bit rate, a modulation and a power level in range (R166). -/
theorem configureAll_identified
    (hdev : s.devIn = [a.dataModul, a.paLevel] ++ (if syncWordValid s.cfg word then [a.syncConfig] else []) ++ dev)
    (hrate : 1 ≤ s.cfg.cfgBitRate.toNat) (hmodulation : s.cfg.cfgModulation.toNat ≤ 1)
    (hpower : s.cfg.cfgPower.toNat ≤ 31) :
    configureAll s = setReception ((s.identified word nets nodes bcasts).did dev
      (rateEvents s.cfg ++ modulationEvents s.cfg a.dataModul ++ addressEvents s.cfg a word node bcast)) := by
  have hmodul : s.devIn = a.dataModul ::
      a.paLevel :: ((if syncWordValid s.cfg word then [a.syncConfig] else []) ++ dev) := by simpa using hdev
  rw [configureAll_eq, setRates_ok href hregs hrate, bind_done,
    setModulationType_ok (by exact href) (by exact hregs) (by exact hmodul) (by exact hmodulation), bind_done,
    setPowerAndAddresses_ok (by exact href) (by exact hregs) (by exact hnet) (by exact hnode) (by exact hbcast) rfl
      (by exact hpower), bind_done]
  simp [State.did, State.identified]

end

end

end

/-! ## Where Init halts -/

/-- INIT as a command of its own. -/
theorem exec_init {s : State} (hrun : s.halted = false) :
    exec .init s = .next (initEngine s.started).finish := by
  rw [exec, execInit, command_running hrun]

/-- An assertion in the configuration sequence ends Init (R223). -/
theorem exec_init_stops {s t : State} (hrun : s.halted = false) (h : configureAll s.started = .stop t) :
    exec .init s = .next t := by
  rw [exec_init hrun, initEngine, h, bind_stop, finish_stop]

/-- The state of Init halted, in the words of the statements (R166, R223). -/
theorem halt_did_started (s : State) (dev : List Byte) (events : List Event) :
    ((s.started.did dev events).halt 0x05) = s.initHalted dev events [] := by
  simp [State.did, State.started, State.halt, State.initHalted]

/-- Settles O46: the laws of the sections before the argument out of range, then the assertion of its setter. -/
theorem initHaltsAtAnArgumentOutOfRange : Obligations.InitHaltsAtAnArgumentOutOfRange := by
  rintro a word node bcast dev nodes bcasts nets s _ hs href rfl
  obtain ⟨hrun, hregs⟩ := hs.atStart
  refine ⟨?bitRate, ?modulation, ?power, ?reception⟩
  case bitRate =>
    rintro rfl hrate
    refine (exec_init_stops hrun ?_).trans (congrArg _ (halt_did_started s _ _))
    rw [configureAll_eq, setRates_outside (s := s.started) href hregs hrate, bind_stop]
    rfl
  case modulation =>
    rintro rfl hrate hmodulation
    refine (exec_init_stops hrun ?_).trans (congrArg _ (halt_did_started s _ _))
    rw [configureAll_eq, setRates_ok (s := s.started) href hregs hrate, bind_done,
      setModulationType_outside (by exact href) (by exact hmodulation), bind_stop]
    rfl
  case power =>
    intro hdev hrate hmodulation hpower
    refine (exec_init_stops hrun ?_).trans (congrArg _ (halt_did_started s _ _))
    rw [configureAll_eq, setRates_ok (s := s.started) href hregs hrate, bind_done,
      setModulationType_ok (by exact href) (by exact hregs) (by exact hdev) (by exact hmodulation), bind_done,
      setPowerAndAddresses_outside (by exact href) (by exact hpower), bind_stop, State.did_did]
    rfl
  case reception =>
    rintro hrate hmodulation hpower hnet hnode hbcast _ _ rfl rfl
    have hidentified {rest : List Byte} := configureAll_identified (s := s.started) (a := a) (dev := rest) href hregs
      hnet hnode hbcast (hrate := hrate) (hmodulation := hmodulation) (hpower := hpower)
    refine ⟨fun hdev hfilter => ?filtering, fun hdev hfilter hformat => ?format,
      fun hdev hfilter hformat hcond => ?condition⟩
    case filtering =>
      refine exec_init_stops hrun ?_
      rw [hidentified hdev, setReception, setAddressFiltering_outside (by exact href) (by exact hfilter), bind_stop]
      rfl
    case format =>
      refine exec_init_stops hrun ?_
      rw [hidentified hdev, setReception,
        setAddressFiltering_ok (by exact href) (by exact hregs) rfl (by exact hfilter), bind_done,
        setPacketHandling_outside (by exact href) (by exact hformat), bind_stop, State.did_did]
      rfl
    case condition =>
      refine exec_init_stops hrun ?_
      rw [hidentified hdev, setReception,
        setAddressFiltering_ok (by exact href) (by exact hregs) rfl (by exact hfilter), bind_done,
        setPacketHandling_ok (a := a) (by exact href) (by exact hregs) rfl (by exact hformat), bind_done,
        setFifoThresholdCondition_outside (by exact href) (by exact hcond), State.did_did, State.did_did,
        ← List.append_assoc]
      rfl

/-! ## The whole of Init -/

/-- The CFG arguments in range, one by one. -/
theorem initArgsOk_iff (p : Params) : initArgsOk p = true ↔
    1 ≤ p.cfgBitRate.toNat ∧ p.cfgModulation.toNat ≤ 1 ∧ p.cfgPower.toNat ≤ 31 ∧ p.cfgAddrFilter.toNat ≤ 2 ∧
      p.cfgPacketFormat.toNat ≤ 1 ∧ p.cfgFifoCond.toNat ≤ 1 := by
  simp [initArgsOk, and_assoc]

/-- What the whole configuration sequence does at the ports: all of Init's events but the mode change (R166). -/
def configureEvents (p : Params) (a : InitAnswers) (word : List Byte) (node bcast : Byte) : List Event :=
  rateEvents p ++ modulationEvents p a.dataModul ++ addressEvents p a word node bcast
    ++ (filteringEvents p a.filter ++ packetEvents p a
      ++ [readEvent p 0x3C a.fifoThresh, writeEvent p 0x3C ((a.fifoThresh &&& 0x7F) ||| (p.cfgFifoCond <<< 7))])

theorem initEvents_eq (p : Params) (a : InitAnswers) (word : List Byte) (node bcast : Byte) :
    initEvents p a word node bcast =
      configureEvents p a word node bcast ++ modeEvents p a.opMode (modeCode p.modeCodes (homeMode p)) := by
  simp only [initEvents, configureEvents, homeMode, List.append_assoc]
  cases p.home <;> rfl

/-- The state in which Init changes the mode: the configuration done, the slot zeroed and HOME entered (R166). The
device's answers that are left are those of the mode change and its wait. -/
def State.configured (s : State) (a : InitAnswers) (word : List Byte) (node bcast : Byte) (nets : List (List Byte))
    (nodes bcasts : List Byte) : State :=
  { s.identified word nets nodes bcasts with
    slot := zeroFrame, top := homeTop s.cfg, trace := s.trace ++ configureEvents s.cfg a word node bcast }

/-- The end of Init: nothing follows its wait, however it ended (R187). -/
theorem afterWait_init {ready : Bool} {s : State} (hresult : s.result = none) :
    (afterWait .init ready s).finish = s := by
  rw [afterWait, finish_done, returned_none hresult]

/-- The three ways in which the first poll of Init's wait comes out (R113, R187). -/
theorem initWait_outcomes {s : State} {code : BitVec 3} {v i : Byte} {dev : List Byte} {t0 timeout : Millis}
    {clk : List Millis} (hregs : regMapOk s.cfg = true) {f : Flow (Option Value)}
    (hf : f = pollWait ⟨t0, timeout, .init⟩ (afterWait .init) (s.modeWait code v (i :: dev) t0 clk)) {base : State}
    (hbase : base = s.modePoll code v i dev t0 clk) :
    (modeReadyFlag s.cfg.regs i = true → f.finish = base) ∧
    (∀ (t : Millis) (clk' : List Millis), modeReadyFlag s.cfg.regs i = false → clk = t :: clk' →
      (timeout.toNat ≤ (t - t0).toNat → f.finish = { base with
        clkIn := clk', trace := base.trace ++ [.clock t], log := base.log ++ [(.warning, 0x11)] }) ∧
      ((t - t0).toNat < timeout.toNat → f.finish = { base with
        clkIn := clk', trace := base.trace ++ [.clock t], control := some (.wait ⟨t0, timeout, .init⟩) })) := by
  subst hf hbase
  refine ⟨fun hi => ?ready, ?clear⟩
  case ready => rw [modeWait_ready hregs hi, afterWait_init rfl]
  case clear =>
    rintro t clk' hi rfl
    refine ⟨fun ht => ?late, fun ht => ?again⟩
    case late =>
      rw [modeWait_late hregs hi ht, afterWait_init rfl]
      rfl
    case again =>
      rw [modeWait_again hregs hi ht, finish_stop]
      rfl

section
variable {s : State} {a : InitAnswers} {word : List Byte} {node bcast i : Byte} {dev nodes bcasts : List Byte}
  {nets : List (List Byte)} {t0 : Millis} {clk : List Millis}
  (hregs : regMapOk s.cfg = true) (href : s.cfg.setters = Config.referenceSetters) (hargs : initArgsOk s.cfg = true)
  (hdev : s.devIn = a.script (syncWordValid s.cfg word) ++ i :: dev)
  (hnet : s.netIn = word :: nets) (hnode : s.nodeIn = node :: nodes) (hbcast : s.bcastIn = bcast :: bcasts)
include hregs href hargs hdev hnet hnode hbcast

/-- The configuration sequence, with every argument in range (R166). -/
theorem configureAll_ok : configureAll s = .done () ((s.identified word nets nodes bcasts).did (a.opMode :: i :: dev)
    (configureEvents s.cfg a word node bcast)) := by
  obtain ⟨hrate, hmodulation, hpower, hfilter, hformat, hcond⟩ := (initArgsOk_iff s.cfg).1 hargs
  have hscript : s.devIn = [a.dataModul, a.paLevel] ++ (if syncWordValid s.cfg word then [a.syncConfig] else []) ++
      (a.filter :: a.format :: a.crc :: a.autoClear :: a.fifoThresh :: a.opMode :: i :: dev) := by
    simpa [InitAnswers.script] using hdev
  rw [configureAll_identified href hregs hnet hnode hbcast hscript hrate hmodulation hpower,
    setReception_ok (a := a) (by exact href) (by exact hregs) rfl (by exact hfilter) (by exact hformat)
      (by exact hcond), State.did_did]
  rfl

section
variable (hclk : s.clkIn = t0 :: clk) (hcontrol : s.control = none) (hresult : s.result = none)
include hclk hcontrol hresult

/-- Init within a command comes to the first poll of its wait, once it has changed the mode (R166). -/
theorem initEngine_polls : initEngine s = pollWait ⟨t0, s.cfg.timeoutMs, .init⟩ (afterWait .init)
    ((s.configured a word node bcast nets nodes bcasts).modeWait
      (modeCode s.cfg.modeCodes (homeMode s.cfg)) a.opMode (i :: dev) t0 clk) := by
  rw [initEngine, configureAll_ok hregs href hargs hdev hnet hnode hbcast, bind_done]
  exact setMode_wait (by exact hregs) hcontrol hresult rfl hclk

/-- The three ways in which Init's first poll comes out, `base` being the state after it (R113, R166, R187). -/
theorem initEngine_outcomes {base : State} (hbase : base = { s with
      devIn := dev, netIn := nets, nodeIn := nodes, bcastIn := bcasts, clkIn := clk, slot := zeroFrame,
      top := homeTop s.cfg, log := s.log ++ syncLog s.cfg word,
      trace := s.trace ++ initEvents s.cfg a word node bcast ++ [.clock t0, readEvent s.cfg s.cfg.regs.irqFlags1 i] }) :
    (modeReadyFlag s.cfg.regs i = true → (initEngine s).finish = base) ∧
    (∀ (t : Millis) (clk' : List Millis), modeReadyFlag s.cfg.regs i = false → clk = t :: clk' →
      (s.cfg.timeoutMs.toNat ≤ (t - t0).toNat → (initEngine s).finish = { base with
        clkIn := clk', trace := base.trace ++ [.clock t], log := base.log ++ [(.warning, 0x11)] }) ∧
      ((t - t0).toNat < s.cfg.timeoutMs.toNat → (initEngine s).finish = { base with
        clkIn := clk', trace := base.trace ++ [.clock t], control := some (.wait ⟨t0, s.cfg.timeoutMs, .init⟩) })) := by
  have hpolled : base = (s.configured a word node bcast nets nodes bcasts).modePoll
      (modeCode s.cfg.modeCodes (homeMode s.cfg)) a.opMode i dev t0 clk := by
    rw [hbase, initEvents_eq]
    simp [State.modePoll, State.configured, State.identified, hcontrol, hresult]
  exact initWait_outcomes (s := s.configured a word node bcast nets nodes bcasts) hregs
    (initEngine_polls hregs href hargs hdev hnet hnode hbcast hclk hcontrol hresult) hpolled

end

end

/-- The NotInitialized tick is a warning and then Init (R192). -/
theorem exec_tickNotInitialized {s : State} (hrun : s.halted = false) :
    exec .tickNotInitialized s = .next (initEngine (s.started.logDiag .notInitialized)).finish := by
  rw [exec, execTickNotInitialized, command_running hrun, tickNotInitialized]

/-- Settles O45: both commands are Init, from the start of a command and from there with the warning logged. -/
theorem initConfiguresAndEntersHome : Obligations.InitConfiguresAndEntersHome := by
  rintro a word node bcast i dev nodes bcasts nets t0 clk s base hs href hargs hdev hnet hnode hbcast hclk rfl
  obtain ⟨hrun, hregs⟩ := hs.atStart
  obtain ⟨hinit_ready, hinit_clear⟩ :=
    initEngine_outcomes (s := s.started) hregs href hargs hdev hnet hnode hbcast hclk rfl rfl rfl
  obtain ⟨htick_ready, htick_clear⟩ :=
    initEngine_outcomes (s := s.started.logDiag .notInitialized) hregs href hargs hdev hnet hnode hbcast hclk rfl rfl
      rfl
  have hwarned : s.log ++ (Level.warning, (0x10 : Byte)) :: syncLog s.cfg word =
      (s.log ++ [(.warning, 0x10)]) ++ syncLog s.cfg word := List.append_cons _ _ _
  rw [exec_init hrun, exec_tickNotInitialized hrun, hwarned]
  refine ⟨fun hi => ⟨congrArg _ (hinit_ready hi), congrArg _ (htick_ready hi)⟩, fun t clk' hi hclk' => ?clear⟩
  obtain ⟨hinit_late, hinit_again⟩ := hinit_clear t clk' hi hclk'
  obtain ⟨htick_late, htick_again⟩ := htick_clear t clk' hi hclk'
  exact ⟨fun ht => ⟨congrArg _ (hinit_late ht), congrArg _ (htick_late ht)⟩,
    fun ht => ⟨congrArg _ (hinit_again ht), congrArg _ (htick_again ht)⟩⟩

end Sys2Proof.Machine
end

