-- ==== Sys2Proof/Proofs/Payload.lean ====
section
/-!
HandlePayload as a command and in the middle of one (R154, R175, R186, R208 to R211; O33, O34). The laws of
Laws/Receive.lean take it to the dispatch of the decoded frame; what is decoded is one pair whether or not the length
checks pass (`decodeFrameBytes_received`), and how an upcall ends is one law per answer of the host (`hostRuns_returns`,
`hostRuns_held`, `hostRuns_stops`), which the callback of a sent packet shares.
-/

namespace Sys2Proof.Machine

/-! ## How an upcall ends -/

section
variable {s w : State} {nested : List (List Byte)} {host : List HostAnswer}

/-- The host's commands run to their end, and it returns (R175, R186). -/
theorem hostRuns_returns {r : Bool} (hhost : s.hostIn = ⟨nested, some r⟩ :: host)
    (hnested : nestedCommands nested { s with hostIn := host } = .done () w) : hostRuns s = .done r w := by
  rw [hostRuns_answer hhost, hnested, bind_done]

/-- The host's commands run to their end, and it never returns (R175; log 5). -/
theorem hostRuns_held (hhost : s.hostIn = ⟨nested, none⟩ :: host)
    (hnested : nestedCommands nested { s with hostIn := host } = .done () w) :
    hostRuns s = .stop { w with control := some .held } := by
  rw [hostRuns_answer hhost, hnested, bind_done]

/-- One of the host's commands stops, and the upcall there (R186, R223). -/
theorem hostRuns_stops {result : Option Bool} (hhost : s.hostIn = ⟨nested, result⟩ :: host)
    (hnested : nestedCommands nested { s with hostIn := host } = .stop w) : hostRuns s = .stop w := by
  rw [hostRuns_answer hhost, hnested, bind_stop]

end

section
variable {s u w : State} {cb : Byte} {nested : List (List Byte)} {host : List HostAnswer}
  (hu : u = { s with hostIn := host, trace := s.trace ++ [.callback cb true] })
include hu

/-- A callback that returns, whatever it answers (R175, R204). -/
theorem callCallback_returns {r : Bool} (hhost : s.hostIn = ⟨nested, some r⟩ :: host)
    (hnested : nestedCommands nested u = .done () w) : callCallback cb s = .done () w := by
  subst hu
  rw [callCallback, hostRuns_returns (by exact hhost) (by exact hnested), bind_done]

/-- A callback that never returns (R175; log 5). -/
theorem callCallback_held (hhost : s.hostIn = ⟨nested, none⟩ :: host)
    (hnested : nestedCommands nested u = .done () w) : callCallback cb s = .stop { w with control := some .held } := by
  subst hu
  rw [callCallback, hostRuns_held (by exact hhost) (by exact hnested), bind_stop]

/-- A callback one of whose commands stops (R186, R223). -/
theorem callCallback_stops {result : Option Bool} (hhost : s.hostIn = ⟨nested, result⟩ :: host)
    (hnested : nestedCommands nested u = .stop w) : callCallback cb s = .stop w := by
  subst hu
  rw [callCallback, hostRuns_stops (by exact hhost) (by exact hnested), bind_stop]

end

/-! ## What is decoded -/

/-- A received frame decodes to a header and content that it carries, whether or not it passes the length checks
(R154, R155). -/
theorem decodeFrameBytes_received (p : Params) (sample : Option Byte) (missing : Nat → Byte) (b : List Byte) :
    ∃ (h : Header) (c : Content),
      decodeFrameBytes (sample.map fun v => saturateI8 (rssiDbm p.rssiConv v)) missing b = (h, c) ∧
      (frameLengthsOk b → h = receivedHeader p sample b ∧ c = receivedContent b) ∧
      (¬ frameLengthsOk b → carriesReceived p sample b h c) := by
  by_cases hlengths : frameLengthsOk b
  · refine ⟨_, _, decodeFrameBytes_ok hlengths p _ missing, fun _ => ⟨?header, rfl⟩, fun hn => absurd hlengths hn⟩
    cases sample <;> rfl
  · obtain ⟨h, c, hdecode, hcarries⟩ := decodeFrameBytes_loose hlengths p sample missing
    exact ⟨h, c, hdecode, fun hok => absurd hok hlengths, fun _ => hcarries⟩

/-! ## HandlePayload as a command -/

section
variable {s t : State} (hrun : s.halted = false)
include hrun

/-- HandlePayload that is done returns its answer (R208). -/
theorem exec_handlePayload_done {b : Bool} (h : handlePayload s.started = .done b t) :
    exec .handlePayload s = .next { t with result := some (.bool b) } := by
  rw [exec, execHandlePayload, command_running hrun, h, boolResult_done, finish_done]
  rfl

/-- HandlePayload that stops leaves the state it stopped in (R175, R223). -/
theorem exec_handlePayload_stop (h : handlePayload s.started = .stop t) : exec .handlePayload s = .next t := by
  rw [exec, execHandlePayload, command_running hrun, h, boolResult_stop, finish_stop]

end

/-- HandlePayload that is done is done inside the same command. -/
theorem handlePayload_sameCommand {u x : State} {b : Bool} (h : handlePayload u = .done b x) : SameCommand u x := by
  have hkeeps := keeps_handlePayload sameCommand_calls u
  rwa [h] at hkeeps

/-- HandlePayload in the middle of a command: where run on its own it would leave the engine running and between
commands, it is done, inside the same command. -/
theorem handlePayload_within {u t : State} (hrun : u.halted = false) (hcontrol : u.control = none)
    (hresult : u.result = none) (ht : exec .handlePayload u = .next t) (ht_run : t.halted = false)
    (ht_control : t.control = none) :
    ∃ (b : Bool) (x : State), handlePayload u = .done b x ∧ SameCommand u x ∧
      t = { x with result := some (.bool b) } := by
  rw [exec_handlePayload hrun hcontrol hresult] at ht
  cases hflow : handlePayload u with
  | done b x =>
    rw [hflow] at ht
    cases ht
    exact ⟨b, x, rfl, handlePayload_sameCommand hflow, rfl⟩
  | stop x =>
    have hkeeps := keeps_handlePayload sameCommand_calls u
    rw [hflow] at ht hkeeps
    cases ht
    obtain hhalted | hkept := hkeeps
    · exact absurd (hhalted.symm.trans ht_run) Bool.noConfusion
    · exact absurd ht_control hkept

/-- Settles O33: an empty FIFO, and a length byte that the FIFO cannot hold. -/
theorem handlePayloadRejectsTheLength : Obligations.HandlePayloadRejectsTheLength := by
  rintro f rest s hs hdev
  obtain ⟨hrun, hregs⟩ := hs.atStart
  refine ⟨fun hf => ?empty, ?oversize⟩
  case empty => exact exec_handlePayload_done hrun (handlePayload_empty hregs hdev hf)
  case oversize =>
    rintro n dev hf rfl hn
    exact exec_handlePayload_done hrun (handlePayload_oversize hregs hdev hf hn)

/-! ## The dispatch -/

section
variable {s : State} {f n : Byte} {got : List (Byte × Byte)} {stop sample : Option Byte} {dev : List Byte}
  (hregs : regMapOk s.cfg = true) (hstamp : s.cfg.rssiStamp = sample.isSome)
  (hf : fifoNotEmptyFlag s.cfg.regs f = true) (hn : n.toNat + 1 ≤ s.cfg.fifoSize)
  (hgot : fifoReadAnswers s.cfg.regs n.toNat got stop)
  (hdev : s.devIn = f :: n :: (fifoReadScript got stop ++ sample.toList ++ dev))
include hregs hstamp hf hn hgot hdev

/-- Under RX_STRICT a frame that fails the length checks is dropped (R154, R208). -/
theorem handlePayload_dropped (hlengths : ¬ frameLengthsOk (n :: got.map Prod.snd)) (hstrict : s.cfg.rxStrict = true) :
    handlePayload s = .done false ((s.afterFrame f n got stop sample dev).logDiag .rxMalformed) := by
  have hbad : frameWellFormed (n :: got.map Prod.snd) = false := by
    rw [Bool.eq_false_iff, ne_eq, frameWellFormed_iff]
    exact hlengths
  rw [handlePayload_frame hregs hstamp hf hn hgot hdev, hbad, hstrict]
  rfl

/-- Every other frame is dispatched as what it decodes to (R208, R211). -/
theorem handlePayload_dispatched (hkept : frameLengthsOk (n :: got.map Prod.snd) ∨ s.cfg.rxStrict = false)
    {h : Header} {c : Content}
    (hdecode : decodeFrameBytes (sample.map fun v => saturateI8 (rssiDbm s.cfg.rssiConv v))
      (Config.missingByte s.draws) (n :: got.map Prod.snd) = (h, c)) :
    handlePayload s = dispatchFrame (h, c) (s.afterFrame f n got stop sample dev).drawn := by
  have hpass : (s.cfg.rxStrict && !frameWellFormed (n :: got.map Prod.snd)) = false := by
    obtain hlengths | hloose := hkept
    · rw [(frameWellFormed_iff _).2 hlengths, Bool.not_true, Bool.and_false]
    · rw [hloose, Bool.false_and]
  rw [handlePayload_frame hregs hstamp hf hn hgot hdev, hpass, if_neg Bool.false_ne_true, hdecode]

/-- A frame that passes the length checks and whose handler answers at once (R175, R211). -/
theorem handlePayload_handled {hid : Byte} {r : Bool} {host : List HostAnswer}
    (hlengths : frameLengthsOk (n :: got.map Prod.snd))
    (hhandler : s.handlers[((n :: got.map Prod.snd).getD 11 0).toNat]? = some (some hid))
    (hhost : s.hostIn = ⟨[], some r⟩ :: host) :
    handlePayload s = .done r { s.afterFrame f n got stop sample dev with
      draws := s.draws + 1, hostIn := host,
      trace := (s.afterFrame f n got stop sample dev).trace ++
        [.handlerCall hid (receivedHeader s.cfg sample (n :: got.map Prod.snd))
          (receivedContent (n :: got.map Prod.snd)), .handlerReturn r] } := by
  obtain ⟨h, c, hdecode, hreceived, -⟩ :=
    decodeFrameBytes_received s.cfg sample (Config.missingByte s.draws) (n :: got.map Prod.snd)
  obtain ⟨rfl, rfl⟩ := hreceived hlengths
  rw [handlePayload_dispatched hregs hstamp hf hn hgot hdev (.inl hlengths) hdecode,
    dispatchFrame_handler (by exact hhandler) (by exact hhost)]
  rfl

end

/-- Settles O34: the frame is dropped, or dispatched as what it decodes to, which has no handler or is one upcall. -/
theorem handlePayloadDispatches : Obligations.HandlePayloadDispatches := by
  rintro f n got stop sample dev _ s _ hs hstamp hf hn hgot rfl hdev rfl
  obtain ⟨hrun, hregs⟩ := hs.atStart
  refine ⟨fun hlengths hstrict => ?dropped, fun hkept => ?dispatched⟩
  case dropped =>
    exact exec_handlePayload_done hrun
      (handlePayload_dropped (s := s.started) hregs hstamp hf hn hgot hdev hlengths hstrict)
  case dispatched =>
    obtain ⟨h, c, hdecode, hreceived, hcarries⟩ :=
      decodeFrameBytes_received s.cfg sample (Config.missingByte s.draws) (n :: got.map Prod.snd)
    have hdispatch := handlePayload_dispatched (s := s.started) hregs hstamp hf hn hgot hdev hkept hdecode
    refine ⟨h, c, hreceived, hcarries, fun htype => ?range, fun htype => ?noHandler,
      fun hid r host htype hhost => ?answers, ?upcall⟩
    case range => exact exec_handlePayload_done hrun (hdispatch.trans (dispatchFrame_range (by exact htype)))
    case noHandler => exact exec_handlePayload_done hrun (hdispatch.trans (dispatchFrame_noHandler (by exact htype)))
    case answers =>
      exact exec_handlePayload_done hrun (hdispatch.trans (dispatchFrame_handler (by exact htype) (by exact hhost)))
    case upcall =>
      rintro hid nested answer host _ w htype hhost rfl
      rw [dispatchFrame_upcall (by exact htype), callHandler] at hdispatch
      refine ⟨?returns, ?held, fun hnested => ?stops⟩
      case returns =>
        rintro r hnested rfl
        rw [hostRuns_returns (by exact hhost) (by exact hnested), bind_done] at hdispatch
        exact exec_handlePayload_done hrun hdispatch
      case held =>
        rintro hnested rfl
        rw [hostRuns_held (by exact hhost) (by exact hnested), bind_stop] at hdispatch
        exact exec_handlePayload_stop hrun hdispatch
      case stops =>
        rw [hostRuns_stops (by exact hhost) (by exact hnested), bind_stop] at hdispatch
        exact exec_handlePayload_stop hrun hdispatch

end Sys2Proof.Machine
end

