-- ==== Sys2Proof/Proofs/Ticks.lean ====
section
/-!
UPDATE and the tick actions that end in one step without a wait (R177, R193, R194, R198 to R207; O35 to O42). Each is
one command whose body is the laws of the adapter's operations one after another, under the answers that its rule's branch
asks for.
-/

namespace Sys2Proof.Machine

/-! ## Update -/

/-- UPDATE is the tick action of the engine's state (R177, R194, R201). -/
theorem exec_update (s : State) : exec .update s = exec (tickOf s.top) s := by
  have hstarted : s.started.top = s.top := rfl
  rw [exec, execUpdate, command, updateEngine, hstarted]
  cases s.top with
  | listening ls => cases ls <;> rfl
  | sending ss => cases ss <;> rfl
  | notInitialized => rfl
  | idle => rfl
  | sleeping => rfl

/-- The state word of a top-level state decodes to its tick action (R80, R178). -/
theorem decode_stateWord (s : State) : decode ⟨.state, [s.stateWord]⟩ = .ok (tickOf s.top) := by
  rw [State.stateWord]
  cases s.top with
  | listening ls => cases ls <;> rfl
  | sending ss => cases ss <;> rfl
  | notInitialized => rfl
  | idle => rfl
  | sleeping => rfl

/-- Settles O35. -/
theorem updateRunsTheTickOfItsState : Obligations.UpdateRunsTheTickOfItsState :=
  fun s => ⟨exec_update s, decode_stateWord s⟩

/-! ## Ticks that read at most one flag -/

/-- The Idle tick enters Sending(Init) for a staged packet (R193). -/
theorem exec_tickIdle {s : State} (hrun : s.halted = false) : exec .tickIdle s = .next { s with
    control := none, result := none, top := if s.slot.header.target ≠ 0 then .sending .init else s.top } := by
  rw [exec, execTickIdle, command_running hrun, tickIdle, finish_done]
  by_cases hstaged : s.slot.header.target ≠ 0
  · rw [if_pos ((packetStaged_iff s.started).2 hstaged), if_pos hstaged]
    rfl
  · rw [if_neg (mt (packetStaged_iff s.started).1 hstaged), if_neg hstaged]
    rfl

/-- Settles O36: UPDATE in Idle is this tick. -/
theorem tickIdleStartsSending : Obligations.TickIdleStartsSending := by
  rintro s _ hrun rfl
  refine ⟨exec_tickIdle hrun, fun htop => ?_⟩
  have htick : tickOf s.top = .tickIdle := congrArg tickOf htop
  rw [exec_update, htick]
  exact exec_tickIdle hrun

/-- Settles O37: each of the three is the command of `skipTick`. -/
theorem emptyTicks : Obligations.EmptyTicks := by
  rintro s _ hrun rfl
  have hskip : command skipTick s = .next { s with control := none, result := none } := command_running hrun
  exact ⟨hskip, hskip, hskip⟩

/-- Settles O38: one read and a branch on its flag; one mode change. -/
theorem sendAckAndSendingInitTicks : Obligations.SendAckAndSendingInitTicks := by
  rintro _ _ s hs rfl rfl
  obtain ⟨hrun, hregs⟩ := hs.atStart
  refine ⟨?sendAck, ?init⟩
  case sendAck =>
    rw [exec, execTickListeningSendAck, command_running hrun, tickListeningSendAck, isModeReady_ok hregs, bind_done,
      finish_done]
    by_cases hready : modeReadyFlag s.cfg.regs (s.deviceAnswer s.cfg.regs.irqFlags1) = true
    · rw [if_pos hready, if_pos (by exact hready)]
      rfl
    · rw [if_neg hready, if_neg (by exact hready)]
      rfl
  case init =>
    rw [exec, execTickSendingInit, command_running hrun, tickSendingInit, setMode_ok hregs, bind_done, finish_done]
    exact congrArg (fun t : State => Host.Outcome.next (t.withTop (.sending .writing)))
      (returned_rewritten_started s s.cfg.regs.opMode _)

/-! ## Sleeping -/

/-- Settles O42: the three tests in their order, each that fails ending the tick. -/
theorem tickSleepingKeepsTheDeviceAsleep : Obligations.TickSleepingKeepsTheDeviceAsleep := by
  intro m f v dev rest s hs
  obtain ⟨hrun, hregs⟩ := hs.atStart
  rw [exec, execTickSleeping, command_running hrun, tickSleeping]
  refine ⟨fun hactive => ?active, fun hsending hreceiving hdev => ?idle⟩
  case active =>
    rw [if_pos ((active_iff s.started).2 hactive)]
    rfl
  case idle =>
    have hinactive : ¬ s.started.active = true := by
      rw [active_iff]
      rintro (⟨ss, htop⟩ | htop)
      · exact hsending ss htop
      · exact hreceiving htop
    rw [if_neg hinactive, getMode_answer hregs hdev, bind_done]
    refine ⟨fun hasleep => ?asleep, ?awake⟩
    case asleep =>
      rw [if_pos (by exact hasleep)]
      rfl
    case awake =>
      rintro hawake rfl
      rw [if_neg (by exact hawake), isModeReady_answer (v := f) (dev := v :: dev) (by exact hregs) rfl, bind_done]
      refine ⟨fun hf => ?notReady, fun hf => ?ready⟩
      case notReady =>
        rw [if_neg (by simpa using hf)]
        simp [State.started, State.returned]
      case ready =>
        rw [if_pos (by exact hf), setMode_answer (v := v) (dev := dev) (by exact hregs) rfl, bind_done]
        simp [State.started, State.returned, modeCode]

/-! ## Sending -/

/-- Settles O39: the two FIFO writes under their own answers, then the mode change and the high-power writes. -/
theorem tickSendingWritingSendsTheFrame : Obligations.TickSendingWritingSendsTheFrame := by
  intro f v hf cf dev hs cs s hready
  obtain ⟨hrun, hregs⟩ := hready.atStart
  rw [exec, execTickSendingWriting, command_running hrun, tickSendingWriting]
  refine ⟨fun hdev hflag => ?waits, fun hdev hflag hheader hcontent => ?writes⟩
  case waits =>
    rw [isModeReady_answer hregs hdev, bind_done, if_neg (by simpa using hflag)]
    rfl
  case writes =>
    rw [isModeReady_answer hregs hdev, bind_done, if_pos (by exact hflag),
      writeToFifo_answers _ hf (cf ++ cs.toList ++ v :: dev) hs _ (by exact hregs) (by exact hheader) (by simp),
      bind_done, writeToFifo_answers _ cf (v :: dev) cs _ (by exact hregs) (by exact hcontent) (by simp), bind_done,
      setMode_answer (v := v) (dev := dev) (by exact hregs) rfl, bind_done, setHighPowerSettings_ok (by exact hregs),
      bind_done]
    rfl

/-- A command that has read RegIrqFlags2 and nothing else. -/
def State.flagsRead (s : State) (f : Byte) (rest : List Byte) : State :=
  { s with
    control := none, result := none, devIn := rest, trace := s.trace ++ [readEvent s.cfg s.cfg.regs.irqFlags2 f] }

section
variable {s : State} {f : Byte} {rest : List Byte} (hs : s.Ready) (hdev : s.devIn = f :: rest)
include hs hdev

theorem isPacketSent_flagsRead :
    isPacketSent s.started = .done (packetSentFlag s.cfg.regs f) (s.flagsRead f rest) :=
  isPacketSent_answer (s := s.started) hs.2 hdev

theorem isPayloadReady_flagsRead :
    isPayloadReady s.started = .done (payloadReadyFlag s.cfg.regs f) (s.flagsRead f rest) :=
  isPayloadReady_answer (s := s.started) hs.2 hdev

/-- The Transmitting tick of a packet that is not sent yet (R204). -/
theorem exec_tickSendingTransmitting_unsent (hsent : packetSentFlag s.cfg.regs f = false) :
    exec .tickSendingTransmitting s = .next (s.flagsRead f rest) := by
  rw [exec, execTickSendingTransmitting, command_running hs.1, tickSendingTransmitting,
    isPacketSent_flagsRead hs hdev, bind_done, hsent, if_neg Bool.false_ne_true]
  rfl

section
variable (hsent : packetSentFlag s.cfg.regs f = true)
include hsent

/-- The Transmitting tick of a packet that is sent and asks for an ACK: Receiver, high power off and WaitForAck
(R204). -/
theorem exec_tickSendingTransmitting_ack {v : Byte} {dev : List Byte} (hrest : rest = v :: dev)
    (hack : s.slot.header.ackRequested = true) :
    exec .tickSendingTransmitting s = .next { s.flagsRead f dev with
      top := .sending .waitForAck,
      trace := (s.flagsRead f dev).trace ++ modeEvents s.cfg v s.cfg.modeCodes.receiver
        ++ highPowerEvents s.cfg false } := by
  subst hrest
  rw [exec, execTickSendingTransmitting, command_running hs.1, tickSendingTransmitting,
    isPacketSent_flagsRead hs hdev, bind_done, if_pos hsent, if_pos (by exact hack),
    setMode_answer (v := v) (dev := dev) (by exact hs.2) rfl, bind_done, setHighPowerSettings_ok (by exact hs.2),
    bind_done]
  rfl

variable (hack : s.slot.header.ackRequested = false)
include hack

/-- The Transmitting tick of a packet that is sent, without an ACK and without a callback (R204). -/
theorem exec_tickSendingTransmitting_noCallback (hcallback : s.slot.callback = none) :
    exec .tickSendingTransmitting s = .next { s.flagsRead f rest with top := .idle, slot := zeroFrame } := by
  have hslot : (s.flagsRead f rest).slot = s.slot := rfl
  rw [exec, execTickSendingTransmitting, command_running hs.1, tickSendingTransmitting,
    isPacketSent_flagsRead hs hdev, bind_done, if_pos hsent, hslot, hack, if_neg Bool.false_ne_true, hcallback]
  rfl

/-- The Transmitting tick of a packet that is sent, without an ACK and with a callback, whose end goes on to the zeroed
slot and Idle (R204). -/
theorem exec_tickSendingTransmitting_callback {cb : Byte} (hcallback : s.slot.callback = some cb) :
    exec .tickSendingTransmitting s = .next ((callCallback cb (s.flagsRead f rest)).bind
      fun _ t => .done none ((t.withSlot zeroFrame).withTop .idle)).finish := by
  have hslot : (s.flagsRead f rest).slot = s.slot := rfl
  rw [exec, execTickSendingTransmitting, command_running hs.1, tickSendingTransmitting,
    isPacketSent_flagsRead hs hdev, bind_done, if_pos hsent, hslot, hack, if_neg Bool.false_ne_true, hcallback]

end

/-- The WaitForAck tick without a payload (R205). -/
theorem exec_tickSendingWaitForAck_none (hpayload : payloadReadyFlag s.cfg.regs f = false) :
    exec .tickSendingWaitForAck s = .next (s.flagsRead f rest) := by
  rw [exec, execTickSendingWaitForAck, command_running hs.1, tickSendingWaitForAck, isPayloadReady_flagsRead hs hdev,
    bind_done, hpayload, if_neg Bool.false_ne_true]
  rfl

/-- The WaitForAck tick with a payload: where HandlePayload does not stop the command, Standby, the slot zeroed and Idle
follow (R205). -/
theorem exec_tickSendingWaitForAck_payload {t : State} (hpayload : payloadReadyFlag s.cfg.regs f = true)
    (ht : exec .handlePayload (s.flagsRead f rest) = .next t) (ht_run : t.halted = false)
    (ht_control : t.control = none) :
    exec .tickSendingWaitForAck s = .next { t with
      result := none, devIn := t.devIn.tail, top := .idle, slot := zeroFrame,
      trace := t.trace ++ modeEvents s.cfg (t.deviceAnswer s.cfg.regs.opMode) s.cfg.modeCodes.standby } := by
  obtain ⟨b, x, hflow, hsame, rfl⟩ := handlePayload_within (u := s.flagsRead f rest) hs.1 rfl rfl ht ht_run ht_control
  have hcfg : x.cfg = s.cfg := hsame.cfg
  have hregs : regMapOk x.cfg = true := hcfg ▸ hs.2
  rw [exec, execTickSendingWaitForAck, command_running hs.1, tickSendingWaitForAck, isPayloadReady_flagsRead hs hdev,
    bind_done, if_pos hpayload, hflow, bind_done, setMode_ok hregs, bind_done, finish_done]
  simp [State.afterRead, State.afterWrite, State.withSlot, State.withTop, State.returned, State.deviceAnswer,
    modeEvents, modeCode, hcfg]

end

/-- Settles O40: one read, then the branch of the ACK, or the callback and how it ends. -/
theorem tickSendingTransmittingEnds : Obligations.TickSendingTransmittingEnds := by
  intro f rest s hs hdev
  refine ⟨exec_tickSendingTransmitting_unsent hs hdev, ?ack, exec_tickSendingTransmitting_noCallback hs hdev,
    fun cb r host hsent hack hcallback hhost => ?returns, ?nested⟩
  case ack =>
    rintro v dev hsent hack hrest
    exact exec_tickSendingTransmitting_ack hs hdev hsent hrest hack
  case returns =>
    rw [exec_tickSendingTransmitting_callback hs hdev hsent hack hcallback,
      callCallback_returns rfl (by exact hhost) rfl, bind_done, finish_done]
    simp [State.flagsRead, State.withSlot, State.withTop, State.returned]
  case nested =>
    rintro cb nested answer host u w hsent hack hcallback hhost hu
    have hcalled : u = { s.flagsRead f rest with
        hostIn := host, trace := (s.flagsRead f rest).trace ++ [.callback cb true] } := by
      simp [hu, State.flagsRead]
    rw [exec_tickSendingTransmitting_callback hs hdev hsent hack hcallback]
    refine ⟨fun hnested hanswer => ?returns, ?held, fun hnested => ?stops, ?range⟩
    case returns =>
      obtain ⟨r, rfl⟩ := Option.ne_none_iff_exists'.1 hanswer
      have hw_result : w.result = none := by
        have hkeeps := keeps_nestedCommands sameCommand_calls nested u
        rw [hnested] at hkeeps
        rw [hkeeps.result, hu]
      rw [callCallback_returns hcalled hhost hnested, bind_done, finish_done, returned_none (by exact hw_result)]
      rfl
    case held =>
      rintro hnested rfl
      rw [callCallback_held hcalled hhost hnested, bind_stop, finish_stop]
    case stops => rw [callCallback_stops hcalled hhost hnested, bind_stop, finish_stop]
    case range =>
      rintro type handler more rfl htype
      have hfatal : nestedCommand [0x04, type, handler] u = .stop (u.halt 0x03) :=
        (nestedCommand_setHandler type handler u).trans (setPacketHandler_range (by rw [hu]; exact htype))
      rw [callCallback_stops hcalled hhost (nestedCommands_stop hfatal more), bind_stop, finish_stop, hu]
      rfl

/-- Settles O41: no payload; any payload that HandlePayload is done with; of these, an oversized length. -/
theorem tickWaitForAckEndsOnAnyPayload : Obligations.TickWaitForAckEndsOnAnyPayload := by
  rintro f rest s _ hs hdev rfl
  refine ⟨exec_tickSendingWaitForAck_none hs hdev, ?oversize, fun t => exec_tickSendingWaitForAck_payload hs hdev⟩
  case oversize =>
    rintro g n v dev hpayload hg rfl hn
    obtain ⟨-, hoversize⟩ := handlePayloadRejectsTheLength g (n :: v :: dev) (s.flagsRead f (g :: n :: v :: dev)) hs rfl
    rw [exec_tickSendingWaitForAck_payload hs hdev hpayload (hoversize n (v :: dev) hg rfl hn) hs.1 rfl]
    simp [State.flagsRead, State.deviceAnswer]

end Sys2Proof.Machine
end

