-- ==== Sys2Proof/Proofs/ListeningTicks.lean ====
section
/-!
The Listening ticks (R191, R195 to R197, R209, R211, R212; O43, O44, O57). A tick that waits is its operations, a mode
change and the first poll, whose outcomes are those of Proofs/Events.lean; Listening(Waiting) whose waits are both ready
is one law over what HandlePayload does between them (`exec_tickListeningWaiting_ready`). That none of them leaves
Listening is where Update and the waits of a tick land, by Proofs/UpdateTop.lean.
-/

namespace Sys2Proof.Machine

/-! ## Listening(Init) -/

/-- What a stale payload makes Listening(Init) do at the ports (R136, R196). -/
def restartEvents (p : Params) (stale : Bool) (v : Byte) : List Event :=
  if stale then [readEvent p p.regs.packetConfig2 v, writeEvent p p.regs.packetConfig2 (withRestartRx p.regs v)] else []

/-- The receiver is restarted where the payload is stale (R196). -/
theorem restartIfStale_answers {s : State} {stale : Bool} {v : Byte} {dev : List Byte} (hregs : regMapOk s.cfg = true)
    (hdev : s.devIn = (if stale then [v] else []) ++ dev) :
    (if stale then restartRx s else .done () s) =
      .done () { s with devIn := dev, trace := s.trace ++ restartEvents s.cfg stale v } := by
  cases stale with
  | true => exact restartRx_answer hregs hdev
  | false =>
    obtain rfl : s.devIn = dev := hdev
    simp [restartEvents]

/-- What Listening(Init) does at the ports before its mode change (R196). -/
def armingEvents (p : Params) (f v : Byte) : List Event :=
  [readEvent p p.regs.irqFlags2 f] ++ restartEvents p (payloadReadyFlag p.regs f) v ++ highPowerEvents p false

/-- The state whose mode Listening(Init) changes: the receiver restarted where the payload was stale, and high power off
(R196). -/
def State.armed (s : State) (f v : Byte) : State := { s with trace := s.trace ++ armingEvents s.cfg f v }

/-- Listening(Init) comes to the first poll of its wait (R196). -/
theorem exec_tickListeningInit {s : State} {f p v : Byte} {dev : List Byte} {t0 : Millis} {clk : List Millis}
    (hs : s.Ready) (hdev : s.devIn = f :: ((if payloadReadyFlag s.cfg.regs f then [p] else []) ++ v :: dev))
    (hclk : s.clkIn = t0 :: clk) :
    exec .tickListeningInit s = .next (pollWait ⟨t0, s.cfg.timeoutMs, .listenInit⟩ (afterWait .listenInit)
      ((s.armed f p).modeWait s.cfg.modeCodes.receiver v dev t0 clk)).finish := by
  obtain ⟨hrun, hregs⟩ := hs
  rw [exec, execTickListeningInit, command_running hrun, tickListeningInit, isPayloadReady_flagsRead ⟨hrun, hregs⟩ hdev,
    bind_done, restartIfStale_answers (v := p) (dev := v :: dev) (by exact hregs) (by exact rfl), bind_done,
    setHighPowerSettings_ok (by exact hregs), bind_done,
    setMode_wait (v := v) (dev := dev) (t0 := t0) (clk := clk) (by exact hregs) rfl rfl rfl (by exact hclk)]
  simp [State.flagsRead, State.modeWait, State.armed, armingEvents, modeCode]

/-- Settles O43: the first poll of the wait is ready, late or goes on, and WAIT_FAIL says what a late one comes to. -/
theorem tickListeningInitArmsTheReceiver : Obligations.TickListeningInitArmsTheReceiver := by
  intro f p v i dev t0 clk s base hs hdev hclk hbase
  have hregs : regMapOk (s.armed f p).cfg = true := hs.2
  obtain rfl : base = (s.armed f p).modePoll s.cfg.modeCodes.receiver v i dev t0 clk := by
    simp [hbase, State.modePoll, State.armed, armingEvents, restartEvents]
  rw [exec_tickListeningInit hs hdev hclk]
  refine ⟨fun hi => ?ready, ?clear⟩
  case ready =>
    rw [modeWait_ready hregs hi, afterWait_listenInit rfl, if_pos (.inl rfl)]
  case clear =>
    rintro t clk' hi rfl
    refine ⟨fun ht => ?late, fun ht => ?again⟩
    case late =>
      rw [modeWait_late hregs hi ht, afterWait_listenInit rfl]
      cases hfail : s.cfg.waitFail <;> simp [State.modePoll, State.armed, hfail]
    case again =>
      rw [modeWait_again hregs hi ht, finish_stop]
      rfl

/-! ## Listening(Waiting) -/

section
variable {s : State} {f : Byte} (hs : s.Ready)
include hs

/-- Listening(Waiting) without a payload (R197). -/
theorem exec_tickListeningWaiting_none {dev : List Byte} (hdev : s.devIn = f :: dev)
    (hpayload : payloadReadyFlag s.cfg.regs f = false) :
    exec .tickListeningWaiting s = .next (s.flagsRead f dev) := by
  rw [exec, execTickListeningWaiting, command_running hs.1, tickListeningWaiting, isPayloadReady_flagsRead hs hdev,
    bind_done, hpayload, if_neg Bool.false_ne_true]
  rfl

section
variable {v : Byte} {dev : List Byte} {t0 : Millis} {clk : List Millis} (hdev : s.devIn = f :: v :: dev)
  (hclk : s.clkIn = t0 :: clk) (hpayload : payloadReadyFlag s.cfg.regs f = true)
include hdev hclk hpayload

/-- Listening(Waiting) with a payload comes to the first poll of its first wait (R197). -/
theorem exec_tickListeningWaiting_payload :
    exec .tickListeningWaiting s = .next (pollWait ⟨t0, s.cfg.timeoutMs, .listenPayload⟩ (afterWait .listenPayload)
      ((s.flagsRead f (v :: dev)).modeWait s.cfg.modeCodes.standby v dev t0 clk)).finish := by
  rw [exec, execTickListeningWaiting, command_running hs.1, tickListeningWaiting, isPayloadReady_flagsRead hs hdev,
    bind_done, if_pos hpayload, setMode_wait (s := s.flagsRead f (v :: dev)) hs.2 rfl rfl rfl hclk]
  rfl

/-- Once its first wait has ended, the tick does what `payloadWaitEnds` says (R191, R197, R212). -/
theorem exec_tickListeningWaiting_ends {ready : Bool} {x : State}
    (hx : pollEnds t0 s.cfg.timeoutMs ((s.flagsRead f (v :: dev)).modeWait s.cfg.modeCodes.standby v dev t0 clk) ready
      x) : payloadWaitEnds ready x (exec .tickListeningWaiting s) := by
  obtain ⟨hx_halted, hx_cfg, hx_control, hx_result, -⟩ := pollEnds_frame hx
  rw [exec_tickListeningWaiting_payload hs hdev hclk hpayload,
    pollWait_ends (w := ⟨t0, s.cfg.timeoutMs, .listenPayload⟩) (by exact hs.2) hx]
  exact afterWait_listenPayload ⟨hx_halted.trans hs.1, hx_cfg ▸ hs.2⟩ hx_control hx_result

end

/-- Listening(Waiting) with a payload and both waits ready at their first poll: HandlePayload in Standby, then Receiver
and the second wait, whatever HandlePayload answered (R197, R212). -/
theorem exec_tickListeningWaiting_ready {v i w j : Byte} {dev rest : List Byte} {t0 t1 : Millis} {clk : List Millis}
    {u t : State} {b : Bool} (hdev : s.devIn = f :: v :: i :: rest) (hclk : s.clkIn = t0 :: t1 :: clk)
    (hpayload : payloadReadyFlag s.cfg.regs f = true) (hi : modeReadyFlag s.cfg.regs i = true)
    (hu : u = (s.flagsRead f (v :: i :: rest)).modePoll s.cfg.modeCodes.standby v i rest t0 (t1 :: clk))
    (ht : handlePayload u = .done b t) (ht_dev : t.devIn = w :: j :: dev) (ht_clk : t.clkIn = t1 :: clk)
    (hj : modeReadyFlag s.cfg.regs j = true) :
    exec .tickListeningWaiting s = .next (t.modePoll s.cfg.modeCodes.receiver w j dev t1 clk) := by
  have hu_run : u.halted = false := hu ▸ hs.1
  have hu_control : u.control = none := hu ▸ rfl
  have hu_result : u.result = none := hu ▸ rfl
  have hu_cfg : u.cfg = s.cfg := hu ▸ rfl
  have hsame := handlePayload_sameCommand ht
  have ht_cfg : t.cfg = s.cfg := hsame.cfg.trans hu_cfg
  have hfirst : pollEnds t0 s.cfg.timeoutMs
      ((s.flagsRead f (v :: i :: rest)).modeWait s.cfg.modeCodes.standby v (i :: rest) t0 (t1 :: clk)) true u :=
    ⟨i, rest, rfl, .inl ⟨rfl, hi, by simp [hu, State.modePoll, State.modeWait]⟩⟩
  have hsecond : pollEnds t1 t.cfg.timeoutMs (t.modeWait t.cfg.modeCodes.receiver w (j :: dev) t1 clk) true
      (t.modePoll t.cfg.modeCodes.receiver w j dev t1 clk) :=
    ⟨j, dev, rfl, .inl ⟨rfl, ht_cfg ▸ hj, by simp [State.modePoll, State.modeWait]⟩⟩
  have hhandled : exec .handlePayload u = .next (t.returned (some (.bool b))) := by
    rw [exec_handlePayload hu_run hu_control hu_result, ht, boolResult_done, finish_done]
  obtain ⟨-, -, hhandles⟩ := exec_tickListeningWaiting_ends hs hdev hclk hpayload hfirst
  obtain ⟨-, hgoesOn⟩ := hhandles (.inl rfl) _ hhandled
  obtain ⟨-, hends⟩ := hgoesOn (hsame.halted.trans hu_run) (hsame.control.trans hu_control) w (j :: dev) t1 clk ht_dev
    ht_clk
  have hdone := hends true _ hsecond
  rw [ht_cfg] at hdone
  exact hdone

end

/-- Settles O44: no payload; both waits ready around a HandlePayload that rejects the length, or whose frame reaches its
handler; and each way in which the first poll comes out. -/
theorem tickListeningWaitingHandlesThePayload : Obligations.TickListeningWaitingHandlesThePayload := by
  intro f v i dev t0 t1 clk s u hs
  have hregs := hs.2
  refine ⟨exec_tickListeningWaiting_none hs, ?oversize, ?handler, ?polls⟩
  case oversize =>
    intro g n w j hdev hclk hpayload hi hg hn hj
    rw [exec_tickListeningWaiting_ready hs hdev hclk hpayload hi rfl
      (handlePayload_oversize (by exact hregs) rfl (by exact hg) (by exact hn)) rfl rfl hj]
    simp [State.modePoll, State.flagsRead]
  case handler =>
    rintro g n w j hid r got stop sample _ host hdev hclk hpayload hi hg hn hgot hstamp rfl hlengths hhandler hhost hj
    rw [exec_tickListeningWaiting_ready hs hdev hclk hpayload hi rfl
      (handlePayload_handled (dev := w :: j :: dev) (by exact hregs) (by exact hstamp) (by exact hg) (by exact hn)
        (by exact hgot) rfl hlengths (by exact hhandler) (by exact hhost)) rfl rfl hj]
    simp [State.modePoll, State.flagsRead, State.afterFrame]
  case polls =>
    rintro hdev hclk hpayload rfl
    refine ⟨fun x hx => ?goesOn, fun ready x hx => exec_tickListeningWaiting_ends hs hdev hclk hpayload hx⟩
    case goesOn =>
      rw [exec_tickListeningWaiting_payload hs hdev hclk hpayload,
        pollWait_goesOn (w := ⟨t0, s.cfg.timeoutMs, .listenPayload⟩)
          (s := (s.flagsRead f (v :: dev)).modeWait s.cfg.modeCodes.standby v dev t0 clk) hregs hx, finish_stop]

/-! ## Staying in Listening -/

/-- A top-level state of Listening. -/
def Top.isListening (x : Top) : Prop := ∃ ls, x = .listening ls

/-- A rule of Listening enters Listening, unless WAIT_FAIL is AbortToIdle (R195). -/
theorem tickMayEnter_listening {p : Params} {ls : ListenSub} {x : Top} (hfail : p.waitFail ≠ .abortToIdle)
    (h : tickMayEnter p (.listening ls) x) : x.isListening := by
  cases ls with
  | init =>
    obtain hwaiting | ⟨habort, -⟩ := h
    · exact ⟨_, hwaiting⟩
    · exact absurd habort hfail
  | waiting => exact absurd h.1 hfail
  | receiving => exact h.elim
  | sendAck => exact ⟨_, h⟩
  | done => exact h.elim

/-- What follows a wait of a Listening tick stays in Listening, unless WAIT_FAIL is AbortToIdle (R191, R195). -/
theorem lands_afterListeningWait {s : State} (hs : s.top.isListening) (hfail : s.cfg.waitFail ≠ .abortToIdle)
    {place : AfterWait} (hplace : place = .listenInit ∨ place = .listenPayload ∨ place = .listenRearm) (ready : Bool) :
    Lands s Top.isListening (afterWait place ready) := by
  have hidle : s.cfg.waitFail = .abortToIdle → Top.isListening .idle := fun habort => absurd habort hfail
  obtain rfl | rfl | rfl := hplace
  · exact lands_afterTickWait hs hidle ready (rest := fun s => .done none (s.withTop (.listening .waiting)))
      fun _ _ => ⟨_, rfl⟩
  · exact lands_afterListenPayload hs hidle ready
  · exact lands_afterListenRearm hs hidle ready

/-- Settles O57: the states Update may enter, and where a step of a wait lands; a halted engine stays where it is. -/
theorem listeningNeverLeavesItself : Obligations.ListeningNeverLeavesItself := by
  intro s t ls htop hfail
  have hs : s.top.isListening := ⟨ls, htop⟩
  refine ⟨fun h => ?update, fun w hcontrol hplace h => ?wait⟩
  case update =>
    obtain hstays | henters := updateMakesOneTransition s t h
    · exact ⟨ls, hstays.trans htop⟩
    · exact tickMayEnter_listening hfail (htop ▸ henters)
  case wait =>
    cases hrun : s.halted with
    | true =>
      simp only [step, hrun, if_true, Host.Outcome.next.injEq] at h
      exact h ▸ hs
    | false =>
      cases hvalid : s.validInstance with
      | false => simp [step, hrun, hvalid] at h
      | true =>
        rw [step_wait hrun hvalid hcontrol] at h
        cases h
        rw [finish_top]
        exact lands_pollWait hs w (lands_afterListeningWait hs hfail hplace) s.resumed ⟨rfl, rfl⟩

end Sys2Proof.Machine
end

