-- ==== Sys2Proof/Proofs/SendingRuns.lean ====
section
/-!
Runs of Updates in Sending (R202 to R205, R213, R214; O49, O50). A step of an engine whose next frame is UPDATE is the
tick action of its state (`run_update`). The wait for an ACK is an induction over the flags it reads. A staged packet
goes through one lemma per Update, each from the state the one before it leaves (`State.updated`).
-/

namespace Sys2Proof.Machine

/-! ## One Update of a run -/

/-- The frame of the host command UPDATE (R83). -/
abbrev updateFrame : CommandFrame := ⟨.host, [0x02]⟩

/-- A run whose next frame is UPDATE begins with the tick action of the engine's state (R165, R177). -/
theorem run_update {s t : State} {more : List CommandFrame} {x : Top} (hs : s.BetweenCommands)
    (hinbox : s.inbox = updateFrame :: more) (htop : s.top = x)
    (htick : exec (tickOf x) (s.withInbox more) = .next t) (n : Nat) :
    Host.Core.run Sys2Proof.core (n + 1) s = Host.Core.run Sys2Proof.core n t := by
  refine run_succ ?step n
  rw [step_takes hs hinbox, runFrame_decoded (i := .update) rfl, exec_update, ← htick, ← htop]
  rfl

/-! ## The wait for an ACK -/

/-- Settles O49, by induction on the flags that the Updates read. -/
theorem ackWaitHasNoTimeout : Obligations.AckWaitHasNoTimeout := by
  intro flags dev more s hs hbetween hresult htop hflags hinbox hdev
  obtain ⟨hrun, hvalid, hcontrol⟩ := hbetween
  induction flags generalizing s with
  | nil =>
    obtain rfl : s.inbox = more := hinbox
    obtain rfl : s.devIn = dev := hdev
    simp [Host.Core.run]
  | cons f rest ih =>
    have hpayload : payloadReadyFlag s.cfg.regs f = false := hflags f List.mem_cons_self
    have htick : exec .tickSendingWaitForAck (s.withInbox (List.replicate rest.length updateFrame ++ more)) =
        .next ((s.withInbox (List.replicate rest.length updateFrame ++ more)).flagsRead f (rest ++ dev)) :=
      exec_tickSendingWaitForAck_none hs hdev hpayload
    rw [List.length_cons, run_update ⟨hrun, hvalid, hcontrol⟩ hinbox htop htick]
    have hlater := ih ((s.withInbox (List.replicate rest.length updateFrame ++ more)).flagsRead f (rest ++ dev)) hs rfl
      htop (fun g hg => hflags g (List.mem_cons_of_mem f hg)) rfl rfl hrun hvalid rfl
    rw [hlater]
    simp [State.flagsRead, State.withInbox, hcontrol, hresult]

/-! ## A staged packet, Update by Update -/

/-- The state between two Updates of a run from `s`. -/
def State.updated (s : State) (x : Top) (more : List CommandFrame) (dev : List Byte) (events : List Event) : State :=
  { s with
    control := none, result := none, top := x, inbox := more, devIn := dev, trace := s.trace ++ events }

section
variable {s : State} {more : List CommandFrame} {dev : List Byte} (hs : s.Ready)
  (hvalid : s.validInstance = true) (n : Nat)
include hs hvalid

/-- The Update of Idle with a staged packet (R193). -/
theorem run_idle (hcontrol : s.control = none) (htop : s.top = .idle) (htarget : s.slot.header.target ≠ 0)
    (hinbox : s.inbox = updateFrame :: more) (hdev : s.devIn = dev) :
    Host.Core.run Sys2Proof.core (n + 1) s =
      Host.Core.run Sys2Proof.core n (s.updated (.sending .init) more dev []) := by
  have htick := exec_tickIdle (s := s.withInbox more) hs.1
  rw [if_pos (by exact htarget)] at htick
  rw [run_update ⟨hs.1, hvalid, hcontrol⟩ hinbox htop htick]
  simp [State.updated, State.withInbox, hdev]

variable {events : List Event}

/-- Between two Updates of a run, the next begins with the tick action of the state. -/
theorem run_updated (x : Top) {t : State} (htick : exec (tickOf x) (s.updated x more dev events) = .next t) :
    Host.Core.run Sys2Proof.core (n + 1) (s.updated x (updateFrame :: more) dev events) =
      Host.Core.run Sys2Proof.core n t :=
  run_update (s := s.updated x (updateFrame :: more) dev events) ⟨hs.1, hvalid, rfl⟩ rfl rfl htick n

/-- The Update of Sending(Init) (R202). -/
theorem run_sendingInit {v : Byte} :
    Host.Core.run Sys2Proof.core (n + 1) (s.updated (.sending .init) (updateFrame :: more) (v :: dev) events) =
      Host.Core.run Sys2Proof.core n
        (s.updated (.sending .writing) more dev (events ++ modeEvents s.cfg v s.cfg.modeCodes.standby)) := by
  obtain ⟨-, htick⟩ :=
    sendAckAndSendingInitTicks _ _ (s.updated (.sending .init) more (v :: dev) events) hs rfl rfl
  rw [run_updated hs hvalid n (.sending .init) htick]
  simp [State.updated, State.deviceAnswer]

/-- The Update of Sending(Writing) of a device that is ready and takes every byte (R203). -/
theorem run_sendingWriting {i o : Byte} {hf cf : List Byte} (hi : modeReadyFlag s.cfg.regs i = true)
    (hheader : fifoWriteAnswers s.cfg.regs 5 hf none)
    (hcontent : fifoWriteAnswers s.cfg.regs (contentBytes s.slot.content).length cf none) :
    Host.Core.run Sys2Proof.core (n + 1)
        (s.updated (.sending .writing) (updateFrame :: more) (i :: (hf ++ cf ++ o :: dev)) events) =
      Host.Core.run Sys2Proof.core n (s.updated (.sending .transmitting) more dev
        (events ++ [readEvent s.cfg s.cfg.regs.irqFlags1 i]
          ++ fifoWriteEvents s.cfg (headerBytes s.slot.header) hf none
          ++ fifoWriteEvents s.cfg (contentBytes s.slot.content) cf none
          ++ modeEvents s.cfg o s.cfg.modeCodes.transmitter ++ highPowerEvents s.cfg true)) := by
  obtain ⟨-, hwrites⟩ := tickSendingWritingSendsTheFrame i o hf cf dev none none
    (s.updated (.sending .writing) more (i :: (hf ++ cf ++ o :: dev)) events) hs
  have htick := hwrites (by simp [State.updated]) hi hheader hcontent
  rw [run_updated hs hvalid n (.sending .writing) htick]
  simp [State.updated, fifoWriteLog]

/-- The Update of Sending(Transmitting) of a packet that is sent and asks for an ACK (R204). -/
theorem run_transmitting_ack {q w : Byte} (hq : packetSentFlag s.cfg.regs q = true)
    (hack : s.slot.header.ackRequested = true) :
    Host.Core.run Sys2Proof.core (n + 1)
        (s.updated (.sending .transmitting) (updateFrame :: more) (q :: w :: dev) events) =
      Host.Core.run Sys2Proof.core n (s.updated (.sending .waitForAck) more dev
        (events ++ [readEvent s.cfg s.cfg.regs.irqFlags2 q] ++ modeEvents s.cfg w s.cfg.modeCodes.receiver
          ++ highPowerEvents s.cfg false)) := by
  have htick := exec_tickSendingTransmitting_ack
    (s := s.updated (.sending .transmitting) more (q :: w :: dev) events) hs rfl hq rfl hack
  rw [run_updated hs hvalid n (.sending .transmitting) htick]
  simp [State.updated, State.flagsRead]

/-- The Update of Sending(Transmitting) of a packet that is sent without an ACK, whose callback, if it has one, answers
at once (R204). -/
theorem run_transmitting_done {q : Byte} {host : List HostAnswer} (hq : packetSentFlag s.cfg.regs q = true)
    (hack : s.slot.header.ackRequested = false) (hnone : s.slot.callback = none → s.hostIn = host)
    (hsome : ∀ cb, s.slot.callback = some cb → ∃ r, s.hostIn = ⟨[], some r⟩ :: host) :
    Host.Core.run Sys2Proof.core (n + 1)
        (s.updated (.sending .transmitting) (updateFrame :: more) (q :: dev) events) =
      Host.Core.run Sys2Proof.core n { s.updated .idle more dev (events ++ [readEvent s.cfg s.cfg.regs.irqFlags2 q]
          ++ s.slot.callback.toList.map (fun cb => .callback cb true)) with
        slot := zeroFrame, hostIn := host } := by
  obtain ⟨-, -, hquiet, hanswered, -⟩ :=
    tickSendingTransmittingEnds q dev (s.updated (.sending .transmitting) more (q :: dev) events) hs rfl
  cases hcallback : s.slot.callback with
  | none =>
    rw [run_updated hs hvalid n (.sending .transmitting) (hquiet hq hack hcallback), ← hnone hcallback]
    simp [State.updated]
  | some cb =>
    obtain ⟨r, hhost⟩ := hsome cb hcallback
    rw [run_updated hs hvalid n (.sending .transmitting) (hanswered cb r host hq hack hcallback hhost)]
    simp [State.updated]

/-- The Update of Sending(WaitForAck) with a payload that HandlePayload is done with (R205). -/
theorem run_waitForAck {f z : Byte} {rest : List Byte} {b : Bool} {t : State}
    (hf : payloadReadyFlag s.cfg.regs f = true)
    (ht : handlePayload (s.updated (.sending .waitForAck) more rest
      (events ++ [readEvent s.cfg s.cfg.regs.irqFlags2 f])) = .done b t) (ht_dev : t.devIn = z :: dev) :
    Host.Core.run Sys2Proof.core (n + 1)
        (s.updated (.sending .waitForAck) (updateFrame :: more) (f :: rest) events) =
      Host.Core.run Sys2Proof.core n { t with
        devIn := dev, top := .idle, slot := zeroFrame,
        trace := t.trace ++ modeEvents s.cfg z s.cfg.modeCodes.standby } := by
  have hflag : (s.updated (.sending .waitForAck) more (f :: rest) events).flagsRead f rest =
      s.updated (.sending .waitForAck) more rest (events ++ [readEvent s.cfg s.cfg.regs.irqFlags2 f]) := by
    simp [State.updated, State.flagsRead]
  have hsame := handlePayload_sameCommand ht
  have hresult : t.result = none := hsame.result
  have hhandled : exec .handlePayload ((s.updated (.sending .waitForAck) more (f :: rest) events).flagsRead f rest) =
      .next (t.returned (some (.bool b))) := by
    rw [hflag, exec_handlePayload (by exact hs.1) (by exact rfl) (by exact rfl), ht, boolResult_done, finish_done]
  have htick := exec_tickSendingWaitForAck_payload (s := s.updated (.sending .waitForAck) more (f :: rest) events) hs
    rfl hf hhandled (hsame.halted.trans hs.1) hsame.control
  rw [run_updated hs hvalid n (.sending .waitForAck) htick]
  simp [State.updated, State.returned, State.deviceAnswer, ht_dev, hresult]

end

/-- What a staged packet makes the engine do at the ports until it is in the air, under a device that is ready
(R202, R203). -/
def writingEvents (p : Params) (x : Packet) (v i o : Byte) (hf cf : List Byte) : List Event :=
  modeEvents p v p.modeCodes.standby ++ [readEvent p p.regs.irqFlags1 i]
    ++ fifoWriteEvents p (headerBytes x.header) hf none ++ fifoWriteEvents p (contentBytes x.content) cf none
    ++ modeEvents p o p.modeCodes.transmitter ++ highPowerEvents p true

/-- The content of a staged packet is its timestamp, its type and size, and its data (R152). -/
theorem staged_contentLength {p : Packet} (hslot : slotOk p = true) (htarget : p.header.target ≠ 0) :
    (contentBytes p.content).length = 8 + p.content.size.toNat := by
  have hstaged : p ≠ zeroFrame := fun hzero => htarget (hzero ▸ rfl)
  obtain ⟨-, -, hlength⟩ := staged_sizes hslot hstaged
  have hheader : (headerBytes p.header).length = 5 := rfl
  rw [List.length_append, hheader] at hlength
  omega

/-- The first three Updates of a staged packet: Idle, Sending(Init), Sending(Writing) (R193, R202, R203). -/
theorem run_toTransmitting {s : State} {v i o : Byte} {hf cf dev : List Byte} {more : List CommandFrame} (hs : s.Ready)
    (hbetween : s.BetweenCommands) (htop : s.top = .idle) (htarget : s.slot.header.target ≠ 0)
    (hslot : slotOk s.slot = true) (hi : modeReadyFlag s.cfg.regs i = true)
    (hheader : fifoWriteAnswers s.cfg.regs 5 hf none)
    (hcontent : fifoWriteAnswers s.cfg.regs (8 + s.slot.content.size.toNat) cf none)
    (hinbox : s.inbox = updateFrame :: updateFrame :: updateFrame :: more)
    (hdev : s.devIn = v :: i :: (hf ++ cf ++ o :: dev)) (n : Nat) :
    Host.Core.run Sys2Proof.core (n + 3) s = Host.Core.run Sys2Proof.core n
      (s.updated (.sending .transmitting) more dev (writingEvents s.cfg s.slot v i o hf cf)) := by
  obtain ⟨-, hvalid, hcontrol⟩ := hbetween
  rw [run_idle hs hvalid (n + 2) hcontrol htop htarget hinbox hdev, run_sendingInit hs hvalid (n + 1),
    run_sendingWriting hs hvalid n hi hheader (staged_contentLength hslot htarget ▸ hcontent)]
  rfl

/-- Settles O50: three Updates bring the packet into the air; the fourth ends it, or waits for the ACK, and then the
fifth ends it. -/
theorem stagedPacketIsSent : Obligations.StagedPacketIsSent := by
  rintro v i o q hf cf dev more s _ hs hbetween htop htarget hslot hi hheader hcontent hq rfl
  obtain ⟨-, hvalid, hcontrol⟩ := hbetween
  have hfirst := fun (later : List CommandFrame) (answers : List Byte) =>
    run_toTransmitting (v := v) (o := o) (dev := answers) (more := later) hs ⟨hs.1, hvalid, hcontrol⟩ htop htarget
      hslot hi hheader hcontent
  refine ⟨fun host hack hinbox hdev hnone hsome => ?noAck, fun w f g n z hack hinbox hdev hf_ready hg hn => ?oversize,
    ?handler⟩
  case noAck =>
    refine (hfirst (updateFrame :: more) _ hinbox hdev 1).trans
      ((run_transmitting_done hs hvalid 0 hq hack hnone hsome).trans ?_)
    simp [Host.Core.run, State.updated, writingEvents, hcontrol]
  case oversize =>
    refine (hfirst (updateFrame :: updateFrame :: more) _ hinbox hdev 2).trans
      ((run_transmitting_ack hs hvalid 1 hq hack).trans ((run_waitForAck hs hvalid 0 hf_ready
        (handlePayload_oversize (by exact hs.2) rfl (by exact hg) (by exact hn)) rfl).trans ?_))
    simp [Host.Core.run, State.updated, writingEvents, hcontrol]
  case handler =>
    rintro w f g n z hid r got stop _ host hack hinbox hdev hf_ready hg hn hgot hstamp rfl hlengths hhandler hhost
    have hrest : fifoReadScript got stop ++ z :: dev =
        fifoReadScript got stop ++ (none : Option Byte).toList ++ z :: dev := by simp
    rw [hrest] at hdev
    refine (hfirst (updateFrame :: updateFrame :: more) _ hinbox hdev 2).trans
      ((run_transmitting_ack hs hvalid 1 hq hack).trans ((run_waitForAck hs hvalid 0 hf_ready
        (handlePayload_handled (sample := none) (by exact hs.2) (by exact hstamp) (by exact hg) (by exact hn)
          (by exact hgot) rfl hlengths (by exact hhandler) (by exact hhost)) rfl).trans ?_))
    simp [Host.Core.run, State.updated, State.afterFrame, writingEvents, hcontrol]

end Sys2Proof.Machine
end

