-- ==== Sys2Proof/Proofs/Exceptions.lean ====
section
/-!
Halting and sleeping (R31, R207, R222 to R224, R236; O3, O54, O60). An instruction is a command, which a halted engine
does not perform (`exec_halted`). A step of a running engine keeps it running in every state an operation is done in, so
it halts only where an operation stops, and only `raiseFatal` stops one that way (`haltsByFatal_runs`). From Sleeping,
each of the host's commands but INIT and Wakeup lands in Sleeping (`Lands` of Proofs/UpdateTop.lean).
-/

namespace Sys2Proof.Machine

/-! ## A halted engine -/

theorem step_halted {s : State} (h : s.halted = true) : step s = .next s := if_pos h

/-- Every instruction runs its meaning as a command, which a halted engine does not perform (R224). -/
theorem exec_halted (i : Instr) {s : State} (h : s.halted = true) : exec i s = .next s := by
  unfold exec
  split <;> exact command_halted h

/-- Settles O3: the step asks first whether the engine is halted, and so does every command. -/
theorem haltedEngineHasNoSuccessor : Obligations.HaltedEngineHasNoSuccessor :=
  fun _ hhalted => ⟨step_halted hhalted, fun i => exec_halted i hhalted⟩

/-! ## A step that halts the engine -/

/-- What a fatal assertion leaves: no command in progress, and its code, one of R222, last in the log (R223). -/
structure EndedByFatal (t : State) : Prop where
  control : t.control = none
  code_pos : 1 ≤ t.faultCode.toNat
  code_le : t.faultCode.toNat ≤ 6
  logged : ∃ l, t.log = l ++ [(.critical, t.faultCode)]

theorem endedByFatal_halt (s : State) (c : FatalCode) : EndedByFatal (s.halt c.code) :=
  have ⟨hpos, hle⟩ := fatalCode_range c
  ⟨rfl, hpos, hle, s.log, rfl⟩

/-- An engine that runs before and is halted after has halted by a fatal assertion. -/
def HaltsByFatal (s t : State) : Prop := s.halted = false → t.halted = true → EndedByFatal t

/-- Two states that both run or are both halted. -/
def SameHalted (s t : State) : Prop := t.halted = s.halted

theorem SameHalted.haltsByFatal {s t : State} (h : SameHalted s t) : HaltsByFatal s t :=
  fun hrun hhalted => absurd (hhalted.symm.trans (h.trans hrun)) Bool.noConfusion

/-- Every update but `halt` leaves a running engine running. -/
theorem haltsByFatal_runs : Runs SameHalted HaltsByFatal HaltsByFatal where
  refl _ := rfl
  trans h k := k.trans h
  absorb h k := fun hrun => k (h.trans hrun)
  logDiag _ _ := rfl
  halt s c := fun _ _ => endedByFatal_halt s c
  suspend _ _ _ := SameHalted.haltsByFatal rfl
  afterRead _ _ := rfl
  afterWrite _ _ _ := rfl
  afterClock _ := rfl
  afterNode _ := rfl
  afterNetwork _ := rfl
  afterBroadcast _ := rfl
  emit _ _ := rfl
  afterHost _ := rfl
  drawn _ := rfl
  withSlot _ _ _ := rfl
  withHandler _ _ _ _ := rfl
  withTop _ _ _ := rfl
  same _ := SameHalted.haltsByFatal rfl
  started _ _ := rfl
  resumed _ _ := rfl
  returned _ h := SameHalted.haltsByFatal h
  stopped h := h

/-- Settles O54: a step is made of updates, and taking a frame from the queue halts nothing. -/
theorem fatalEndsTheCommand : Obligations.FatalEndsTheCommand := by
  intro s t hrun h hhalted
  obtain ⟨hcontrol, hpos, hle, hlog⟩ := step_closed haltsByFatal_runs (fun _ _ _ hn => hn) h hrun hhalted
  exact ⟨hcontrol, hpos, hle, hlog⟩

/-! ## The host's commands from Sleeping -/

/-- Outside Idle, SendPacket answers false with one log event, whatever the size of the content (R150, R168, R172). -/
theorem sendPacket_notIdle {target : Byte} {ack : Bool} {c : Content} {callback : Option Byte} {s : State}
    (htop : s.top ≠ .idle) : ∃ d, sendPacket target ack c callback s = .done false (s.logDiag d) := by
  by_cases hsize : c.size.toNat ≤ 20
  · exact ⟨_, sendPacket_notReady hsize (isReadyToSend_refused (.inl htop))⟩
  · exact ⟨_, sendPacket_oversized (Nat.lt_of_not_le hsize)⟩

section
variable {s : State} {P : Top → Prop} (hs : P s.top)
include hs

/-- A SEND outside Idle stays where it is. -/
theorem lands_send (htop : s.top ≠ .idle) (target : Byte) (ack : Bool) (cb : Byte) (c : Content) :
    Lands s P fun t => (sendCommand target ack cb c t).boolResult := by
  intro t ht
  have ht_top : t.top ≠ .idle := ht.2 ▸ htop
  obtain ⟨d, hsend⟩ := sendPacket_notIdle (target := target) (ack := ack) (c := c) (callback := hostId cb) ht_top
  simp only [sendCommand_done hsend, boolResult_done, state_done]
  exact ht.2 ▸ hs

/-- Registering a handler stays where it is, whether or not it ends in a fatal assertion (R176). -/
theorem lands_setHandler (type handler : Byte) :
    Lands s P fun t => (setPacketHandler (hostId handler) type t).noResult :=
  lands_of_keeps hs (keeps_noResult sameTop_quiet (keeps_setPacketHandler sameTop_calls handler type))

/-- A Sleep event of an engine that is not active ends in Sleeping, or stays where it is while it waits (R181). -/
theorem lands_eventSleep (hinactive : s.active = false) (hsleeping : P .sleeping) : Lands s P eventSleep := by
  intro t ht
  have ht_inactive : ¬ t.active = true := by simpa only [State.active, ht.2, Bool.not_eq_true] using hinactive
  rw [eventSleep, if_neg ht_inactive]
  exact bind_lands hs ht (keeps_setMode sameTop_quiet .sleep t) fun _ u hu =>
    lands_waitForModeReady hs _ .sleep (k := afterWait .sleep) (fun _ _ _ => hsleeping) u hu

/-- An event that is not Wakeup, of an engine that is not active (R181, R183). -/
theorem lands_eventHandler {kind : Byte} (hkind : kind ≠ 2) (hinactive : s.active = false) (hsleeping : P .sleeping) :
    Lands s P (eventHandler kind) := by
  obtain rfl | hother := eq_or_ne kind 1
  · exact lands_eventSleep hs hinactive hsleeping
  · intro t ht
    rw [eventHandler_other hother hkind]
    exact ht.2 ▸ hs

end

/-- Settles O60: each of the commands lands in Sleeping. -/
theorem onlyWakeupAndInitLeaveSleeping : Obligations.OnlyWakeupAndInitLeaveSleeping := by
  intro s t i htop h hi
  have hinactive : s.active = false := by simp [State.active, htop]
  have hidle : s.top ≠ .idle := by simp [htop]
  obtain rfl | ⟨target, ack, cb, c, rfl⟩ | ⟨type, handler, rfl⟩ | ⟨kind, rfl, hkind⟩ := hi
  · obtain hstays | henters := updateMakesOneTransition s t h
    · exact hstays.trans htop
    · simp [tickMayEnter, htop] at henters
  · exact command_top (P := (· = .sleeping)) htop (lands_send htop hidle target ack cb c) h
  · exact command_top (P := (· = .sleeping)) htop (lands_setHandler htop type handler) h
  · exact command_top (P := (· = .sleeping)) htop (lands_eventHandler htop hkind hinactive rfl) h

end Sys2Proof.Machine
end

