-- ==== Sys2Proof/Proofs/AlwaysListening.lean ====
section
/-!
An always-listen engine never sends (R261; O58). `State.AlwaysListening` is followed through the operations of the
host's commands with the relations of Laws/Reach.lean. What it turns on is that a packet is staged only in Idle, so a SEND, on
its own or nested in an upcall, stages nothing (`listens_sendCommand`). The lemmas of Laws/Reach.lean that allow any
write of the slot (`Calls`) and of the top-level state (`Closed`) say too little here: from the nested commands on, each
operation has its own lemma.
-/

namespace Sys2Proof.Machine

/-! ## The states of an always-listen engine -/

namespace State.AlwaysListening
variable {s : State} (hs : s.AlwaysListening)
include hs

theorem notIdle : s.top ≠ .idle := by
  obtain ⟨-, -, -, htop | htop | htop | htop, -⟩ := hs <;> simp [htop]

/-- None of its states is one that IsActive names (R179). -/
theorem inactive : s.active = false := by
  obtain ⟨-, -, -, htop | htop | htop | htop, -⟩ := hs <;> simp [State.active, htop]

/-- It may enter the other states of such an engine. -/
theorem withTop {x : Top}
    (hx : x = .notInitialized ∨ x = .listening .init ∨ x = .listening .waiting ∨ x = .sleeping) :
    (s.withTop x).AlwaysListening :=
  have ⟨hhome, hfail, hslot, _, hinbox⟩ := hs
  ⟨hhome, hfail, hslot, hx, hinbox⟩

/-- The state that HOME names is Listening(Init). -/
theorem withHomeTop : (s.withTop (homeTop s.cfg)).AlwaysListening := by
  have hhome : homeTop s.cfg = .listening .init := by simp only [homeTop, hs.1]
  exact hs.withTop (.inr (.inl hhome))

/-- The zeroed slot has no target. -/
theorem withZeroSlot : (s.withSlot zeroFrame).AlwaysListening :=
  have ⟨hhome, hfail, _, htop, hinbox⟩ := hs
  ⟨hhome, hfail, rfl, htop, hinbox⟩

/-- Taking a frame leaves only host commands in the queue. -/
theorem withInbox {frame : CommandFrame} {rest : List CommandFrame} (h : s.inbox = frame :: rest) :
    frame.format = .host ∧ (s.withInbox rest).AlwaysListening := by
  obtain ⟨hhome, hfail, hslot, htop, hinbox⟩ := hs
  rw [h, List.forall_mem_cons] at hinbox
  obtain ⟨hframe, hrest⟩ := hinbox
  exact ⟨hframe, hhome, hfail, hslot, htop, hrest⟩

end State.AlwaysListening

/-! ## Operations that an always-listen engine stays one in -/

/-- The later state is one of an always-listen engine if the earlier one is. -/
def KeepsListening (s t : State) : Prop := s.AlwaysListening → t.AlwaysListening

/-- An always-listen engine is one as well where the operation is done, and where it stops. -/
def Listens {α : Type} (f : State → Flow α) : Prop := Keeps KeepsListening KeepsListening f

/-- The adapter's operations touch nothing that `AlwaysListening` speaks of. -/
theorem listening_quiet : Quiet KeepsListening KeepsListening where
  refl _ := id
  trans h k := k ∘ h
  absorb h k := k ∘ h
  logDiag _ _ := id
  halt _ _ := id
  suspend _ _ _ := id
  afterRead _ _ := id
  afterWrite _ _ _ := id
  afterClock _ := id
  afterNode _ := id
  afterNetwork _ := id
  afterBroadcast _ := id

/-- What a flow comes to may be shown for an always-listen engine only. -/
theorem comes_of_alwaysListening {α : Type} {s : State} {f : Flow α}
    (h : s.AlwaysListening → Comes KeepsListening KeepsListening s f) : Comes KeepsListening KeepsListening s f := by
  cases f with
  | done a t => exact fun hs => h hs hs
  | stop t => exact fun hs => h hs hs

theorem listens_done {α : Type} (a : State → α) : Listens fun s => .done (a s) s := fun _ hs => hs

/-! ## Upcalls and HandlePayload -/

/-- A SEND logs and answers, and stages nothing: the engine is not Idle (R168, R172). -/
theorem listens_sendCommand (target : Byte) (ack : Bool) (cb : Byte) (c : Content) :
    Listens (sendCommand target ack cb c) := fun s => comes_of_alwaysListening fun hs => by
  obtain ⟨d, hsend⟩ := sendPacket_notIdle (target := target) (ack := ack) (c := c) (callback := hostId cb) hs.notIdle
  rw [sendCommand_done hsend]
  exact fun hs => hs

theorem listens_setPacketHandler (handler : Option Byte) (type : Byte) : Listens (setPacketHandler handler type) := by
  intro s
  unfold setPacketHandler
  split
  · exact keeps_raiseFatal listening_quiet _ s
  · split
    · exact keeps_raiseFatal listening_quiet _ s
    · exact fun hs => hs

theorem listens_nestedCommand (bytes : List Byte) : Listens (nestedCommand bytes) := by
  intro s
  unfold nestedCommand
  split
  next => exact listening_quiet.bind (listens_sendCommand _ _ _ _ s) fun _ => listens_done _
  next => exact listens_setPacketHandler _ _ s
  next => exact fun hs => hs
  next => exact fun hs => hs

theorem listens_nestedCommands : (l : List (List Byte)) → Listens (nestedCommands l)
  | [] => listens_done _
  | bytes :: rest => fun s =>
    listening_quiet.bind (listens_nestedCommand bytes s) fun _ => listens_nestedCommands rest

theorem listens_hostRuns : Listens hostRuns := by
  intro s
  refine listening_quiet.bind (listens_nestedCommands _ s.afterHost) fun _ t => ?_
  split
  · exact listening_quiet.refl t
  · exact fun hs => hs

theorem listens_callHandler (h : Byte) (frame : Header × Content) : Listens (callHandler h frame) := fun s =>
  listening_quiet.bind (listens_hostRuns (s.emit (.handlerCall h frame.1 frame.2))) fun _ _ hs => hs

theorem listens_dispatchFrame (frame : Header × Content) : Listens (dispatchFrame frame) := by
  intro s
  unfold dispatchFrame
  split
  · exact listening_quiet.logDiag s _
  · split
    · exact listening_quiet.logDiag s _
    · exact listens_callHandler _ _ s

theorem listens_rssiSample : Listens rssiSample := by
  intro s
  unfold rssiSample
  split
  · exact listening_quiet.bind (keeps_getRssi listening_quiet s) fun _ => listens_done _
  · exact listening_quiet.refl s

theorem listens_handleFrame (b : List Byte) : Listens (handleFrame b) := by
  intro s
  refine listening_quiet.bind (listens_rssiSample s) fun stamp t => ?_
  split
  · exact listening_quiet.logDiag t _
  · exact listens_dispatchFrame _ t.drawn

theorem listens_handlePayload : Listens handlePayload := by
  intro s
  refine listening_quiet.bind (keeps_readFromFifo listening_quiet 1 s) fun l t => ?_
  split
  · exact listening_quiet.logDiag t _
  · split
    · exact listening_quiet.logDiag t _
    · exact listening_quiet.bind (keeps_readFromFifo listening_quiet _ t) fun _ => listens_handleFrame _

/-! ## Waits -/

theorem listens_pollWait (w : WaitFrame) {k : Bool → Cmd} (hk : ∀ ready, Listens (k ready)) :
    Listens (pollWait w k) := by
  intro s
  refine listening_quiet.bind (keeps_isModeReady listening_quiet s) fun ready t => ?_
  split
  · exact hk true t
  · refine listening_quiet.bind (f := now t) (listening_quiet.afterClock t) fun time u => ?_
    split
    · exact hk false (u.logDiag .modeReadyTimeout)
    · exact listening_quiet.suspend u _ rfl

/-- A wait with the parameter T_MR (R190). -/
theorem listens_waitForModeReady (place : AfterWait) {k : Bool → Cmd} (hk : ∀ ready, Listens (k ready)) :
    Listens fun s => waitForModeReady s.cfg.timeoutMs place k s := fun s =>
  listening_quiet.bind (f := now s) (listening_quiet.afterClock s) fun _ => listens_pollWait _ hk

/-- A failed wait of a tick does not lead to Idle: WAIT_FAIL is not AbortToIdle (R191). -/
theorem listens_afterTickWait (ready : Bool) {rest : Cmd} (hrest : Listens rest) :
    Listens (afterTickWait ready rest) := by
  intro s
  unfold afterTickWait
  split
  · exact hrest s
  · split
    · exact hrest s
    · exact listening_quiet.refl s
    · rename_i habort
      exact fun ⟨_, hfail, _⟩ => absurd habort hfail

theorem listens_afterListenRearm (ready : Bool) : Listens (afterListenRearm ready) :=
  listens_afterTickWait ready (listens_done _)

theorem listens_afterListenPayload (ready : Bool) : Listens (afterListenPayload ready) :=
  listens_afterTickWait ready fun s =>
    listening_quiet.bind (listens_handlePayload s) fun _ t =>
    listening_quiet.bind (keeps_setMode listening_quiet .receiver t) fun _ =>
    listens_waitForModeReady _ listens_afterListenRearm

/-- What follows a wait leads to Listening(Waiting), to Sleeping or to HOME, or leaves the top-level state (R181, R182,
R196, R197). -/
theorem listens_afterWait (place : AfterWait) (ready : Bool) : Listens (afterWait place ready) := by
  cases place with
  | operation => exact listens_done _
  | init => exact listens_done _
  | listenInit => exact listens_afterTickWait ready fun _ hs => hs.withTop (.inr (.inr (.inl rfl)))
  | listenPayload => exact listens_afterListenPayload ready
  | listenRearm => exact listens_afterListenRearm ready
  | sleep => exact fun _ hs => hs.withTop (.inr (.inr (.inr rfl)))
  | wakeup =>
    intro s hs
    split
    · exact hs.withHomeTop
    · exact hs

/-- A mode change, then a wait at one of its places. -/
theorem listens_modeWait (m : Mode) (place : AfterWait) :
    Listens fun s => (setMode m s).bind fun _ t => waitForModeReady t.cfg.timeoutMs place (afterWait place) t := fun s =>
  listening_quiet.bind (keeps_setMode listening_quiet m s) fun _ =>
  listens_waitForModeReady _ (listens_afterWait place)

/-! ## The host's commands -/

/-- Init zeroes the slot and enters HOME, which is Listening (R166). -/
theorem listens_initEngine : Listens initEngine := fun s =>
  listening_quiet.bind (keeps_configureAll_of_quiet listening_quiet s) fun _ t =>
  have henters : KeepsListening t ((t.withSlot zeroFrame).withTop (homeTop t.cfg)) := fun ht =>
    ht.withZeroSlot.withHomeTop
  listening_quiet.bind (listening_quiet.after henters (keeps_setMode listening_quiet _ _)) fun _ =>
  listens_waitForModeReady .init (listens_afterWait .init)

theorem listens_tickListeningInit : Listens tickListeningInit := fun s =>
  listening_quiet.bind (keeps_isPayloadReady listening_quiet s) fun stale t =>
  have hrestart : Comes KeepsListening KeepsListening t (if stale then restartRx t else .done () t) := by
    split
    · exact keeps_restartRx listening_quiet t
    · exact listening_quiet.refl t
  listening_quiet.bind hrestart fun _ u =>
  listening_quiet.bind (keeps_setHighPowerSettings listening_quiet false u) fun _ =>
  listens_modeWait .receiver .listenInit

theorem listens_tickListeningWaiting : Listens tickListeningWaiting := by
  intro s
  refine listening_quiet.bind (keeps_isPayloadReady listening_quiet s) fun payload t => ?_
  split
  · exact listens_modeWait .standby .listenPayload t
  · exact listening_quiet.refl t

theorem listens_tickSleeping : Listens tickSleeping := by
  intro s
  unfold tickSleeping
  split
  · exact listening_quiet.refl s
  · refine listening_quiet.bind (keeps_getMode listening_quiet s) fun code t => ?_
    split
    · exact listening_quiet.refl t
    · refine listening_quiet.bind (keeps_isModeReady listening_quiet t) fun ready u => ?_
      split
      · exact listening_quiet.bind (keeps_setMode listening_quiet .sleep u) fun _ => listens_done _
      · exact listening_quiet.refl u

/-- Update runs one of four tick actions, those of the states of an always-listen engine (R177). -/
theorem listens_updateEngine : Listens updateEngine := fun s => comes_of_alwaysListening fun hs => by
  obtain ⟨-, -, -, htop | htop | htop | htop, -⟩ := hs <;> simp only [updateEngine, htop]
  · exact listens_initEngine (s.logDiag .notInitialized)
  · exact listens_tickListeningInit s
  · exact listens_tickListeningWaiting s
  · exact listens_tickSleeping s

/-- The engine is not active, so a Sleep event drains nothing (R181). -/
theorem listens_eventSleep : Listens eventSleep := fun s => comes_of_alwaysListening fun hs => by
  rw [eventSleep, if_neg (Bool.eq_false_iff.1 hs.inactive)]
  exact listens_modeWait .sleep .sleep s

theorem listens_eventHandler (kind : Byte) : Listens (eventHandler kind) := by
  intro s
  unfold eventHandler
  split
  · exact listens_eventSleep s
  · exact listens_modeWait .standby .wakeup s
  · exact listening_quiet.refl s

/-! ## The step -/

namespace State.AlwaysListening
variable {s t : State} (hs : s.AlwaysListening)
include hs

theorem next_finish {f : Flow (Option Value)} (hf : Comes KeepsListening KeepsListening s f) :
    f.finish.AlwaysListening := by
  cases f with
  | done v t => exact hf hs
  | stop t => exact hf hs

theorem next_command {body : Cmd} (hbody : Listens body) (h : command body s = .next t) : t.AlwaysListening := by
  cases hrun : s.halted with
  | true =>
    rw [command_halted hrun] at h
    cases h
    exact hs
  | false =>
    rw [command_running hrun] at h
    cases h
    exact next_finish (s := s.started) hs (hbody s.started)

/-- A frame of the host port is one of the five host commands, or is refused (R84). -/
theorem next_runFrame {frame : CommandFrame} (hframe : frame.format = .host) (h : runFrame frame s = .next t) :
    t.AlwaysListening := by
  obtain ⟨format, bytes⟩ := frame
  obtain rfl : format = .host := hframe
  cases hdecode : decode ⟨.host, bytes⟩ with
  | error e =>
    rw [runFrame_refused hdecode (decode_host_error hdecode)] at h
    cases h
  | ok i =>
    rw [runFrame_decoded hdecode] at h
    obtain rfl | rfl | ⟨target, ack, cb, c, rfl⟩ | ⟨type, handler, rfl⟩ | ⟨kind, rfl⟩ := decode_host hdecode
    · exact hs.next_command listens_initEngine h
    · exact hs.next_command listens_updateEngine h
    · exact hs.next_command (keeps_boolResult listening_quiet (listens_sendCommand target ack cb c)) h
    · exact hs.next_command (keeps_noResult listening_quiet (listens_setPacketHandler (hostId handler) type)) h
    · exact hs.next_command (listens_eventHandler kind) h

theorem next_goOn {p : Pending} (h : goOn p s = .next t) : t.AlwaysListening := by
  cases p with
  | wait w =>
    cases h
    exact next_finish (s := s.resumed) hs (listens_pollWait w (listens_afterWait w.after) s.resumed)
  | drain =>
    cases h
    exact next_finish (s := s.resumed) hs (listens_eventSleep s.resumed)
  | refusal r => cases h
  | held =>
    cases h
    exact hs

/-- Every step of an always-listen engine leaves one (R261). -/
theorem next_step (h : step s = .next t) : t.AlwaysListening := by
  unfold step at h
  split at h
  · cases h
    exact hs
  · split at h
    · split at h
      · exact hs.next_goOn h
      · unfold takeCommand at h
        split at h
        · cases h
          exact hs
        · rename_i hinbox
          obtain ⟨hframe, hrest⟩ := hs.withInbox hinbox
          exact hrest.next_runFrame hframe h
    · cases h

end State.AlwaysListening

/-- Settles O58: a step is made of operations that an always-listen engine stays one in; and a SEND outside Idle answers
false with a log event. -/
theorem alwaysListeningNeverSends : Obligations.AlwaysListeningNeverSends := by
  refine ⟨fun s t hs h => hs.next_step h, fun s t target cb ack c hs hrun h => ?send⟩
  case send =>
    obtain ⟨d, hsend⟩ := sendPacket_notIdle (target := target) (ack := ack) (c := c) (callback := hostId cb)
      (s := s.started) hs.notIdle
    rw [exec_send hrun hsend] at h
    cases h
    exact ⟨rfl, rfl⟩

end Sys2Proof.Machine
end
